-- ==== Sys2Proof/Word.lean ====
section
/-! DEFINITION. The words of the BBusI2C bus sequencer: the 64-bit command word, the byte, the line level. -/

namespace Sys2Proof

/-- A command word (R70): one format, one length, 64 bits. -/
abbrev Word := BitVec 64

/-- A byte is 8 bits (R7). -/
abbrev Byte := BitVec 8

/-- A bus index as the BUS field spells it (R73), 0 to 15. -/
abbrev BusIx := BitVec 4

/-- The level of a line: `true` is high, 1 (R9). -/
abbrev Level := Bool

end Sys2Proof
end

