-- ==== Sys2Proof/Config.lean ====
section
/-! DEFINITION. What is fixed when the block is built (R5, R44), and the free values: what the collaborators answer where
the run has not fixed it. -/

namespace Sys2Proof

/-- The parameters of R5. They are not state: no step changes them (R44). They stand in the machine's state so that a
claim about every state is a claim about every value of them (log entry 1). -/
structure Config where
  /-- `N_BUS`, the number of bus instances, 1 to 16. -/
  nBus : Nat
  /-- `TICK_W`, the width in bits of the tick counter, at least 16. -/
  tickW : Nat
  /-- `TICK_MS`, milliseconds per tick; no rule of the model uses it (R249). -/
  tickMs : Nat
  /-- `ENGINE_ABORT_STOP`: whether WRITE, READ and READ_SEQ issue a stop of their own after a failed wait_ack (R145). -/
  engineAbortStop : Bool
deriving DecidableEq, Repr

/-- The values 95_test_vectors.md section 1.1 runs with; `ENGINE_ABORT_STOP = true` is the spec's chosen value (R5).
DESIGN CHOICE: the spec fixes neither `N_BUS` nor `TICK_W` (log entry 1). -/
def Config.default : Config := { nBus := 4, tickW := 16, tickMs := 1, engineAbortStop := true }

/-- The bounds R5 puts on the parameters. -/
abbrev Config.wf (c : Config) : Prop := 1 ≤ c.nBus ∧ c.nBus ≤ 16 ∧ 16 ≤ c.tickW

/-- FREE VALUE (log entry 6): what the bus environment answers to the n-th SAMPLE whose answer the run has not fixed.
No law constrains it (R208). -/
opaque Config.freeSample : Nat → Level

/-- FREE VALUE (log entry 7): how far beyond one step the tick counter moves at its n-th unfixed advance (R209). -/
opaque Config.freeTickStep : Nat → Nat

/-- FREE VALUE (log entry 7): for how many TICK events the counter then stands still. It is a number, so the counter
always moves again (R209 law 3). -/
opaque Config.freeTickStall : Nat → Nat

end Sys2Proof
end

