-- ==== Sys2Proof/Machine/State.lean ====
section
/-! DEFINITION. The machine's state (10_state.md R20), as plain data, and its value after reset (R45). -/

namespace Sys2Proof.Machine

/-- A data line's direction (R9). -/
inductive Dir where
  | out
  | inp
deriving DecidableEq, Repr

/-- The Transaction Engine's state, with the values of R30. -/
inductive Phase where
  | idle
  | started
  | addressSent
  | registerSent
  | restarted
  | readAddressSent
  | dataPhase
  | stopped
  | aborted
deriving DecidableEq, Repr

/-- What `respond` may answer (R14). STATUS 0, NONE, is only RESP's value after reset (R76). -/
inductive Status where
  | ok
  | fail
  | illegal
deriving DecidableEq, Repr

/-! ## The control point (R22)

The position of the running command within its pseudocode. A primitive is straight pieces of line events, between which it
takes a sample, reads a tick or counts a bit; a position holds the events of the current piece still to come. -/

/-- One line event of a primitive's pseudocode (R9, R10). -/
inductive LineOp where
  | dir (d : Dir)
  | sda (v : Level)
  | scl (v : Level)
  | hold
deriving DecidableEq, Repr

/-- What stands in the pseudocode after a straight piece. -/
inductive Tail where
  /-- The primitive returns. -/
  | ret
  /-- send_byte's loop over BITCNT begins (R103). -/
  | sendLoop
  /-- A bit of send_byte is done (R103). -/
  | sendBit
  /-- read_byte's loop over BITCNT begins (R104). -/
  | readLoop
  /-- read_byte takes its SAMPLE (R104). -/
  | readSample
  /-- A bit of read_byte is done (R104). -/
  | readBit
  /-- wait_ack reads T0 (R105). -/
  | waitBegin
  /-- wait_ack returns success (R105). -/
  | acked
  /-- wait_ack returns failure, its stop done (R105). -/
  | timedOut
deriving DecidableEq, Repr

/-- A position inside a primitive: the event it emits next. -/
inductive Pos where
  /-- Line event `op`, then `rest`, then what `tail` says. -/
  | seg (op : LineOp) (rest : List LineOp) (tail : Tail)
  /-- read_byte's SAMPLE. -/
  | sample
  /-- wait_ack's first TICK, which sets T0. -/
  | tickT0
  /-- wait_ack's SAMPLE. -/
  | poll
  /-- wait_ack's time check, a TICK. -/
  | check
deriving DecidableEq, Repr

/-- Where in a command's pseudocode a primitive is called. -/
inductive Site where
  /-- The one call of a primitive command. -/
  | command
  /-- The opening start of a transaction. -/
  | openStart
  | sendAddrW
  | waitAddrW
  | sendReg
  | waitReg
  /-- READ's repeated start. -/
  | repeatStart
  | sendAddrR
  | waitAddrR
  | sendData
  | waitData
  | readData
  /-- The closing stop of a successful transaction. -/
  | closeStop
  /-- The engine's stop after a failed wait_ack (R145), PROBE's own stop (R141). -/
  | abortStop
deriving DecidableEq, Repr

/-- The control point: the event or respond the running command does next. -/
inductive Ctrl where
  /-- No command is running. -/
  | idle
  | csEnter
  | call (site : Site) (pos : Pos)
  | bufRd
  | bufWr
  /-- CS_EXIT, after which the command responds `st`. -/
  | csExit (st : Status)
  | respond (st : Status) (rd : Byte)
deriving DecidableEq, Repr

/-! ## What is observed (R16) -/

/-- An event of the trace (R9 to R13), or a response word (R14, R63). -/
inductive Event where
  | dir (b : BusIx) (d : Dir)
  | sda (b : BusIx) (v : Level)
  | scl (b : BusIx) (v : Level)
  | sample (b : BusIx) (s : Level)
  | hold (b : BusIx) (d : BitVec 32)
  | tick (t : Nat)
  | csEnter (b : BusIx)
  | csExit (b : BusIx)
  | bufRd (k : BitVec 16) (v : Byte)
  | bufWr (k : BitVec 16) (v : Byte)
  | resp (w : BitVec 16)
deriving DecidableEq, Repr

/-- A buffer (R50): cells at indices from 0, rising, none of them equal to what an unlisted index reads as. -/
abbrev Memory := List Host.Cell

/-- A completed command: its word, its response, and its buffer at the respond (R215), empty for a command that has none
or was answered ILLEGAL. -/
structure Done where
  word : Word
  resp : BitVec 16
  buf : Memory
deriving DecidableEq, Repr

/-! ## The agents around the sequencer (R6) -/

/-- What the host does (R212). -/
inductive HostAct where
  /-- Present a command word; `data` are the bytes of its buffer in index order, for a command that has one (R50, R88). -/
  | command (w : Word) (data : List Byte)
  /-- Assert RST (R230). -/
  | rst
deriving DecidableEq, Repr

/-- A move of the host and how many steps pass before it is due. -/
structure HostMove where
  after : Nat
  act : HostAct
deriving DecidableEq, Repr

/-- The collaborators' answers (R208 to R211). The MODEL's own fields (log entries 6, 7, 8). -/
structure Env where
  /-- The answers of the coming SAMPLEs; after them each answer is a free value. -/
  samples : List Level
  /-- How many free SAMPLE answers have been taken. -/
  sampleNo : Nat
  /-- The unwrapped tick counter U of R209, as the last TICK read it. -/
  tickNow : Nat
  /-- By how much U grows before each coming TICK; after them each increase is a free value. -/
  tickSteps : List Nat
  /-- How many free increases have been taken. -/
  tickNo : Nat
  /-- For how many more TICKs U stands still before the next free increase. -/
  tickStall : Nat
  /-- How many steps each coming HOLD or CS_ENTER has to wait, one number for each; after them there is no wait. A HOLD
  with delay 0 takes its number off and does not wait (R183). -/
  waits : List Nat
deriving DecidableEq, Repr

/-! ## The state -/

/-- The state of one bus (R42). The latches' `none` is R27's "unknown", the spec's own state of a latch no event has
written since reset; the block never reads a latch. -/
structure Bus where
  /-- `bit_delay_us[b]` (R23). -/
  bitDelayUs : BitVec 32
  /-- `SCL_OUT[b]` (R26). -/
  sclOut : Option Level
  /-- `SDA_DIR[b]` (R25). -/
  sdaDir : Option Dir
  /-- `SDA_OUT[b]` (R25). -/
  sdaOut : Option Level
deriving DecidableEq, Repr

/-- A bus after reset (R45). -/
def Bus.reset : Bus := { bitDelayUs := 0, sclOut := none, sdaDir := none, sdaOut := none }

/-- The state of R20, then the model's own fields. -/
structure State where
  /-- The parameters (R44); no step changes them. -/
  cfg : Config
  /-- The per-bus state (R42). Entries at or past `N_BUS` are no buses. -/
  buses : Vector Bus 16
  /-- `BUSY` (R29). -/
  busy : Bool
  /-- `CMD` (R31). -/
  cmd : Word
  /-- `PHASE` (R30). -/
  phase : Phase
  /-- `SHIFT` (R33). Between commands its value is unspecified; it keeps the last one (log entry 19). -/
  shift : Byte
  /-- `BITCNT` (R34). -/
  bitCnt : BitVec 3
  /-- `BYTEIDX` (R35). -/
  byteIdx : BitVec 16
  /-- `T0` (R36), below `2^TICK_W`. -/
  t0 : Nat
  /-- `ACKOK` (R36). -/
  ackOk : Bool
  /-- `CS_HELD` (R32). -/
  csHeld : Option BusIx
  /-- `RESP` (R39). -/
  resp : BitVec 16
  /-- `REFUSED` (R198). -/
  refused : Bool
  /-- The control point (R22). -/
  ctrl : Ctrl
  /-- The buffer of the running WRITE, READ or READ_SEQ, or of the last one (R50). That the bytes stay here until the next
  such command is accepted is a DESIGN CHOICE (log entry 20). -/
  buf : Memory
  /-- The MODEL's own: the completed commands, newest first (R215). -/
  done : List Done
  /-- The MODEL's own: the event trace, newest first (R16). -/
  trace : List Event
  /-- The MODEL's own: the host's moves still to come (R17). -/
  host : List HostMove
  /-- The MODEL's own: the collaborators' answers. -/
  env : Env
deriving DecidableEq, Repr

/-- Why a step stops with a fault. The block has no fault (R38, R216): both are for states no run reaches. -/
inductive Fault where
  /-- Raised by a step with BUSY = 1 whose control point is no position of the command's pseudocode (R22). Safe: no run
  reaches such a state. -/
  | noControlPoint
  /-- Raised by a buffer access at an index outside 0 to LEN-1 (R13). Safe: no run reaches such a state. -/
  | bufferIndex
deriving DecidableEq, Repr

/-- Why a step is refused. -/
inductive Refusal where
  /-- Raised by an arm of `exec` whose instruction has no meaning yet; no arm does. Safe. -/
  | notModelled (mnemonic : String)
  /-- Raised by every step from a state with REFUSED = 1: a command whose address byte had bit 0 set was accepted, and no
  agent has a step after it (R197, R198). Safe: a run that gets here proves nothing. -/
  | addressDirectionBit
deriving DecidableEq, Repr

/-- The collaborators before any answer (log entries 6, 7, 8). -/
def Env.reset : Env :=
  { samples := [], sampleNo := 0, tickNow := 0, tickSteps := [], tickNo := 0, tickStall := 0, waits := [] }

/-- The state after the first RST of a block built with parameters `c` (R45). CMD, SHIFT, BITCNT, BYTEIDX, T0 and ACKOK
are unspecified there; their 0 is a DESIGN CHOICE (log entry 2). -/
def State.resetOf (c : Config) : State :=
  { cfg := c
    buses := Vector.replicate 16 Bus.reset
    busy := false
    cmd := 0
    phase := .idle
    shift := 0
    bitCnt := 0
    byteIdx := 0
    t0 := 0
    ackOk := false
    csHeld := none
    resp := 0x0000
    refused := false
    ctrl := .idle
    buf := []
    done := []
    trace := []
    host := []
    env := Env.reset }

/-- The machine right after reset (R45), with the parameters of log entry 1. -/
def State.reset : State := State.resetOf Config.default

end Sys2Proof.Machine
end

