-- ==== Sys2Proof/Machine/Flags.lean ====
section
/-! DEFINITION. The block's only flags (R40): the acknowledge sample, the timeout comparison that sets ACKOK to 0, and
the status field of RESP. The block has no condition codes. -/

namespace Sys2Proof.Machine

/-- The code of STATUS (R76). -/
def Status.code : Status → BitVec 2
  | .ok => 1
  | .fail => 2
  | .illegal => 3

/-- The 16-bit response word of R76: RDATA, six zeros, STATUS. -/
def respWord (st : Status) (rd : Byte) : BitVec 16 := rd ++ 0#6 ++ st.code

/-- The STATUS field of a response word (R76). -/
def respStatus (w : BitVec 16) : BitVec 2 := w.extractLsb' 0 2

/-- The RDATA field of a response word (R76). -/
def respRdata (w : BitVec 16) : Byte := w.extractLsb' 8 8

/-- The bytes of a response word on a platform that carries it as bytes, least significant first (R57). -/
def bytesOfResp (w : BitVec 16) : List Byte := [w.extractLsb' 0 8, w.extractLsb' 8 8]

/-- The response word whose bytes these are; it has exactly two (R57). -/
def respOfBytes : List Byte → Option (BitVec 16)
  | [b0, b1] => some (b1.setWidth 16 <<< 8 ||| b0.setWidth 16)
  | _ => none

/-- The 4-bit code of PHASE (R30); 9 to 15 are never held. -/
def Phase.code : Phase → BitVec 4
  | .idle => 0
  | .started => 1
  | .addressSent => 2
  | .registerSent => 3
  | .restarted => 4
  | .readAddressSent => 5
  | .dataPhase => 6
  | .stopped => 7
  | .aborted => 8

/-- An acknowledge is a sample of 0 (R40). -/
def acknowledged (s : Level) : Bool := !s

/-- `(t - T0) mod 2^TICK_W`, right across one wrap of the counter (R205). -/
def elapsed (tickW t t0 : Nat) : Nat := (t + 2 ^ tickW - t0) % 2 ^ tickW

/-- The elapsed time reaches the timeout (R105, R190). `TICK_W` is at least 16, so extending TIMEOUT keeps its value. -/
def timeoutReached (tickW t t0 : Nat) (timeout : BitVec 16) : Bool := decide (timeout.toNat ≤ elapsed tickW t t0)

/-- Whether the status a finished wait_ack gives is OK (R105). -/
def waitStatus (ackOk : Bool) : Status := if ackOk then .ok else .fail

end Sys2Proof.Machine
end

