-- ==== Sys2Proof/Syntax.lean ====
section
/-! DEFINITION. The commands: one constructor per row of spec/opcode_table.json (R77). -/

namespace Sys2Proof

/-- A command with its operand fields (R71, R77). Fields an opcode does not use have no place here: they must be zero in
the word (R80). -/
inductive Instr where
  /-- INIT (R180): acts on all buses. -/
  | init
  /-- SET_DELAY (R181): the new `bit_delay_us` of bus `bus`. -/
  | setDelay (bus : BusIx) (delay : BitVec 32)
  /-- PROBE (R141). -/
  | probe (bus : BusIx) (addr : Byte) (timeout : BitVec 16)
  /-- WRITE (R142). -/
  | write (bus : BusIx) (addr reg : Byte) (len timeout : BitVec 16)
  /-- READ (R143). -/
  | read (bus : BusIx) (addr reg : Byte) (len timeout : BitVec 16)
  /-- READ_SEQ (R144). -/
  | readSeq (bus : BusIx) (addr : Byte) (len timeout : BitVec 16)
  /-- START (R101). -/
  | start (bus : BusIx)
  /-- STOP (R102). -/
  | stop (bus : BusIx)
  /-- SEND_BYTE (R103). -/
  | sendByte (bus : BusIx) (data : Byte)
  /-- READ_BYTE (R104): `sendAck` is ACKF. -/
  | readByte (bus : BusIx) (sendAck : Bool)
  /-- WAIT_ACK (R105). -/
  | waitAck (bus : BusIx) (timeout : BitVec 16)
  /-- ACK (R106). -/
  | ack (bus : BusIx)
  /-- NACK (R107). -/
  | nack (bus : BusIx)
deriving DecidableEq, Repr

/-- The bus a command acts on; INIT's BUS field is 0 (R73). -/
def Instr.bus : Instr → BusIx
  | .init => 0
  | .setDelay b _ => b
  | .probe b _ _ => b
  | .write b _ _ _ _ => b
  | .read b _ _ _ _ => b
  | .readSeq b _ _ _ => b
  | .start b => b
  | .stop b => b
  | .sendByte b _ => b
  | .readByte b _ => b
  | .waitAck b _ => b
  | .ack b => b
  | .nack b => b

/-- The address byte of the four transactions (R74). SEND_BYTE's DATA is no address byte. -/
def Instr.address : Instr → Option Byte
  | .init => none
  | .setDelay _ _ => none
  | .probe _ a _ => some a
  | .write _ a _ _ _ => some a
  | .read _ a _ _ _ => some a
  | .readSeq _ a _ _ => some a
  | .start _ => none
  | .stop _ => none
  | .sendByte _ _ => none
  | .readByte _ _ => none
  | .waitAck _ _ => none
  | .ack _ => none
  | .nack _ => none

/-- The TIMEOUT of a command that has one (R75, R150); 0 for a command that waits for no acknowledge. -/
def Instr.timeout : Instr → BitVec 16
  | .init => 0
  | .setDelay _ _ => 0
  | .probe _ _ t => t
  | .write _ _ _ _ t => t
  | .read _ _ _ _ t => t
  | .readSeq _ _ _ t => t
  | .start _ => 0
  | .stop _ => 0
  | .sendByte _ _ => 0
  | .readByte _ _ => 0
  | .waitAck _ t => t
  | .ack _ => 0
  | .nack _ => 0

end Sys2Proof
end

