-- ==== Sys2Proof/Decode.lean ====
section
/-! DEFINITION. From a command word to a command and back (30_encoding.md R70 to R87). The range check of BUS (R81) needs
`N_BUS`, so it stands with the machine's accept step. -/

namespace Sys2Proof

/-- Why a word is no command, by name. -/
inductive DecodeError where
  /-- OP is 0x0, 0x7 or 0xF (R79). -/
  | reservedOpcode
  /-- A bit the opcode does not use is 1 (R80). -/
  | mustBeZero
deriving DecidableEq, Repr

/-! The fields of R71. -/

/-- `OP = CMD[3:0]` (R72). -/
def opField (w : Word) : BitVec 4 := w.extractLsb' 0 4
/-- `BUS = CMD[7:4]` (R73). -/
def busField (w : Word) : BusIx := w.extractLsb' 4 4
/-- `A8 = CMD[15:8]` (R74), called DATA in SEND_BYTE. -/
def a8Field (w : Word) : Byte := w.extractLsb' 8 8
/-- `REG = CMD[23:16]` (R75). -/
def regField (w : Word) : Byte := w.extractLsb' 16 8
/-- `ACKF = CMD[24]` (R75). -/
def ackField (w : Word) : Bool := w.getLsbD 24
/-- `LEN = CMD[47:32]` (R75). -/
def lenField (w : Word) : BitVec 16 := w.extractLsb' 32 16
/-- `TIMEOUT = CMD[63:48]` (R75). -/
def timeoutField (w : Word) : BitVec 16 := w.extractLsb' 48 16
/-- `DELAY = CMD[63:32]` (R75). -/
def delayField (w : Word) : BitVec 32 := w.extractLsb' 32 32

/-- The MASK of an opcode (R78): OP and every bit the opcode does not use. `none` for the reserved opcodes (R79). -/
def maskOf (op : BitVec 4) : Option Word :=
  match op.toNat with
  | 0x1 => some 0xFFFFFFFFFFFFFFFF#64
  | 0x2 => some 0x00000000FFFFFF0F#64
  | 0x3 => some 0x0000FFFFFFFF000F#64
  | 0x4 => some 0x00000000FF00000F#64
  | 0x5 => some 0x00000000FF00000F#64
  | 0x6 => some 0x00000000FFFF000F#64
  | 0x8 => some 0xFFFFFFFFFFFFFF0F#64
  | 0x9 => some 0xFFFFFFFFFFFFFF0F#64
  | 0xA => some 0xFFFFFFFFFFFF000F#64
  | 0xB => some 0xFFFFFFFFFEFFFF0F#64
  | 0xC => some 0x0000FFFFFFFFFF0F#64
  | 0xD => some 0xFFFFFFFFFFFFFF0F#64
  | 0xE => some 0xFFFFFFFFFFFFFF0F#64
  | _ => none

/-- The MATCH of an opcode (R78): the opcode, all other bits zero. -/
def matchOf (op : BitVec 4) : Word := op.setWidth 64

/-- The command of an opcode with the operands of R77, read from the word's fields. -/
def fromFields (w : Word) : Option Instr :=
  match (opField w).toNat with
  | 0x1 => some .init
  | 0x2 => some (.setDelay (busField w) (delayField w))
  | 0x3 => some (.probe (busField w) (a8Field w) (timeoutField w))
  | 0x4 => some (.write (busField w) (a8Field w) (regField w) (lenField w) (timeoutField w))
  | 0x5 => some (.read (busField w) (a8Field w) (regField w) (lenField w) (timeoutField w))
  | 0x6 => some (.readSeq (busField w) (a8Field w) (lenField w) (timeoutField w))
  | 0x8 => some (.start (busField w))
  | 0x9 => some (.stop (busField w))
  | 0xA => some (.sendByte (busField w) (a8Field w))
  | 0xB => some (.readByte (busField w) (ackField w))
  | 0xC => some (.waitAck (busField w) (timeoutField w))
  | 0xD => some (.ack (busField w))
  | 0xE => some (.nack (busField w))
  | _ => none

/-- The first two checks of R87 and the opcode's operands: total, and every word it refuses it refuses by name. -/
def decode (w : Word) : Except DecodeError Instr :=
  match maskOf (opField w), fromFields w with
  | some mask, some i => if w &&& mask = matchOf (opField w) then .ok i else .error .mustBeZero
  | _, _ => .error .reservedOpcode

/-- The opcode of a command (R77). -/
def opcode : Instr → BitVec 4
  | .init => 0x1
  | .setDelay _ _ => 0x2
  | .probe _ _ _ => 0x3
  | .write _ _ _ _ _ => 0x4
  | .read _ _ _ _ _ => 0x5
  | .readSeq _ _ _ _ => 0x6
  | .start _ => 0x8
  | .stop _ => 0x9
  | .sendByte _ _ => 0xA
  | .readByte _ _ => 0xB
  | .waitAck _ _ => 0xC
  | .ack _ => 0xD
  | .nack _ => 0xE

/-- The word of R71's bit diagram: each field at its place, RSV zero. `high` is bits 63:32, TIMEOUT and LEN, or DELAY. -/
def layout (high : BitVec 32) (ackf : Bool) (reg a8 : Byte) (bus op : BitVec 4) : Word :=
  high.setWidth 64 <<< 32 ||| (BitVec.ofBool ackf).setWidth 64 <<< 24 ||| reg.setWidth 64 <<< 16
    ||| a8.setWidth 64 <<< 8 ||| bus.setWidth 64 <<< 4 ||| op.setWidth 64

/-- Bits 63:32 of a command with TIMEOUT and LEN (R71). -/
def timeoutLen (timeout len : BitVec 16) : BitVec 32 := timeout.setWidth 32 <<< 16 ||| len.setWidth 32

/-- The command word of a command (R71, R77): every field the opcode does not use is zero. -/
def encode (i : Instr) : Word :=
  match i with
  | .init => layout 0 false 0 0 0 0x1
  | .setDelay b d => layout d false 0 0 b 0x2
  | .probe b a t => layout (timeoutLen t 0) false 0 a b 0x3
  | .write b a r n t => layout (timeoutLen t n) false r a b 0x4
  | .read b a r n t => layout (timeoutLen t n) false r a b 0x5
  | .readSeq b a n t => layout (timeoutLen t n) false 0 a b 0x6
  | .start b => layout 0 false 0 0 b 0x8
  | .stop b => layout 0 false 0 0 b 0x9
  | .sendByte b v => layout 0 false 0 v b 0xA
  | .readByte b k => layout 0 k 0 0 b 0xB
  | .waitAck b t => layout (timeoutLen t 0) false 0 0 b 0xC
  | .ack b => layout 0 false 0 0 b 0xD
  | .nack b => layout 0 false 0 0 b 0xE

/-! A platform that carries a word as bytes sends them least significant first (R57). -/

/-- The bytes of a command word, least significant first. -/
def bytesOfWord (w : Word) : List Byte :=
  [w.extractLsb' 0 8, w.extractLsb' 8 8, w.extractLsb' 16 8, w.extractLsb' 24 8,
   w.extractLsb' 32 8, w.extractLsb' 40 8, w.extractLsb' 48 8, w.extractLsb' 56 8]

/-- The word whose bytes these are; a command word has exactly eight. -/
def wordOfBytes : List Byte → Option Word
  | [b0, b1, b2, b3, b4, b5, b6, b7] =>
    some (b7.setWidth 64 <<< 56 ||| b6.setWidth 64 <<< 48 ||| b5.setWidth 64 <<< 40 ||| b4.setWidth 64 <<< 32
      ||| b3.setWidth 64 <<< 24 ||| b2.setWidth 64 <<< 16 ||| b1.setWidth 64 <<< 8 ||| b0.setWidth 64)
  | _ => none

/-- Decoding a word carried as bytes; `none` where there are not eight bytes or the word is no command. -/
def decodeBytes (bs : List Byte) : Option Instr :=
  (wordOfBytes bs).bind fun w => (decode w).toOption

/-- The word whose bits, numbered as spec/opcode_table.json numbers them, are the low `nbits` bits of `w`. -/
def tableWord (nbits w : Nat) : Word := BitVec.ofNat 64 (w % 2 ^ nbits)

/-- What the decoder reads from the eight bytes of a table row's word. -/
def decodeTableWord (nbits w : Nat) : Option Instr := decodeBytes (bytesOfWord (tableWord nbits w))

end Sys2Proof
end

