-- ==== Sys2Proof/Machine/Operands.lean ====
section
/-! DEFINITION. What a command's operands mean: the bytes it sends, the primitives' arguments, the checks of the accept
step. -/

namespace Sys2Proof.Machine

/-- The write-address byte: the 7-bit address, direction bit 0 (R84). -/
def addrW (a8 : Byte) : Byte := a8.extractLsb' 1 7 ++ 0#1

/-- The read-address byte: the 7-bit address, direction bit 1 (R84). -/
def addrR (a8 : Byte) : Byte := a8.extractLsb' 1 7 ++ 1#1

/-- The arguments of a running command's calls: the bus, wait_ack's timeout, read_byte's acknowledge choice, the number
of bytes in the buffer. -/
structure CallArgs where
  bus : BusIx
  timeout : BitVec 16 := 0
  sendAck : Bool := false
  len : BitVec 16 := 0
deriving DecidableEq, Repr

/-- Byte k of n is acknowledged when `k < n - 1`, as unsigned numbers with no underflow (R149). -/
def moreBytes (k n : BitVec 16) : Bool := decide (k.toNat + 1 < n.toNat)

/-- LEN for a command that has a buffer, 0 for one that has none (R51, R86). -/
def bufferLen : Instr → Nat
  | .init => 0
  | .setDelay _ _ => 0
  | .probe _ _ _ => 0
  | .write _ _ _ n _ => n.toNat
  | .read _ _ _ n _ => n.toNat
  | .readSeq _ _ n _ => n.toNat
  | .start _ => 0
  | .stop _ => 0
  | .sendByte _ _ => 0
  | .readByte _ _ => 0
  | .waitAck _ _ => 0
  | .ack _ => 0
  | .nack _ => 0

/-- The commands that have a buffer (R50, R51). -/
def hasBuffer : Instr → Bool
  | .init => false
  | .setDelay _ _ => false
  | .probe _ _ _ => false
  | .write _ _ _ _ _ => true
  | .read _ _ _ _ _ => true
  | .readSeq _ _ _ _ => true
  | .start _ => false
  | .stop _ => false
  | .sendByte _ _ => false
  | .readByte _ _ => false
  | .waitAck _ _ => false
  | .ack _ => false
  | .nack _ => false

/-- The commands that drive a bus: all but the two of configuration (R180, R181). -/
def drivesBus : Instr → Bool
  | .init => false
  | .setDelay _ _ => false
  | .probe _ _ _ => true
  | .write _ _ _ _ _ => true
  | .read _ _ _ _ _ => true
  | .readSeq _ _ _ _ => true
  | .start _ => true
  | .stop _ => true
  | .sendByte _ _ => true
  | .readByte _ _ => true
  | .waitAck _ _ => true
  | .ack _ => true
  | .nack _ => true

/-- R81, the third check of R196: the command's bus exists. INIT names no bus. -/
def busInRange (nBus : Nat) (i : Instr) : Bool := decide (i = .init) || decide (i.bus.toNat < nBus)

/-- The fourth check of R196: a transaction's address byte has bit 0 set (R197). -/
def directionBitSet (i : Instr) : Bool := (i.address.map fun a => a.getLsbD 0).getD false

end Sys2Proof.Machine
end

