-- ==== Sys2Proof/Machine/Ops.lean ====
section
/-! DEFINITION. The named operations over the state: the buffer, the per-bus state, the events, the collaborators' answers,
accepting a command, responding, the reset input, the host's moves. -/

namespace Sys2Proof.Machine

/-! ## The buffer (R50, R58) -/

/-- What an index reads as that no cell lists. DESIGN CHOICE (log entry 4). -/
def Memory.unlisted : Byte := 0

/-- The byte at an index. -/
def Memory.read (m : Memory) (k : Nat) : Byte :=
  match m with
  | [] => Memory.unlisted
  | (a, v) :: rest => if a = k then v else Memory.read rest k

/-- A cell for an index, unless it holds what an unlisted index reads as. -/
def Memory.cons (k : Nat) (v : Byte) (m : Memory) : Memory := if v = Memory.unlisted then m else (k, v) :: m

/-- Write the byte at an index; the cells stay in rising order. -/
def Memory.write (m : Memory) (k : Nat) (v : Byte) : Memory :=
  match m with
  | [] => Memory.cons k v []
  | (a, u) :: rest =>
    if k < a then Memory.cons k v ((a, u) :: rest)
    else if a = k then Memory.cons k v rest
    else (a, u) :: Memory.write rest k v

/-- The buffer whose bytes from index `k` on are `bs`. -/
def Memory.ofBytes (k : Nat) (bs : List Byte) : Memory :=
  match bs with
  | [] => []
  | v :: rest => Memory.cons k v (Memory.ofBytes (k + 1) rest)

/-- Every listed index is at least `k`. -/
def Memory.above (k : Nat) (m : Memory) : Bool := m.all fun c => decide (k ≤ c.1)

/-- The one canonical form: indices strictly rising, no cell equal to what an unlisted index reads as. -/
def Memory.wf (m : Memory) : Bool :=
  match m with
  | [] => true
  | (a, v) :: rest => decide (v ≠ Memory.unlisted) && Memory.above (a + 1) rest && Memory.wf rest

/-! ## Per-bus state (R42) -/

/-- The state of bus `b`. -/
def State.bus (s : State) (b : BusIx) : Bus := s.buses[b.toNat]'(b.isLt)

/-- Give bus `b` a new state. -/
def State.setBus (s : State) (b : BusIx) (x : Bus) : State := { s with buses := s.buses.set b.toNat x b.isLt }

/-- The same change on every bus. -/
def mapBuses (f : Bus → Bus) (v : Vector Bus 16) : Vector Bus 16 := ⟨⟨v.toList.map f⟩, by simp⟩

/-- The idle-high state of a bus (R28). -/
abbrev Bus.idleHigh (x : Bus) : Prop := x.sclOut = some true ∧ x.sdaDir = some .out ∧ x.sdaOut = some true

/-! ## Events (R9 to R13, R24) -/

/-- Add an event to the trace. -/
def State.emit (s : State) (e : Event) : State := { s with trace := e :: s.trace }

/-- A line event of bus `b`: the one latch it updates (R24), and the event. A HOLD changes no latch and shows the delay
held when it is emitted (R10). -/
def lineEvent (b : BusIx) (op : LineOp) (s : State) : State :=
  match op with
  | .dir d => (s.setBus b { s.bus b with sdaDir := some d }).emit (.dir b d)
  | .sda v => (s.setBus b { s.bus b with sdaOut := some v }).emit (.sda b v)
  | .scl v => (s.setBus b { s.bus b with sclOut := some v }).emit (.scl b v)
  | .hold => s.emit (.hold b (s.bus b).bitDelayUs)

/-! ## The collaborators' answers (R208 to R211) -/

/-- Whether the delay collaborator or the critical-section provider keeps the sequencer waiting in this step, and the
state after that step of waiting (R38 "Wait"). -/
def collaboratorWait (s : State) : Option State :=
  match s.env.waits with
  | (n + 1) :: ws => some { s with env := { s.env with waits := n :: ws } }
  | _ => none

/-- As `collaboratorWait`, for a HOLD of bus `b`: a delay of 0 requests no wait and ends at once (R181, R183). -/
def holdWait (b : BusIx) (s : State) : Option State :=
  if (s.bus b).bitDelayUs = 0 then none else collaboratorWait s

/-- The wait that has ended is taken off. -/
def collaboratorDone (s : State) : State := { s with env := { s.env with waits := s.env.waits.tail } }

/-- The next SAMPLE answer: the run's, or a free value (R208, log entry 6). -/
def nextSample (e : Env) : Level × Env :=
  match e.samples with
  | v :: vs => (v, { e with samples := vs })
  | [] => (Config.freeSample e.sampleNo, { e with sampleNo := e.sampleNo + 1 })

/-- By how much U grows before the next TICK: the run's increase, or a free one, which never lets U stand still for ever
(R209 laws 1 and 3, log entry 7). -/
def nextTickStep (e : Env) : Nat × Env :=
  match e.tickSteps with
  | d :: ds => (d, { e with tickSteps := ds })
  | [] =>
    match e.tickStall with
    | k + 1 => (0, { e with tickStall := k })
    | 0 =>
      (Config.freeTickStep e.tickNo + 1,
        { e with tickNo := e.tickNo + 1, tickStall := Config.freeTickStall e.tickNo })

/-- The largest increase law 2 of R209 allows between two TICKs of one wait. -/
def maxTickStep (tickW : Nat) (timeout : BitVec 16) : Nat := 2 ^ tickW - timeout.toNat

/-- SAMPLE (R9): the level read and the state after the event. -/
def sampleEvent (b : BusIx) (s : State) : Level × State :=
  let (v, e) := nextSample s.env
  (v, State.emit { s with env := e } (.sample b v))

/-- TICK (R11): U grows by at most `limit`, where there is one; the answer is U's low `TICK_W` bits. -/
def tickEvent (limit : Option Nat) (s : State) : Nat × State :=
  let (d, e) := nextTickStep s.env
  let d := match limit with
    | some m => min d m
    | none => d
  let u := e.tickNow + d
  let t := u % 2 ^ s.cfg.tickW
  (t, State.emit { s with env := { e with tickNow := u } } (.tick t))

/-! ## Accept and respond (R37) -/

/-- Move the control point. -/
def State.goto (c : Ctrl) (s : State) : State := { s with ctrl := c }

/-- Write PHASE. -/
def State.setPhase (p : Phase) (s : State) : State := { s with phase := p }

/-- The buffer a command of `n` bytes leaves when it responds `st` (R215): none for a command that has none or was answered
ILLEGAL. -/
def doneBuffer (n : Nat) (st : Status) (s : State) : Memory := if st = .illegal ∨ n = 0 then [] else s.buf

/-- `respond(st, rd)` (R14, R39): RESP is written and BUSY falls; the command is complete, with its buffer of `n` bytes
(R215). DESIGN CHOICE (log entry 19): SHIFT, and the other datapath registers, keep the values they have here until the next
command writes them, where R33 says that SHIFT is unspecified between commands. -/
def respond (n : Nat) (st : Status) (rd : Byte) (s : State) : State :=
  { s with
    resp := respWord st rd
    busy := false
    ctrl := .idle
    done := { word := s.cmd, resp := respWord st rd, buf := doneBuffer n st s } :: s.done
    trace := .resp (respWord st rd) :: s.trace }

/-- The command word the host presents in this step, if it does. -/
def State.presented (s : State) : Option Word :=
  match s.host with
  | { after := 0, act := .command w _ } :: _ => some w
  | _ => none

/-- The buffer bytes that come with the presented command. -/
def State.presentedData (s : State) : List Byte :=
  match s.host with
  | { after := 0, act := .command _ bs } :: _ => bs
  | _ => []

/-- The host's moves once the presented command is taken. -/
def State.hostAfterAccept (s : State) : List HostMove :=
  match s.host with
  | { after := 0, act := .command _ _ } :: rest => rest
  | moves => moves

/-- Take word `w` from the command port: `CMD <- w`, `BUSY <- 1` (R31, R37). -/
def latchCommand (w : Word) (s : State) : State :=
  { s with
    cmd := w
    busy := true
    host := s.hostAfterAccept }

/-- An admitted WRITE, READ or READ_SEQ has the buffer whose bytes are `data`, as far as its LEN goes (R50). DESIGN CHOICE
(log entry 20): it takes the place of the last such command's, also of one that RST abandoned. Every other command leaves the
buffer alone (R51, R180). -/
def takeBuffer (i : Instr) (data : List Byte) (s : State) : State :=
  if hasBuffer i then { s with buf := Memory.ofBytes 0 (data.take (bufferLen i)) } else s

/-- The accept step of command `i`, with the checks of R87 that are left once the word is decoded, in the order of R196:
the bus exists (R81), then the direction bit is clear (R197, R198), then the command's first event is reached by `first`. -/
def accept (i : Instr) (first : State → State) (s : State) : State :=
  let s1 := latchCommand (encode i) s
  if busInRange s.cfg.nBus i then
    if directionBitSet i then { s1 with refused := true, ctrl := .idle } else first (takeBuffer i s.presentedData s1)
  else s1.goto (.respond .illegal 0)

/-- A step of the sequencer on a word that is no command (R82, R195): the accept, and in the step after it the respond. -/
def runIllegal (w : Word) (s : State) : Host.Outcome State Fault Refusal :=
  if s.refused then .refused .addressDirectionBit
  else if s.busy then
    match s.ctrl with
    | .respond st rd => .next (respond 0 st rd s)
    | _ => .fault .noControlPoint
  else .next ((latchCommand w s).goto (.respond .illegal 0))

/-! ## RST (R230, R232) -/

/-- The bus in use by the running command, if there is one: the bus of a legal command that drives one. -/
def State.busInUse (s : State) : Option BusIx :=
  if s.busy then
    match decode s.cmd with
    | .ok i => if drivesBus i && busInRange s.cfg.nBus i then some i.bus else none
    | .error _ => none
  else none

/-- The bus in use when RST abandons its command: its latches stay as the last event put them (R232), its delay is 0. On
every other bus the latches are unknown (R45, R230). DEDUCED (log entry 10). -/
def keepLatches (inUse : Option BusIx) (s t : State) : State :=
  match inUse with
  | some b => t.setBus b { s.bus b with bitDelayUs := 0 }
  | none => t

/-- The host's moves once the RST is taken. -/
def State.hostAfterRst (s : State) : List HostMove :=
  match s.host with
  | { after := 0, act := .rst } :: rest => rest
  | moves => moves

/-- The RST step (R230): every field of the block as R45 has it. What has been observed stays observed, and so does the
buffer as far as it was written (R232); the collaborators are not reset. DESIGN CHOICE (log entry 20): an abandoned command is
no completed one, so its buffer is not in `done`. -/
def rst (s : State) : State :=
  keepLatches s.busInUse s { State.resetOf s.cfg with
    refused := s.refused
    buf := s.buf
    done := s.done
    trace := s.trace
    host := s.hostAfterRst
    env := s.env }

/-- The host asserts RST in this step. -/
def State.rstDue (s : State) : Bool :=
  match s.host with
  | { after := 0, act := .rst } :: _ => true
  | _ => false

/-- The host's moves after a step in which the next one was not yet due. -/
def waitedMoves (moves : List HostMove) : List HostMove :=
  match moves with
  | { after := n + 1, act := a } :: rest => { after := n, act := a } :: rest
  | moves => moves

/-- A step passes before the host's next move is due. -/
def State.hostWaits (s : State) : State := { s with host := waitedMoves s.host }

/-! ## One step of the machine (R37, R38) -/

/-- The word the sequencer works on in this step: CMD while a command runs (R31), else the presented word (R29). -/
def State.currentWord (s : State) : Option Word := if s.busy then some s.cmd else s.presented

/-- One step: none from a refused state (R198); RST when the host asserts it (R230); nothing when no command runs and none
is presented (R38 "None"); else a step of the command, `run`, or of a word that is no command. -/
def stepWith (run : Instr → State → Host.Outcome State Fault Refusal) (s : State) :
    Host.Outcome State Fault Refusal :=
  if s.refused then .refused .addressDirectionBit
  else if s.rstDue then .next (rst s)
  else
    match s.currentWord with
    | none => .next s.hostWaits
    | some w =>
      match decode w with
      | .ok i => run i s.hostWaits
      | .error _ => runIllegal w s.hostWaits

/-- Put a command word at the head of the host's moves, with the block ready to accept it. -/
def State.present (s : State) (w : Word) : State :=
  { s with
    busy := false
    refused := false
    host := { after := 0, act := .command w [] } :: s.host }

end Sys2Proof.Machine
end

