-- ==== Sys2Proof/Machine/Primitives.lean ====
section
/-! DEFINITION. The procedures of the seven bus primitives (40_bus_primitives.md R100 to R107), which the primitive
commands and the Transaction Engine call. -/

namespace Sys2Proof.Machine


/-! ## The straight pieces, as the pseudocode has them -/

/-- `start` (R101). -/
def startPos : Pos :=
  .seg (.dir .out) [.sda true, .hold, .scl true, .hold, .sda false, .hold, .scl false, .hold] .ret

/-- `stop` (R102), with what follows it: a return, or wait_ack's failure. -/
def stopPos (tail : Tail) : Pos :=
  .seg (.scl false) [.hold, .dir .out, .sda false, .hold, .scl true, .hold, .sda true, .hold] tail

/-- `send_byte` from its `DIR OUT` (R103). -/
def sendPos : Pos := .seg (.dir .out) [] .sendLoop

/-- The body of send_byte's loop for one bit of SHIFT (R103). -/
def sendBitPos (bit : Level) : Pos := .seg (.sda bit) [.hold, .scl true, .hold, .scl false] .sendBit

/-- `read_byte` from its release of the data line (R104). -/
def readPos : Pos := .seg (.sda true) [.dir .inp] .readLoop

/-- The body of read_byte's loop up to its SAMPLE (R104). -/
def readBitPos : Pos := .seg (.scl false) [.hold, .scl true] .readSample

/-- `wait_ack` from its switch to input (R105). -/
def waitPos : Pos := .seg (.dir .inp) [.sda true, .scl true] .waitBegin

/-- `ack` (R106) and `nack` (R107): the acknowledge pulse with the data line at `v`. -/
def pulsePos (v : Level) : Pos :=
  .seg (.scl false) [.dir .out, .sda v, .hold, .scl true, .hold, .scl false] .ret

/-- `ack` (R106): data low. -/
def ackPos : Pos := pulsePos false

/-- `nack` (R107): data high. -/
def nackPos : Pos := pulsePos true

/-! ## Running a primitive one event at a time -/

/-- What is done after the last event of a straight piece, in that event's step: the block-register assignments up to the
next event, and the position of that event; `none` when the primitive returns. -/
def afterSeg (a : CallArgs) (t : Tail) (s : State) : State × Option Pos :=
  match t with
  | .ret => (s, none)
  | .sendLoop => ({ s with bitCnt := 7 }, some (sendBitPos (s.shift.getLsbD 7)))
  | .sendBit =>
    if s.bitCnt = 0 then (s, none)
    else ({ s with bitCnt := s.bitCnt - 1 }, some (sendBitPos (s.shift.getLsbD (s.bitCnt - 1).toNat)))
  | .readLoop => ({ s with bitCnt := 7 }, some readBitPos)
  | .readSample => (s, some .sample)
  | .readBit =>
    if s.bitCnt = 0 then (s, some (if a.sendAck then ackPos else nackPos))
    else ({ s with bitCnt := s.bitCnt - 1 }, some readBitPos)
  | .waitBegin => (s, some .tickT0)
  | .acked => ({ s with ackOk := true }, none)
  | .timedOut => ({ s with ackOk := false }, none)

/-- A line event at the head of a straight piece, then the rest of the piece. -/
def segStep (a : CallArgs) (op : LineOp) (rest : List LineOp) (t : Tail) (s : State) : State × Option Pos :=
  match rest with
  | [] => afterSeg a t (lineEvent a.bus op s)
  | op' :: rest' => (lineEvent a.bus op s, some (.seg op' rest' t))

/-- One step inside a primitive: the event at the position, what it assigns, and the next position; `none` when the
primitive returns in this step. A HOLD that has not ended leaves the position where it is (R37, R38). -/
def primStep (a : CallArgs) (p : Pos) (s : State) : State × Option Pos :=
  match p with
  | .seg .hold rest t =>
    match holdWait a.bus s with
    | some s' => (s', some p)
    | none => segStep a .hold rest t (collaboratorDone s)
  | .seg op rest t => segStep a op rest t s
  | .sample =>
    let (v, s') := sampleEvent a.bus s
    ({ s' with shift := s'.shift.extractLsb' 0 7 ++ BitVec.ofBool v }, some (.seg .hold [] .readBit))
  | .tickT0 =>
    let (t, s') := tickEvent none s
    ({ s' with t0 := t }, some .poll)
  | .poll =>
    let (v, s') := sampleEvent a.bus s
    (s', some (if acknowledged v then .seg (.scl false) [] .acked else .check))
  | .check =>
    let (t, s') := tickEvent (some (maxTickStep s.cfg.tickW a.timeout)) s
    (s', some (if timeoutReached s.cfg.tickW t s.t0 a.timeout then stopPos .timedOut else .poll))

/-! ## Calls -/

/-- Call a primitive from `site`. -/
def call (site : Site) (p : Pos) (s : State) : State := s.goto (.call site p)

/-- `call send_byte(b, v)`: `SHIFT <- v` is done in the step that reaches the call (R100, R103). -/
def callSend (site : Site) (v : Byte) (s : State) : State := call site sendPos { s with shift := v }

end Sys2Proof.Machine
end

