-- ==== Sys2Proof/Machine/Engine.lean ====
section
/-! DEFINITION. The sequencer's step on a command (R37), and the events the Transaction Engine emits outside the
primitives: the critical section (R140) and the buffer accesses (R13). A command gives its own part as a flow: what it does
when a primitive called from a place of its pseudocode returns. -/

namespace Sys2Proof.Machine

/-- `CS_ENTER(b)` (R12, R140, R211): it waits until the section is granted; then the opening start is called. -/
def csEnterStep (b : BusIx) (s : State) : State :=
  match collaboratorWait s with
  | some s' => s'
  | none => call .openStart startPos (State.emit { collaboratorDone s with csHeld := some b } (.csEnter b))

/-- `CS_EXIT(b); PHASE <- IDLE` (R12, R140): the last event of a transaction, and then its respond. -/
def csExitStep (b : BusIx) (st : Status) (s : State) : State :=
  State.goto (.respond st 0) (State.emit { s with csHeld := none, phase := .idle } (.csExit b))

/-- WRITE's loop over BYTEIDX (R142, R35): the next buffer byte, or the closing stop when BYTEIDX = LEN. -/
def writeNext (n : BitVec 16) (s : State) : State :=
  if s.byteIdx = n then call .closeStop (stopPos .ret) s else s.goto .bufRd

/-- The loop over BYTEIDX of READ and READ_SEQ (R143, R144, R35). -/
def readNext (n : BitVec 16) (s : State) : State :=
  if s.byteIdx = n then call .closeStop (stopPos .ret) s else call .readData readPos s

/-- `v <- MemRead(BYTEIDX, 1); PHASE <- DATA_PHASE; call send_byte(b, v)` (R142). -/
def bufRdStep (n : BitVec 16) (s : State) : Option State :=
  if s.byteIdx.toNat < n.toNat then
    let v := Memory.read s.buf s.byteIdx.toNat
    some (callSend .sendData v ((s.emit (.bufRd s.byteIdx v)).setPhase .dataPhase))
  else none

/-- `MemWrite(BYTEIDX, 1, r)`, where SHIFT holds r, then the loop's next round (R143, R144). -/
def bufWrStep (n : BitVec 16) (s : State) : Option State :=
  if s.byteIdx.toNat < n.toNat then
    let s1 := State.emit { s with buf := Memory.write s.buf s.byteIdx.toNat s.shift } (.bufWr s.byteIdx s.shift)
    some (readNext n { s1 with byteIdx := s1.byteIdx + 1 })
  else none

/-- What PHASE is after an event inside a primitive called from `site`: DATA_PHASE from the first event of a data read_byte
on (R146), else unchanged. -/
def phaseInside (site : Site) (s : State) : State :=
  match site with
  | .readData => s.setPhase .dataPhase
  | _ => s

/-- A step inside a primitive; when it returns, the command's flow goes on in the same step (R37). -/
def callStep (a : CallArgs) (flow : Site → State → Option State) (site : Site) (p : Pos) (s : State) :
    Option State :=
  match primStep a p s with
  | (s', some p') => some (call site p' (phaseInside site s'))
  | (s', none) => flow site (phaseInside site s')

/-- A next state, or the fault named. -/
def orFault (f : Fault) (r : Option State) : Host.Outcome State Fault Refusal :=
  match r with
  | some s => .next s
  | none => .fault f

/-- An event step or the respond step of a running command (R37). -/
def runBusy (a : CallArgs) (flow : Site → State → Option State) (s : State) : Host.Outcome State Fault Refusal :=
  match s.ctrl with
  | .idle => .fault .noControlPoint
  | .csEnter => .next (csEnterStep a.bus s)
  | .call site p => orFault .noControlPoint (callStep a flow site p s)
  | .bufRd => orFault .bufferIndex (bufRdStep a.len s)
  | .bufWr => orFault .bufferIndex (bufWrStep a.len s)
  | .csExit st => .next (csExitStep a.bus st s)
  | .respond st rd => .next (respond a.len.toNat st rd s)

/-- A step of command `i`: the accept when no command runs, else the running command's next event or respond. `first` says
what the accept step reaches, `flow` what follows each call. -/
def runCommand (i : Instr) (a : CallArgs) (first : State → State) (flow : Site → State → Option State)
    (s : State) : Host.Outcome State Fault Refusal :=
  if s.refused then .refused .addressDirectionBit
  else if s.busy then runBusy a flow s
  else .next (accept i first s)

/-- A step of a command that has no event: its assignment is done in the respond step (log entry 9). -/
def runConfigure (i : Instr) (effect : State → State) (s : State) : Host.Outcome State Fault Refusal :=
  if s.refused then .refused .addressDirectionBit
  else if s.busy then
    match s.ctrl with
    | .respond .ok rd => .next (respond 0 .ok rd (effect s))
    | .respond st rd => .next (respond 0 st rd s)
    | _ => .fault .noControlPoint
  else .next (accept i (State.goto (.respond .ok 0)) s)

/-! ## What the transactions share (R140, R145) -/

/-- Leave the transaction: CS_EXIT, then respond `st`. -/
def leave (st : Status) (s : State) : State := s.goto (.csExit st)

/-- `ABORT(b)` (R145): PHASE is ABORTED, the engine's stop under `ENGINE_ABORT_STOP`, then CS_EXIT and FAIL. -/
def abort (s : State) : State :=
  if s.cfg.engineAbortStop then call .abortStop (stopPos .ret) (s.setPhase .aborted)
  else leave .fail (s.setPhase .aborted)

/-- After a wait_ack: go on when it succeeded, else abort (R142 to R145). -/
def unlessAborted (next : State → State) (s : State) : State := if s.ackOk then next s else abort s

/-- After the closing stop (R141 to R144): PHASE is STOPPED, then CS_EXIT and OK. -/
def closeOk (s : State) : State := leave .ok (s.setPhase .stopped)

/-- After the opening start (R140, R146): PHASE is STARTED and the first address byte is sent. -/
def sendAddress (site : Site) (v : Byte) (s : State) : State := callSend site v (s.setPhase .started)

end Sys2Proof.Machine
end

