-- ==== Sys2Proof/Machine/Lifecycle.lean ====
section
/-! DEFINITION. The two configuration commands (42_configuration.md R180, R181). Neither emits an event. -/

namespace Sys2Proof.Machine

/-- `for b = 0 to N_BUS-1: bit_delay_us[b] <- 0` (R180). -/
def clearDelays (s : State) : State := { s with buses := mapBuses (fun x => { x with bitDelayUs := 0 }) s.buses }

/-- `bit_delay_us[b] <- d` (R181). -/
def setBitDelay (b : BusIx) (d : BitVec 32) (s : State) : State := s.setBus b { s.bus b with bitDelayUs := d }

/-- INIT (R180). -/
def execInit (s : State) : Host.Outcome State Fault Refusal := runConfigure .init clearDelays s

/-- SET_DELAY (R181). -/
def execSetDelay (b : BusIx) (d : BitVec 32) (s : State) : Host.Outcome State Fault Refusal :=
  runConfigure (.setDelay b d) (setBitDelay b d) s

end Sys2Proof.Machine
end

