-- ==== Sys2Proof/Machine/PrimitiveCommands.lean ====
section
/-! DEFINITION. The primitive commands, OP 0x8 to 0xE: each calls its primitive and responds (R100 to R107, R111). They
take no critical section, leave PHASE alone and reach no buffer. -/

namespace Sys2Proof.Machine

/-- The flow of a primitive command: when its one call returns, it responds what `answer` says. -/
def respondAfter (answer : State → Ctrl) (site : Site) (s : State) : Option State :=
  match site with
  | .command => some (s.goto (answer s))
  | _ => none

/-- START (R101): `call start(b); respond(OK, 0)`. -/
def execStart (b : BusIx) (s : State) : Host.Outcome State Fault Refusal :=
  runCommand (.start b) { bus := b } (call .command startPos) (respondAfter fun _ => .respond .ok 0) s

/-- STOP (R102): `call stop(b); respond(OK, 0)`. -/
def execStop (b : BusIx) (s : State) : Host.Outcome State Fault Refusal :=
  runCommand (.stop b) { bus := b } (call .command (stopPos .ret)) (respondAfter fun _ => .respond .ok 0) s

/-- SEND_BYTE (R103): `call send_byte(b, DATA); respond(OK, 0)`. -/
def execSendByte (b : BusIx) (v : Byte) (s : State) : Host.Outcome State Fault Refusal :=
  runCommand (.sendByte b v) { bus := b } (callSend .command v) (respondAfter fun _ => .respond .ok 0) s

/-- READ_BYTE (R104): `r <- read_byte(b, ACKF); respond(OK, r)`. -/
def execReadByte (b : BusIx) (sendAck : Bool) (s : State) : Host.Outcome State Fault Refusal :=
  runCommand (.readByte b sendAck) { bus := b, sendAck := sendAck } (call .command readPos)
    (respondAfter fun t => .respond .ok t.shift) s

/-- WAIT_ACK (R105): `call wait_ack(b, TIMEOUT); respond(ACKOK = 1 ? OK : FAIL, 0)`. -/
def execWaitAck (b : BusIx) (timeout : BitVec 16) (s : State) : Host.Outcome State Fault Refusal :=
  runCommand (.waitAck b timeout) { bus := b, timeout := timeout } (call .command waitPos)
    (respondAfter fun t => .respond (waitStatus t.ackOk) 0) s

/-- ACK (R106): `call ack(b); respond(OK, 0)`. -/
def execAck (b : BusIx) (s : State) : Host.Outcome State Fault Refusal :=
  runCommand (.ack b) { bus := b } (call .command ackPos) (respondAfter fun _ => .respond .ok 0) s

/-- NACK (R107): `call nack(b); respond(OK, 0)`. -/
def execNack (b : BusIx) (s : State) : Host.Outcome State Fault Refusal :=
  runCommand (.nack b) { bus := b } (call .command nackPos) (respondAfter fun _ => .respond .ok 0) s

end Sys2Proof.Machine
end

