-- ==== Sys2Proof/Machine/Transactions.lean ====
section
/-! DEFINITION. The four transactions, OP 0x3 to 0x6 (41_transactions.md R140 to R149). A flow says what the pseudocode does
after each call; PHASE is written in the step of the event before it (R146). -/

namespace Sys2Proof.Machine

/-- PROBE's flow (R141). It stops the bus on failure whatever `ENGINE_ABORT_STOP` is. -/
def probeFlow (a8 : Byte) (site : Site) (s : State) : Option State :=
  match site with
  | .openStart => some (sendAddress .sendAddrW (addrW a8) s)
  | .sendAddrW => some (call .waitAddrW waitPos s)
  | .waitAddrW =>
    if s.ackOk then some (call .closeStop (stopPos .ret) (s.setPhase .addressSent))
    else some (call .abortStop (stopPos .ret) (s.setPhase .aborted))
  | .closeStop => some (closeOk s)
  | .abortStop => some (leave .fail s)
  | _ => none

/-- PROBE (R141). -/
def execProbe (b : BusIx) (a8 : Byte) (timeout : BitVec 16) (s : State) : Host.Outcome State Fault Refusal :=
  runCommand (.probe b a8 timeout) { bus := b, timeout := timeout } (State.goto .csEnter) (probeFlow a8) s

/-- WRITE's flow (R142). -/
def writeFlow (a8 reg : Byte) (n : BitVec 16) (site : Site) (s : State) : Option State :=
  match site with
  | .openStart => some (sendAddress .sendAddrW (addrW a8) s)
  | .sendAddrW => some (call .waitAddrW waitPos s)
  | .waitAddrW => some (unlessAborted (fun t => callSend .sendReg reg (t.setPhase .addressSent)) s)
  | .sendReg => some (call .waitReg waitPos s)
  | .waitReg => some (unlessAborted (fun t => writeNext n { t.setPhase .registerSent with byteIdx := 0 }) s)
  | .sendData => some (call .waitData waitPos s)
  | .waitData => some (unlessAborted (fun t => writeNext n { t with byteIdx := t.byteIdx + 1 }) s)
  | .closeStop => some (closeOk s)
  | .abortStop => some (leave .fail s)
  | _ => none

/-- WRITE (R142). -/
def execWrite (b : BusIx) (a8 reg : Byte) (n timeout : BitVec 16) (s : State) :
    Host.Outcome State Fault Refusal :=
  runCommand (.write b a8 reg n timeout) { bus := b, timeout := timeout, len := n } (State.goto .csEnter)
    (writeFlow a8 reg n) s

/-- READ's flow (R143): the write phase of address and register, the repeated start, the read address, the data loop. -/
def readFlow (a8 reg : Byte) (n : BitVec 16) (site : Site) (s : State) : Option State :=
  match site with
  | .openStart => some (sendAddress .sendAddrW (addrW a8) s)
  | .sendAddrW => some (call .waitAddrW waitPos s)
  | .waitAddrW => some (unlessAborted (fun t => callSend .sendReg reg (t.setPhase .addressSent)) s)
  | .sendReg => some (call .waitReg waitPos s)
  | .waitReg => some (unlessAborted (fun t => call .repeatStart startPos (t.setPhase .registerSent)) s)
  | .repeatStart => some (callSend .sendAddrR (addrR a8) (s.setPhase .restarted))
  | .sendAddrR => some (call .waitAddrR waitPos s)
  | .waitAddrR => some (unlessAborted (fun t => readNext n { t.setPhase .readAddressSent with byteIdx := 0 }) s)
  | .readData => some (s.goto .bufWr)
  | .closeStop => some (closeOk s)
  | .abortStop => some (leave .fail s)
  | _ => none

/-- READ (R143). Byte k is acknowledged unless it is the last (R149). -/
def execRead (b : BusIx) (a8 reg : Byte) (n timeout : BitVec 16) (s : State) :
    Host.Outcome State Fault Refusal :=
  runCommand (.read b a8 reg n timeout)
    { bus := b, timeout := timeout, sendAck := moreBytes s.byteIdx n, len := n } (State.goto .csEnter)
    (readFlow a8 reg n) s

/-- READ_SEQ's flow (R144): as READ's without the register phase and the repeated start. -/
def readSeqFlow (a8 : Byte) (n : BitVec 16) (site : Site) (s : State) : Option State :=
  match site with
  | .openStart => some (sendAddress .sendAddrR (addrR a8) s)
  | .sendAddrR => some (call .waitAddrR waitPos s)
  | .waitAddrR => some (unlessAborted (fun t => readNext n { t.setPhase .addressSent with byteIdx := 0 }) s)
  | .readData => some (s.goto .bufWr)
  | .closeStop => some (closeOk s)
  | .abortStop => some (leave .fail s)
  | _ => none

/-- READ_SEQ (R144). -/
def execReadSeq (b : BusIx) (a8 : Byte) (n timeout : BitVec 16) (s : State) :
    Host.Outcome State Fault Refusal :=
  runCommand (.readSeq b a8 n timeout)
    { bus := b, timeout := timeout, sendAck := moreBytes s.byteIdx n, len := n } (State.goto .csEnter)
    (readSeqFlow a8 n) s

end Sys2Proof.Machine
end

