-- ==== Sys2Proof/Machine/Dispatch.lean ====
section
/-! DEFINITION. One step of each command. -/

namespace Sys2Proof.Machine

def exec (i : Instr) (s : State) : Host.Outcome State Fault Refusal :=
  match i with
  | .init => Sys2Proof.Machine.execInit s
  | .setDelay b d => Sys2Proof.Machine.execSetDelay b d s
  | .probe b a t => Sys2Proof.Machine.execProbe b a t s
  | .write b a r n t => Sys2Proof.Machine.execWrite b a r n t s
  | .read b a r n t => Sys2Proof.Machine.execRead b a r n t s
  | .readSeq b a n t => Sys2Proof.Machine.execReadSeq b a n t s
  | .start b => Sys2Proof.Machine.execStart b s
  | .stop b => Sys2Proof.Machine.execStop b s
  | .sendByte b v => Sys2Proof.Machine.execSendByte b v s
  | .readByte b k => Sys2Proof.Machine.execReadByte b k s
  | .waitAck b t => Sys2Proof.Machine.execWaitAck b t s
  | .ack b => Sys2Proof.Machine.execAck b s
  | .nack b => Sys2Proof.Machine.execNack b s

end Sys2Proof.Machine
end

