-- ==== Sys2Proof/Machine/Step.lean ====
section
/-! DEFINITION. The machine's step, and the command word put where the next step takes it. -/

namespace Sys2Proof.Machine

/-- One step of the machine (R37, R38). -/
def step (s : State) : Host.Outcome State Fault Refusal := stepWith exec s

/-- `s` with the host presenting the word whose low `nbits` bits are `w`, so that the very next step accepts it: BUSY and
REFUSED are 0 and the word is the host's next move, with no buffer bytes (log entry 5). -/
def State.withFetchWord (s : State) (nbits w : Nat) : State := s.present (tableWord nbits w)

end Sys2Proof.Machine
end

