-- ==== Sys2Proof/WellFormed.lean ====
section
/-! DEFINITION. When a command may be issued: its bus exists (R81) and its address byte leaves the direction bit clear
(R74, R197). -/

namespace Sys2Proof

/-- R81: every command but INIT names a bus below `N_BUS`. INIT acts on all buses and names none. -/
def Instr.busExists (c : Config) (i : Instr) : Bool :=
  match i with
  | .init => true
  | i => decide (i.bus.toNat < c.nBus)

/-- R74: bit 0 of a transaction's address byte is clear. -/
def Instr.directionClear (i : Instr) : Bool :=
  match i.address with
  | some a => !a.getLsbD 0
  | none => true

/-- The command is legal (R79 to R81) and admitted (R197). -/
def Instr.wellFormed (c : Config) (i : Instr) : Bool := i.busExists c && i.directionClear

end Sys2Proof
end

