-- ==== Sys2Proof/Safety.lean ====
section
/-! DEFINITION. The terms of the claims: running one command to its respond, the events the spec writes for each primitive,
and the invariants of the machine. -/

namespace Sys2Proof.Machine

/-! ## Running one command -/

/-- `k` steps of the sequencer on command `i`. -/
def execFor (i : Instr) (k : Nat) (s : State) : Host.Outcome State Fault Refusal :=
  match k with
  | 0 => .next s
  | k + 1 =>
    match exec i s with
    | .next s' => execFor i k s'
    | .fault f => .fault f
    | .refused r => .refused r

/-- The block is ready for a command (R29) and no command has been refused (R198). -/
abbrev Ready (s : State) : Prop := s.refused = false ∧ s.busy = false

/-- A command is running (R29) and no command has been refused. -/
abbrev Running (s : State) : Prop := s.refused = false ∧ s.busy = true

/-- The state in which command `i`, one that has no buffer, has completed with response `(st, rd)`, having emitted `events`:
CMD, RESP, BUSY and the record of the run are written, all else is as in `s`. -/
def completed (i : Instr) (st : Status) (rd : Byte) (events : List Event) (s : State) : State :=
  { s with
    busy := false
    cmd := encode i
    resp := respWord st rd
    ctrl := .idle
    done := { word := encode i, resp := respWord st rd, buf := [] } :: s.done
    trace := .resp (respWord st rd) :: (events.reverse ++ s.trace)
    host := s.hostAfterAccept }

/-- Bus `b`'s three latches at these values, all else as in `s`. -/
def withLines (b : BusIx) (scl : Level) (d : Dir) (sda : Level) (s : State) : State :=
  s.setBus b { s.bus b with sclOut := some scl, sdaDir := some d, sdaOut := some sda }

/-- The waits of `n` HOLDs and CS_ENTERs are over. -/
def afterWaits (n : Nat) (s : State) : State := { s with env := { s.env with waits := s.env.waits.drop n } }

/-- The next `n` SAMPLE answers, first one first, and what is left. -/
def drawSamples (n : Nat) (e : Env) : List Level × Env :=
  match n with
  | 0 => ([], e)
  | n + 1 => ((nextSample e).1 :: (drawSamples n (nextSample e).2).1, (drawSamples n (nextSample e).2).2)

/-- The byte whose bits, most significant first, are these (R55). -/
def byteOfBits (bits : List Level) : Byte := bits.foldl (fun acc v => acc.extractLsb' 0 7 ++ BitVec.ofBool v) 0

/-- The bits of a byte, most significant first (R54). -/
def bitsOfByte (v : Byte) : List Level := [7, 6, 5, 4, 3, 2, 1, 0].map fun k => v.getLsbD k

/-! ## The events of each primitive, first one first, with `d` the bus's delay (40_bus_primitives.md) -/

/-- start (R101). -/
def startEvents (b : BusIx) (d : BitVec 32) : List Event :=
  [.dir b .out, .sda b true, .hold b d, .scl b true, .hold b d, .sda b false, .hold b d, .scl b false, .hold b d]

/-- stop (R102). -/
def stopEvents (b : BusIx) (d : BitVec 32) : List Event :=
  [.scl b false, .hold b d, .dir b .out, .sda b false, .hold b d, .scl b true, .hold b d, .sda b true, .hold b d]

/-- send_byte (R103): MSB first. -/
def sendEvents (b : BusIx) (d : BitVec 32) (v : Byte) : List Event :=
  .dir b .out ::
    (bitsOfByte v).flatMap fun x => [.sda b x, .hold b d, .scl b true, .hold b d, .scl b false]

/-- ack (R106) with `v` 0, nack (R107) with `v` 1. -/
def pulseEvents (b : BusIx) (d : BitVec 32) (v : Level) : List Event :=
  [.scl b false, .dir b .out, .sda b v, .hold b d, .scl b true, .hold b d, .scl b false]

/-- read_byte (R104) with these sample answers, and its acknowledge pulse. -/
def readEvents (b : BusIx) (d : BitVec 32) (samples : List Level) (sendAck : Bool) : List Event :=
  [.sda b true, .dir b .inp] ++
    (samples.flatMap fun x => [.scl b false, .hold b d, .scl b true, .sample b x, .hold b d]) ++
    pulseEvents b d (!sendAck)

/-- wait_ack (R105) up to and with its first TICK, which gives T0. -/
def waitHead (b : BusIx) (t0 : Nat) : List Event := [.dir b .inp, .sda b true, .scl b true, .tick t0]

/-- wait_ack's polls that see no acknowledge (R105), each with the answer of its time check. -/
def pollEvents (b : BusIx) (checks : List Nat) : List Event := checks.flatMap fun t => [.sample b true, .tick t]

/-- wait_ack (R105) acknowledged after these polls. -/
def waitOkAfter (b : BusIx) (t0 : Nat) (checks : List Nat) : List Event :=
  waitHead b t0 ++ pollEvents b checks ++ [.sample b false, .scl b false]

/-- wait_ack (R105) acknowledged at its first SAMPLE. -/
def waitOkEvents (b : BusIx) (t0 : Nat) : List Event := waitOkAfter b t0 []

/-- wait_ack (R105) timed out at the last of these polls. -/
def waitFailEvents (b : BusIx) (d : BitVec 32) (t0 : Nat) (checks : List Nat) : List Event :=
  waitHead b t0 ++ pollEvents b checks ++ stopEvents b d

/-- The answers of TICKs by which the counter U, at `u` before them, grows by `ds` (R209). -/
def tickValues (tickW u : Nat) (ds : List Nat) : List Nat :=
  match ds with
  | [] => []
  | d :: rest => (u + d) % 2 ^ tickW :: tickValues tickW (u + d) rest

/-- With `e` ticks elapsed since T0, time checks between which U grows by `ds` see the timeout reached at the last of them and
not before (R105), each increase within law 2 of R209. -/
def timesOut (tickW timeout e : Nat) (ds : List Nat) : Bool :=
  match ds with
  | [] => false
  | d :: [] => decide (d ≤ 2 ^ tickW - timeout) && decide (timeout ≤ e + d)
  | d :: rest => decide (d ≤ 2 ^ tickW - timeout) && decide (e + d < timeout) && timesOut tickW timeout (e + d) rest

/-- Parts of a transaction that end each in a wait_ack acknowledged at its first SAMPLE, with the answers of the waits'
TICKs. -/
def ackedEvents (b : BusIx) (parts : List (List Event)) (ticks : List Nat) : List Event :=
  match parts, ticks with
  | p :: ps, t :: ts => p ++ waitOkEvents b t ++ ackedEvents b ps ts
  | _, _ => []

/-- WRITE's data loop (R142) from index `k` on: each byte is read from the buffer just before it is sent. -/
def dataParts (b : BusIx) (d : BitVec 32) (k : Nat) (bytes : List Byte) : List (List Event) :=
  match bytes with
  | [] => []
  | v :: rest => (.bufRd (BitVec.ofNat 16 k) v :: sendEvents b d v) :: dataParts b d (k + 1) rest

/-- WRITE's parts (R142): address, register, data. -/
def writeParts (b : BusIx) (d : BitVec 32) (a8 reg : Byte) (bytes : List Byte) : List (List Event) :=
  sendEvents b d a8 :: sendEvents b d reg :: dataParts b d 0 bytes

/-- READ's parts before its data loop (R143): address, register, and the repeated start with the read address. -/
def readParts (b : BusIx) (d : BitVec 32) (a8 reg : Byte) : List (List Event) :=
  [sendEvents b d a8, sendEvents b d reg, startEvents b d ++ sendEvents b d (a8 ||| 1)]

/-- The engine's own stop after a failed wait (R145). -/
def abortEvents (c : Config) (b : BusIx) (d : BitVec 32) : List Event := if c.engineAbortStop then stopEvents b d else []

/-- The data loop of READ and READ_SEQ (R143, R144, R149) from index `k` on: every byte but the last is acknowledged. -/
def readDataEvents (b : BusIx) (d : BitVec 32) (k : Nat) (bytes : List Byte) : List Event :=
  match bytes with
  | [] => []
  | v :: rest =>
    readEvents b d (bitsOfByte v) (!rest.isEmpty) ++
      (.bufWr (BitVec.ofNat 16 k) v :: readDataEvents b d (k + 1) rest)

/-- The `n` bytes of the buffer that comes with the presented command; one the host did not give is 0 (log entry 4). -/
def presentedBytes (s : State) (n : Nat) : List Byte :=
  (List.range n).map fun k => s.presentedData.getD k Memory.unlisted

/-- Command `i`, accepted in state `s`, has completed in state `t` with response `(st, rd)`, and what no command touches is
untouched: the parameters, the other buses, the bus's own delay. -/
structure CommandDone (i : Instr) (st : Status) (rd : Byte) (s t : State) : Prop where
  busy : t.busy = false
  refused : t.refused = false
  ctrl : t.ctrl = .idle
  cmd : t.cmd = encode i
  resp : t.resp = respWord st rd
  done : t.done = { word := encode i, resp := respWord st rd, buf := if hasBuffer i then t.buf else [] } :: s.done
  host : t.host = s.hostAfterAccept
  cfg : t.cfg = s.cfg
  delay : (t.bus i.bus).bitDelayUs = (s.bus i.bus).bitDelayUs
  otherBuses : ∀ c, c ≠ i.bus → t.bus c = s.bus c

/-- How many events a trace holds; responses are no events (R16). -/
def eventCount (tr : List Event) : Nat :=
  (tr.filter fun e => match e with
    | .resp _ => false
    | _ => true).length

/-! ## The control points of each command -/

/-- A transaction (R140). -/
def Instr.isTransaction (i : Instr) : Bool := i.address.isSome

/-- The places of a command's pseudocode that call a primitive. -/
def sites (i : Instr) : List Site :=
  match i with
  | .init => []
  | .setDelay _ _ => []
  | .probe _ _ _ => [.openStart, .sendAddrW, .waitAddrW, .closeStop, .abortStop]
  | .write _ _ _ _ _ =>
    [.openStart, .sendAddrW, .waitAddrW, .sendReg, .waitReg, .sendData, .waitData, .closeStop, .abortStop]
  | .read _ _ _ _ _ =>
    [.openStart, .sendAddrW, .waitAddrW, .sendReg, .waitReg, .repeatStart, .sendAddrR, .waitAddrR, .readData,
     .closeStop, .abortStop]
  | .readSeq _ _ _ _ => [.openStart, .sendAddrR, .waitAddrR, .readData, .closeStop, .abortStop]
  | .start _ => [.command]
  | .stop _ => [.command]
  | .sendByte _ _ => [.command]
  | .readByte _ _ => [.command]
  | .waitAck _ _ => [.command]
  | .ack _ => [.command]
  | .nack _ => [.command]

/-- The commands that can respond FAIL (R191). -/
def canFail (i : Instr) : Bool :=
  match i with
  | .init => false
  | .setDelay _ _ => false
  | .probe _ _ _ => true
  | .write _ _ _ _ _ => true
  | .read _ _ _ _ _ => true
  | .readSeq _ _ _ _ => true
  | .start _ => false
  | .stop _ => false
  | .sendByte _ _ => false
  | .readByte _ _ => false
  | .waitAck _ _ => true
  | .ack _ => false
  | .nack _ => false

/-- READ_BYTE, the one command whose response has data (R76). -/
def hasData (i : Instr) : Bool :=
  match i with
  | .readByte _ _ => true
  | _ => false

/-- WRITE, the one command that reads its buffer (R51). -/
def readsBuffer (i : Instr) : Bool :=
  match i with
  | .write _ _ _ _ _ => true
  | _ => false

/-- READ and READ_SEQ, the commands that write their buffer (R51). -/
def writesBuffer (i : Instr) : Bool :=
  match i with
  | .read _ _ _ _ _ => true
  | .readSeq _ _ _ _ => true
  | _ => false

/-- `n` TICKs in turn, the k-th with the limit `limits k`. -/
def ticksTaken (limits : Nat → Option Nat) (n : Nat) (s : State) : State :=
  match n with
  | 0 => s
  | n + 1 => (tickEvent (limits n) (ticksTaken limits n s)).2

/-- The places inside the loop over BYTEIDX. -/
def Site.inDataLoop (site : Site) : Bool := site = .sendData || site = .waitData || site = .readData

/-- Of the piece that opens a read_byte only its two positions are reached. -/
def Pos.opensRead (p : Pos) : Bool :=
  match p with
  | .seg op rest .readLoop => decide ((op = .sda true ∧ rest = [.dir .inp]) ∨ (op = .dir .inp ∧ rest = []))
  | _ => true

/-- Control point `c` is a position of command `i`, with BYTEIDX at `k` (R13, R22, R76, R191, R195). -/
def ctrlOk (nBus : Nat) (i : Instr) (k : BitVec 16) (c : Ctrl) : Bool :=
  match c with
  | .idle => false
  | .csEnter => Instr.isTransaction i && busInRange nBus i
  | .call site pos =>
    decide (site ∈ sites i) && pos.opensRead && (!site.inDataLoop || decide (k.toNat < bufferLen i)) && busInRange nBus i
  | .bufRd => readsBuffer i && decide (k.toNat < bufferLen i) && busInRange nBus i
  | .bufWr => writesBuffer i && decide (k.toNat < bufferLen i) && busInRange nBus i
  | .csExit st => Instr.isTransaction i && decide (st ≠ .illegal) && busInRange nBus i
  | .respond st rd =>
    (decide (st = .illegal) == !busInRange nBus i) && (!decide (st = .fail) || canFail i)
      && (decide (rd = 0) || hasData i)

/-- The critical section held at a control point (R32, R153): the transaction's bus between CS_ENTER and CS_EXIT. -/
def heldAt (i : Instr) (c : Ctrl) : Option BusIx :=
  match c with
  | .call .command _ => none
  | .call _ _ => some i.bus
  | .bufRd => some i.bus
  | .bufWr => some i.bus
  | .csExit _ => some i.bus
  | _ => none

/-- PHASE when the data loop of a command is reached (R146). -/
def phaseBeforeData (i : Instr) : Phase :=
  match i with
  | .write _ _ _ _ _ => .registerSent
  | .read _ _ _ _ _ => .readAddressSent
  | _ => .addressSent

/-- PHASE while a command sends or awaits its read-address byte (R146). -/
def phaseOfAddrR (i : Instr) : Phase :=
  match i with
  | .readSeq _ _ _ _ => .started
  | _ => .restarted

/-- The transition table of R146, read at each control point: what PHASE is there, with BYTEIDX at `k`. -/
def phaseOk (i : Instr) (k : BitVec 16) (c : Ctrl) (p : Phase) : Bool :=
  match c with
  | .idle => decide (p = .idle)
  | .csEnter => decide (p = .idle)
  | .call .command _ => decide (p = .idle)
  | .call .openStart _ => decide (p = .idle)
  | .call .sendAddrW _ => decide (p = .started)
  | .call .waitAddrW _ => decide (p = .started)
  | .call .sendReg _ => decide (p = .addressSent)
  | .call .waitReg _ => decide (p = .addressSent)
  | .call .repeatStart _ => decide (p = .registerSent)
  | .call .sendAddrR _ => decide (p = phaseOfAddrR i)
  | .call .waitAddrR _ => decide (p = phaseOfAddrR i)
  | .call .sendData _ => decide (p = .dataPhase)
  | .call .waitData _ => decide (p = .dataPhase)
  | .call .readData pos => decide (p = if k = 0 ∧ pos = readPos then phaseBeforeData i else .dataPhase)
  | .call .closeStop _ => decide (p = if bufferLen i = 0 then phaseBeforeData i else .dataPhase)
  | .call .abortStop _ => decide (p = .aborted)
  | .bufRd => decide (p = if k = 0 then phaseBeforeData i else .dataPhase)
  | .bufWr => decide (p = .dataPhase)
  | .csExit st => decide (p = if st = .ok then .stopped else .aborted)
  | .respond _ _ => decide (p = .idle)

/-! ## The invariants -/

/-- What holds while the word in CMD runs. -/
def runningOk (s : State) : Prop :=
  match decode s.cmd with
  | .ok i =>
    ctrlOk s.cfg.nBus i s.byteIdx s.ctrl = true ∧ phaseOk i s.byteIdx s.ctrl s.phase = true
      ∧ s.csHeld = heldAt i s.ctrl
  | .error _ => s.ctrl = .respond .illegal 0 ∧ s.phase = .idle ∧ s.csHeld = none

/-- The invariant of the machine. -/
structure Inv (s : State) : Prop where
  /-- The parameters are in their bounds (R5). -/
  cfg : s.cfg.wf
  /-- The buffer has its canonical form. -/
  buf : Memory.wf s.buf = true
  /-- T0 is a `TICK_W`-bit value (R36). -/
  t0 : s.t0 < 2 ^ s.cfg.tickW
  /-- RESP's reserved bits 7:2 are 0 (R76). -/
  resp : s.resp.extractLsb' 2 6 = 0
  /-- Between commands: no control point, PHASE idle, no critical section (R46). -/
  idle : s.busy = false → s.ctrl = .idle ∧ s.phase = .idle ∧ s.csHeld = none ∧ s.refused = false
  /-- While a command runs: the control point is one of its positions, PHASE and CS_HELD are what they are there. -/
  running : s.busy = true → s.refused = false → runningOk s
  /-- After a refusal: no control point, PHASE idle, no critical section (R198). -/
  refused : s.refused = true → s.ctrl = .idle ∧ s.phase = .idle ∧ s.csHeld = none

/-! ## The lines -/

/-- A bus's latches after one line event (R24). -/
def latchAfter (op : LineOp) (x : Bus) : Bus :=
  match op with
  | .dir d => { x with sdaDir := some d }
  | .sda v => { x with sdaOut := some v }
  | .scl v => { x with sclOut := some v }
  | .hold => x

/-- A bus's latches after a list of line events. -/
def latchesAfter (ops : List LineOp) (x : Bus) : Bus := ops.foldl (fun x op => latchAfter op x) x

/-- A position at which the data line is input: every SAMPLE is taken at such a position (R239). -/
def Pos.input (p : Pos) : Bool :=
  match p with
  | .seg op _ .waitBegin => decide (op ≠ .dir .inp)
  | .seg _ _ .readSample => true
  | .seg _ _ .readBit => true
  | .seg _ _ _ => false
  | _ => true

/-- A piece of wait_ack or read_byte never sets the direction but where it switches to input. -/
def Pos.straight (p : Pos) : Bool :=
  match p with
  | .seg op rest .waitBegin =>
    (op == .dir .inp || op == .sda true || op == .scl true) && rest.all fun op => op == .sda true || op == .scl true
  | .seg op rest .readSample => (op :: rest).all fun op => op == .scl false || op == .hold || op == .scl true
  | .seg op rest .readBit => decide (op = .hold) && rest.isEmpty
  | _ => p.opensRead

/-- The positions of the primitive a site calls, where the claims need them. -/
def Site.fits (site : Site) (p : Pos) : Bool :=
  match site with
  | .waitAddrW | .waitReg | .waitAddrR | .waitData =>
    match p with
    | .seg _ _ t => t = .waitBegin || t = .acked || t = .timedOut
    | .sample => false
    | _ => true
  | .closeStop | .abortStop =>
    match p with
    | .seg _ _ t => t = .ret
    | _ => false
  | _ => true

/-- The rest of a stop leaves the bus idle-high (R102, R28): the stop a wait_ack issues, and the transaction's own. -/
def stopsIdleHigh (site : Site) (p : Pos) (x : Bus) : Prop :=
  match p with
  | .seg op rest t => t = .timedOut ∨ site = .closeStop ∨ site = .abortStop → (latchesAfter (op :: rest) x).idleHigh
  | _ => True

/-- The invariant of the running command's bus `b` (R147, R239). -/
def linesOk (b : BusIx) (s : State) : Prop :=
  match s.ctrl with
  | .call site p =>
    p.straight = true ∧ site.fits p = true ∧ (p.input = true → (s.bus b).sdaDir = some .inp)
      ∧ stopsIdleHigh site p (s.bus b)
  | .csExit _ => (s.bus b).idleHigh
  | _ => True

/-- While a command runs, its bus's latches are as its control point needs them. -/
def LineInv (s : State) : Prop := Running s → ∀ i, decode s.cmd = .ok i → linesOk i.bus s

end Sys2Proof.Machine
end

