-- ==== Sys2Proof/Certificates/Slice0/Obligations.lean ====
section
/-! DEFINITION. The statements for the provers. Each docstring names the rule of spec/ it formalises. -/

open Sys2Proof Sys2Proof.Machine

/-! ## Encoding -/

/-- R71, R77, R78: the decoder reads back every command from its word, with every operand at every value. -/
def Obligations.EncodeThenDecodeGivesTheCommand : Prop := ∀ i : Instr, decode (encode i) = .ok i

/-- R78, R80: no bit of a word is dropped by the decoder, since every bit an opcode does not use must be zero. -/
def Obligations.DecodedWordIsTheCommandsWord : Prop := ∀ (w : Word) (i : Instr), decode w = .ok i → encode i = w

/-- R78, its table row by row: a word selects an opcode exactly when it agrees with MATCH under MASK, and no two rows
match the same word. -/
def Obligations.WordSelectsOpcodeByMaskAndMatch : Prop :=
  let table : List (BitVec 4 × Word × Word) :=
    [(0x1, 0x0000000000000001, 0xFFFFFFFFFFFFFFFF), (0x2, 0x0000000000000002, 0x00000000FFFFFF0F),
     (0x3, 0x0000000000000003, 0x0000FFFFFFFF000F), (0x4, 0x0000000000000004, 0x00000000FF00000F),
     (0x5, 0x0000000000000005, 0x00000000FF00000F), (0x6, 0x0000000000000006, 0x00000000FFFF000F),
     (0x8, 0x0000000000000008, 0xFFFFFFFFFFFFFF0F), (0x9, 0x0000000000000009, 0xFFFFFFFFFFFFFF0F),
     (0xA, 0x000000000000000A, 0xFFFFFFFFFFFF000F), (0xB, 0x000000000000000B, 0xFFFFFFFFFEFFFF0F),
     (0xC, 0x000000000000000C, 0x0000FFFFFFFFFF0F), (0xD, 0x000000000000000D, 0xFFFFFFFFFFFFFF0F),
     (0xE, 0x000000000000000E, 0xFFFFFFFFFFFFFF0F)]
  ∀ w : Word,
    (∀ row ∈ table, (∃ i, decode w = .ok i ∧ opcode i = row.1) ↔ w &&& row.2.2 = row.2.1) ∧
    (∀ r1 ∈ table, ∀ r2 ∈ table, w &&& r1.2.2 = r1.2.1 → w &&& r2.2.2 = r2.2.1 → r1 = r2)

/-- R79, R80: the words that are no command, each refused by its own name. -/
def Obligations.ReservedAndUnusedBitsAreRefusedByName : Prop :=
  ∀ w : Word,
    ((opField w = 0x0 ∨ opField w = 0x7 ∨ opField w = 0xF) → decode w = .error .reservedOpcode) ∧
    (∀ mask, maskOf (opField w) = some mask → w &&& mask ≠ matchOf (opField w) → decode w = .error .mustBeZero)

/-- R90: the spec's own encoding examples. -/
def Obligations.SpecExampleWordsDecode : Prop :=
  decode 0x0000000000000001 = .ok .init ∧
  decode 0x0000000500000002 = .ok (.setDelay 0 5) ∧
  decode 0x0000006400000012 = .ok (.setDelay 1 100) ∧
  decode 0x000A000000003C03 = .ok (.probe 0 0x3C 10) ∧
  decode 0x000A000200103C04 = .ok (.write 0 0x3C 0x10 2 10) ∧
  decode 0x000A000200103C05 = .ok (.read 0 0x3C 0x10 2 10) ∧
  decode 0x000700030000A016 = .ok (.readSeq 1 0xA0 3 7) ∧
  decode 0x0000000000000028 = .ok (.start 2) ∧
  decode 0x000000000000A50A = .ok (.sendByte 0 0xA5) ∧
  decode 0x000000000100000B = .ok (.readByte 0 true) ∧
  decode 0x000500000000000C = .ok (.waitAck 0 5)

/-- R57: the command word and the response word, carried as bytes, go least significant byte first, and come back whole. -/
def Obligations.WordBytesGoLeastSignificantFirst : Prop :=
  (∀ w : Word,
    wordOfBytes (bytesOfWord w) = some w ∧
    bytesOfWord w = (List.range 8).map (fun k => w.extractLsb' (8 * k) 8)) ∧
  ∀ r : BitVec 16,
    respOfBytes (bytesOfResp r) = some r ∧
    bytesOfResp r = (List.range 2).map (fun k => r.extractLsb' (8 * k) 8)

/-! ## The step -/

/-- R31, R37, R87: a step runs the command in CMD while one runs, and the presented one when none runs. Around it the step only
lets the host's next move come one step nearer, and not even that when a command is presented: the host's moves are the model's
choice (log entry 5), not the rules'. -/
def Obligations.StepRunsTheDecodedCommand : Prop :=
  ∀ (s : State) (w : Word) (i : Instr), s.refused = false → s.rstDue = false → decode w = .ok i →
    (s.busy = true → s.cmd = w → step s = exec i { s with host := waitedMoves s.host }) ∧
    (s.busy = false → s.presented = some w → step s = exec i s)

/-- R29, R37: the word `withFetchWord` places is the very next step's command. That it is placed as the host's next move, due
at once, with BUSY and REFUSED set to 0, is the model's choice (log entry 5). -/
def Obligations.FetchWordIsTheNextStepsCommand : Prop :=
  ∀ (s : State) (i : Instr),
    step (s.withFetchWord 64 (encode i).toNat) = exec i (s.withFetchWord 64 (encode i).toNat)

/-- R82, R195, R196: a word that is no command, or whose bus does not exist, is answered ILLEGAL in the step after its
accept, whatever its address byte; it emits no event and changes nothing of the block but CMD, BUSY and RESP. -/
def Obligations.IllegalWordRespondsIllegal : Prop :=
  ∀ (s : State) (w : Word), Ready s → s.presented = some w →
    (∀ i, decode w = .ok i → i.busExists s.cfg = false) →
    ∃ t, step s = .next t ∧ t.busy = true ∧ t.cmd = w ∧ t.refused = false ∧ t.resp = s.resp ∧
      t.trace = s.trace ∧ t.cfg = s.cfg ∧ t.buses = s.buses ∧ t.phase = s.phase ∧ t.shift = s.shift ∧
      t.bitCnt = s.bitCnt ∧ t.byteIdx = s.byteIdx ∧ t.t0 = s.t0 ∧ t.ackOk = s.ackOk ∧ t.csHeld = s.csHeld ∧
      t.env = s.env ∧ t.buf = s.buf ∧
      (t.rstDue = false →
        ∃ u, step t = .next u ∧ u.busy = false ∧ u.resp = 0x0003 ∧ u.trace = .resp 0x0003 :: s.trace ∧
          u.cmd = w ∧ u.refused = false ∧ u.cfg = s.cfg ∧ u.buses = s.buses ∧ u.phase = s.phase ∧
          u.shift = s.shift ∧ u.bitCnt = s.bitCnt ∧ u.byteIdx = s.byteIdx ∧ u.t0 = s.t0 ∧ u.ackOk = s.ackOk ∧
          u.csHeld = s.csHeld ∧ u.env = s.env ∧ u.buf = s.buf)

/-- R197, R198: a legal command whose address byte has bit 0 set is refused in its accept step: REFUSED is set, BUSY stays 1,
no event and no response; and from a refused state no agent has a step, RST included. -/
def Obligations.DirectionBitRefusesAndStopsTheMachine : Prop :=
  (∀ (s : State) (i : Instr), Ready s → i.busExists s.cfg = true → i.directionClear = false →
    ∃ t, exec i s = .next t ∧ t.refused = true ∧ t.busy = true ∧ t.trace = s.trace ∧ t.resp = s.resp ∧
      t.buses = s.buses ∧ t.csHeld = s.csHeld ∧ t.phase = s.phase) ∧
  (∀ s : State, s.refused = true → step s = .refused .addressDirectionBit)

/-- R230, R45: RST from any state that is not refused. It emits no event; the latches become unknown on every bus but the one in
use by a running command, and on every bus when none runs. -/
def Obligations.ResetInputClearsTheBlock : Prop :=
  ∀ s : State, s.refused = false → s.rstDue = true →
    ∃ t, step s = .next t ∧ t.busy = false ∧ t.phase = .idle ∧ t.csHeld = none ∧ t.resp = 0x0000 ∧
      t.ctrl = .idle ∧ t.refused = false ∧ t.trace = s.trace ∧ t.cfg = s.cfg ∧
      (∀ b, (t.bus b).bitDelayUs = 0) ∧
      (∀ b, s.busInUse ≠ some b → (t.bus b).sclOut = none ∧ (t.bus b).sdaDir = none ∧ (t.bus b).sdaOut = none) ∧
      (s.busy = false → ∀ b, (t.bus b).sclOut = none ∧ (t.bus b).sdaDir = none ∧ (t.bus b).sdaOut = none)

/-- R232: RST while a command runs gives no response, keeps the buffer as far as it was written, and leaves the lines of the
command's bus as the last event put them; the latches of every other bus become unknown, and so do those of all buses when the
command is INIT, SET_DELAY or illegal and uses no bus. That the latches of the bus in use stay known is the model's reading (log
entry 10). -/
def Obligations.ResetDuringCommandKeepsTheLines : Prop :=
  ∀ s : State, Running s → s.rstDue = true →
    ∃ t, step s = .next t ∧ t.busy = false ∧ t.resp = 0x0000 ∧ t.csHeld = none ∧ t.phase = .idle ∧
      t.trace = s.trace ∧ t.done = s.done ∧ t.buf = s.buf ∧
      (∀ i, decode s.cmd = .ok i → drivesBus i = true → i.busExists s.cfg = true →
        ((t.bus i.bus).sclOut = (s.bus i.bus).sclOut ∧ (t.bus i.bus).sdaDir = (s.bus i.bus).sdaDir ∧
          (t.bus i.bus).sdaOut = (s.bus i.bus).sdaOut) ∧
        ∀ c, c ≠ i.bus → t.bus c = Bus.reset) ∧
      ((∀ i, decode s.cmd = .ok i → drivesBus i = false ∨ i.busExists s.cfg = false) → ∀ c, t.bus c = Bus.reset)

/-- R45: what the spec says the state is after reset, for every choice of the parameters. -/
def Obligations.ResetStateValues : Prop :=
  ∀ c : Config,
    let s := State.resetOf c
    s.busy = false ∧ s.phase.code = 0 ∧ s.csHeld = none ∧ s.resp = 0x0000 ∧ s.refused = false ∧ s.ctrl = .idle ∧
    ∀ b, (s.bus b).bitDelayUs = 0 ∧ (s.bus b).sclOut = none ∧ (s.bus b).sdaDir = none ∧ (s.bus b).sdaOut = none

/-- R38 "None": with no command running and none presented the block does nothing. That a step nevertheless brings the host's
next move nearer is the model's choice (log entry 5). -/
def Obligations.NothingPresentedNothingHappens : Prop :=
  ∀ s : State, Ready s → s.rstDue = false → s.presented = none →
    step s = .next { s with host := waitedMoves s.host }

/-- R29: a command presented while BUSY = 1 is neither accepted nor lost: it stays the host's next move, and CMD is kept. -/
def Obligations.CommandWaitsWhileBusy : Prop :=
  ∀ (s t : State) (w : Word), s.busy = true → s.presented = some w → step s = .next t →
    t.presented = some w ∧ t.host = s.host ∧ t.cmd = s.cmd

/-- R37: a step emits at most one event or response, and nothing observed is ever taken back. -/
def Obligations.AtMostOneEventAStep : Prop :=
  ∀ s t : State, step s = .next t → t.trace = s.trace ∨ ∃ e, t.trace = e :: s.trace

/-- R39: only `respond` and RST write RESP, and `respond` ends the command. -/
def Obligations.OnlyRespondAndResetWriteResp : Prop :=
  ∀ s t : State, step s = .next t →
    t.resp = s.resp ∨ (s.rstDue = true ∧ t.resp = 0x0000) ∨
    ∃ st rd, t.resp = respWord st rd ∧ t.trace = .resp (respWord st rd) :: s.trace ∧ s.busy = true ∧ t.busy = false

/-- R44: no step changes the parameters. -/
def Obligations.ParametersNeverChange : Prop := ∀ s t : State, step s = .next t → t.cfg = s.cfg

/-! ## The primitive commands

A command that has no buffer leaves the buffer of the last WRITE, READ or READ_SEQ as it is, and its record has an empty one: the
model's convention (log entry 20). -/

/-- R101: START emits its nine events, leaves SCL 0, SDA driven 0, and responds OK; nothing else of the block changes. -/
def Obligations.StartCompletes : Prop :=
  ∀ (b : BusIx) (s : State), Ready s → b.toNat < s.cfg.nBus →
    ∃ s1, exec (.start b) s = .next s1 ∧ ∃ k,
      execFor (.start b) k s1 = .next (completed (.start b) .ok 0 (startEvents b (s.bus b).bitDelayUs)
        (withLines b false .out false (afterWaits 4 s)))

/-- R102: STOP emits its nine events, leaves the bus idle-high, and responds OK; nothing else of the block changes. -/
def Obligations.StopCompletes : Prop :=
  ∀ (b : BusIx) (s : State), Ready s → b.toNat < s.cfg.nBus →
    ∃ s1, exec (.stop b) s = .next s1 ∧ ∃ k,
      execFor (.stop b) k s1 = .next (completed (.stop b) .ok 0 (stopEvents b (s.bus b).bitDelayUs)
        (withLines b true .out true (afterWaits 4 s)))

/-- R103, R54: SEND_BYTE emits its 41 events, the byte's bits most significant first, and responds OK whatever the slave
does; SHIFT and BITCNT are written, nothing else of the block changes. That they keep their last values after the response is the
model's choice (log entry 19). -/
def Obligations.SendByteCompletes : Prop :=
  ∀ (b : BusIx) (v : Byte) (s : State), Ready s → b.toNat < s.cfg.nBus →
    ∃ s1, exec (.sendByte b v) s = .next s1 ∧ ∃ k,
      execFor (.sendByte b v) k s1 =
        .next (completed (.sendByte b v) .ok 0 (sendEvents b (s.bus b).bitDelayUs v)
          { withLines b false .out (v.getLsbD 0) (afterWaits 16 s) with shift := v, bitCnt := 0 })

/-- R104, R55: READ_BYTE takes eight samples, whatever they are, sends ACK or NACK as ACKF says, and responds OK with the
byte whose bit 7 is the first sample; SHIFT and BITCNT are written, nothing else of the block changes. That they keep their last
values after the response is the model's choice (log entry 19). -/
def Obligations.ReadByteCompletes : Prop :=
  ∀ (b : BusIx) (sendAck : Bool) (s : State), Ready s → b.toNat < s.cfg.nBus →
    let bits := (drawSamples 8 s.env).1
    (∀ k, (h : k < 8) → (byteOfBits bits).getLsbD (7 - k) = bits.getD k false) ∧
    ∃ s1, exec (.readByte b sendAck) s = .next s1 ∧ ∃ k,
      execFor (.readByte b sendAck) k s1 =
        .next (completed (.readByte b sendAck) .ok (byteOfBits bits)
          (readEvents b (s.bus b).bitDelayUs bits sendAck)
          { withLines b false .out (!sendAck) s with
            shift := byteOfBits bits
            bitCnt := 0
            env := { (drawSamples 8 s.env).2 with waits := s.env.waits.drop 18 } })

/-- R106, R107: ACK and NACK emit their seven events with the data line low or high, and respond OK; nothing else of the
block changes. -/
def Obligations.AckAndNackComplete : Prop :=
  ∀ (b : BusIx) (s : State), Ready s → b.toNat < s.cfg.nBus →
    (∃ s1, exec (.ack b) s = .next s1 ∧ ∃ k,
      execFor (.ack b) k s1 = .next (completed (.ack b) .ok 0 (pulseEvents b (s.bus b).bitDelayUs false)
        (withLines b false .out false (afterWaits 2 s)))) ∧
    (∃ s1, exec (.nack b) s = .next s1 ∧ ∃ k,
      execFor (.nack b) k s1 = .next (completed (.nack b) .ok 0 (pulseEvents b (s.bus b).bitDelayUs true)
        (withLines b false .out true (afterWaits 2 s))))

/-- R105: WAIT_ACK whose first sample is 0 responds OK, whatever the timeout and the tick: it releases the data line, raises the
clock, takes T0 by one TICK, and only then samples; it lowers the clock, leaves the data line input, and has no hold. -/
def Obligations.WaitAckAcknowledgedAtOnce : Prop :=
  ∀ (b : BusIx) (timeout : BitVec 16) (s : State), Ready s → b.toNat < s.cfg.nBus →
    (nextSample s.env).1 = false →
    ∃ s1, exec (.waitAck b timeout) s = .next s1 ∧ ∃ k t τ, execFor (.waitAck b timeout) k s1 = .next t ∧
      CommandDone (.waitAck b timeout) .ok 0 s t ∧ t.ackOk = true ∧ t.t0 = τ ∧
      (t.bus b).sclOut = some false ∧ (t.bus b).sdaDir = some .inp ∧ (t.bus b).sdaOut = some true ∧
      t.trace = .resp 0x0001 :: ((waitOkEvents b τ).reverse ++ s.trace) ∧
      eventCount t.trace = eventCount s.trace + 6 ∧
      t.phase = s.phase ∧ t.csHeld = s.csHeld ∧ t.shift = s.shift ∧ t.bitCnt = s.bitCnt ∧
      t.byteIdx = s.byteIdx ∧ t.buf = s.buf ∧ t.env.waits = s.env.waits

/-- R105, R190: WAIT_ACK whose first sample is 1 and whose first time check finds the timeout reached stops the bus, leaves it
idle-high and responds FAIL. The tick source's increases are fixed by the run: `d0` before T0's TICK, `d1` before the check's. -/
def Obligations.WaitAckTimesOutAtTheFirstCheck : Prop :=
  ∀ (b : BusIx) (timeout : BitVec 16) (s : State) (d0 d1 : Nat) (ds : List Nat), Ready s → b.toNat < s.cfg.nBus →
    (nextSample s.env).1 = true → s.env.tickSteps = d0 :: d1 :: ds →
    timeout.toNat ≤ d1 → d1 ≤ 2 ^ s.cfg.tickW - timeout.toNat →
    let τ0 := (s.env.tickNow + d0) % 2 ^ s.cfg.tickW
    let τ1 := (s.env.tickNow + d0 + d1) % 2 ^ s.cfg.tickW
    ∃ s1, exec (.waitAck b timeout) s = .next s1 ∧ ∃ k t, execFor (.waitAck b timeout) k s1 = .next t ∧
      CommandDone (.waitAck b timeout) .fail 0 s t ∧ t.ackOk = false ∧ t.t0 = τ0 ∧ (t.bus b).idleHigh ∧
      t.trace = .resp 0x0002 :: ((waitFailEvents b (s.bus b).bitDelayUs τ0 [τ1]).reverse ++ s.trace) ∧
      eventCount t.trace = eventCount s.trace + 15 ∧
      t.phase = s.phase ∧ t.csHeld = s.csHeld ∧ t.shift = s.shift ∧ t.bitCnt = s.bitCnt ∧
      t.byteIdx = s.byteIdx ∧ t.buf = s.buf

/-- R105, R200: one poll of any wait_ack, WAIT_ACK's own and those inside PROBE, WRITE, READ and READ_SEQ. A sample of 0 goes to
the acknowledge, whatever the time; only after a sample of 1 the time is checked, and `(t - T0) mod 2^TICK_W >= to` goes to the
stop, else to the next sample. -/
def Obligations.PollSamplesBeforeItChecksTheTime : Prop :=
  ∀ (i : Instr) (site : Site) (s : State), Running s → site ∈ sites i →
    (s.ctrl = .call site .poll →
      ∃ t, exec i s = .next t ∧
        t.trace = .sample i.bus (nextSample s.env).1 :: s.trace ∧
        t.ctrl = .call site
          (if (nextSample s.env).1 = false then .seg (.scl false) [] .acked else .check) ∧
        t.buses = s.buses ∧ t.t0 = s.t0) ∧
    (s.ctrl = .call site .check →
      ∃ t τ, exec i s = .next t ∧
        t.trace = .tick τ :: s.trace ∧ τ = t.env.tickNow % 2 ^ s.cfg.tickW ∧
        t.ctrl = .call site
          (if i.timeout.toNat ≤ (τ + 2 ^ s.cfg.tickW - s.t0) % 2 ^ s.cfg.tickW
           then .seg (.scl false) [.hold, .dir .out, .sda false, .hold, .scl true, .hold, .sda true, .hold] .timedOut
           else .poll) ∧
        t.buses = s.buses ∧ t.t0 = s.t0)

/-- R105, R209: every WAIT_ACK responds, OK or FAIL, whatever the slave and the tick source do within the laws, and its trace is
that of R105: OK at the first sample of 0, every time check before it short of the timeout; FAIL, after a stop, at the first time
check that reaches it, every sample so far 1. That the tick source moves on for ever is the spec's own premise (R209 laws 2 and
3), which the model's tick source meets (log entry 7). -/
def Obligations.WaitAckAlwaysResponds : Prop :=
  ∀ (b : BusIx) (timeout : BitVec 16) (s : State), Ready s → b.toNat < s.cfg.nBus → s.cfg.wf →
    ∃ s1, exec (.waitAck b timeout) s = .next s1 ∧ ∃ k t τs, execFor (.waitAck b timeout) k s1 = .next t ∧
      ((CommandDone (.waitAck b timeout) .ok 0 s t ∧ t.ackOk = true ∧
          (drawSamples (τs.length + 1) s.env).1 = List.replicate τs.length true ++ [false] ∧
          (∀ τ ∈ τs, elapsed s.cfg.tickW τ t.t0 < timeout.toNat) ∧
          t.trace = .resp 0x0001 :: ((waitOkAfter b t.t0 τs).reverse ++ s.trace)) ∨
       (CommandDone (.waitAck b timeout) .fail 0 s t ∧ t.ackOk = false ∧ (t.bus b).idleHigh ∧
          (drawSamples τs.length s.env).1 = List.replicate τs.length true ∧
          (∃ us τ, τs = us ++ [τ] ∧ (∀ u ∈ us, elapsed s.cfg.tickW u t.t0 < timeout.toNat) ∧
            timeout.toNat ≤ elapsed s.cfg.tickW τ t.t0) ∧
          t.trace = .resp 0x0002 :: ((waitFailEvents b (s.bus b).bitDelayUs t.t0 τs).reverse ++ s.trace)))

/-! ## The configuration commands -/

/-- R180: INIT sets the delay of every bus to 0 and responds OK; it emits no event and touches no line. -/
def Obligations.InitCompletes : Prop :=
  ∀ s : State, Ready s →
    ∃ s1, exec .init s = .next s1 ∧ s1.trace = s.trace ∧ ∃ t, execFor .init 1 s1 = .next t ∧
      t = completed .init .ok 0 [] { s with buses := t.buses } ∧
      (∀ b, b.toNat < s.cfg.nBus → (t.bus b).bitDelayUs = 0) ∧
      ∀ b, (t.bus b).sclOut = (s.bus b).sclOut ∧ (t.bus b).sdaDir = (s.bus b).sdaDir ∧
        (t.bus b).sdaOut = (s.bus b).sdaOut

/-- R181: SET_DELAY gives one bus its new delay and responds OK; it emits no event, takes no critical section and changes no
other bus. That the delay is written in the respond step is the model's reading (log entry 9). -/
def Obligations.SetDelayCompletes : Prop :=
  ∀ (b : BusIx) (d : BitVec 32) (s : State), Ready s → b.toNat < s.cfg.nBus →
    ∃ s1, exec (.setDelay b d) s = .next s1 ∧ s1.trace = s.trace ∧
      execFor (.setDelay b d) 1 s1 =
        .next (completed (.setDelay b d) .ok 0 [] (s.setBus b { s.bus b with bitDelayUs := d }))

/-! ## The transactions -/

/-- R141, R154: PROBE acknowledged at the first sample emits its 67 events, its TICK among them, all inside the critical section,
and responds OK with the bus idle-high. -/
def Obligations.ProbeAcknowledgedRespondsOk : Prop :=
  ∀ (b : BusIx) (a8 : Byte) (timeout : BitVec 16) (s : State),
    let i := Instr.probe b a8 timeout
    let d := (s.bus b).bitDelayUs
    Ready s → b.toNat < s.cfg.nBus → a8.getLsbD 0 = false → (nextSample s.env).1 = false →
    ∃ s1, exec i s = .next s1 ∧ ∃ k t τ, execFor i k s1 = .next t ∧ CommandDone i .ok 0 s t ∧
      (t.bus b).idleHigh ∧ t.phase = .idle ∧ t.csHeld = none ∧ t.buf = s.buf ∧
      t.trace = .resp 0x0001 ::
        (([Event.csEnter b] ++ startEvents b d ++ ackedEvents b [sendEvents b d a8] [τ] ++ stopEvents b d ++
          [Event.csExit b]).reverse ++ s.trace) ∧
      eventCount t.trace = eventCount s.trace + 67

/-- R141, R155: PROBE whose wait sees j samples of 1 and times out at the j-th time check stops the bus twice, whatever
`ENGINE_ABORT_STOP` is, and responds FAIL with the bus idle-high, after 2j + 74 events. The tick source's increases are fixed by
the run: `d0` before T0's TICK, `ds` before the checks'. -/
def Obligations.ProbeNotAcknowledgedRespondsFail : Prop :=
  ∀ (b : BusIx) (a8 : Byte) (timeout : BitVec 16) (s : State) (d0 : Nat) (ds ds' : List Nat),
    let i := Instr.probe b a8 timeout
    let d := (s.bus b).bitDelayUs
    let u0 := s.env.tickNow + d0
    Ready s → b.toNat < s.cfg.nBus → a8.getLsbD 0 = false →
    (drawSamples ds.length s.env).1 = List.replicate ds.length true → s.env.tickSteps = d0 :: ds ++ ds' →
    timesOut s.cfg.tickW timeout.toNat 0 ds = true →
    ∃ s1, exec i s = .next s1 ∧ ∃ k t, execFor i k s1 = .next t ∧ CommandDone i .fail 0 s t ∧
      (t.bus b).idleHigh ∧ t.phase = .idle ∧ t.csHeld = none ∧ t.buf = s.buf ∧
      t.trace = .resp 0x0002 ::
        (([Event.csEnter b] ++ startEvents b d ++ sendEvents b d a8 ++
          waitFailEvents b d (u0 % 2 ^ s.cfg.tickW) (tickValues s.cfg.tickW u0 ds) ++ stopEvents b d ++
          [Event.csExit b]).reverse ++ s.trace) ∧
      eventCount t.trace = eventCount s.trace + 2 * ds.length + 74

/-- R142, R154, R148: WRITE of any length, every byte acknowledged at its first sample: the address, the register and the
buffer's bytes in index order, each buffer byte read just before it is sent, each wait with its one TICK, and no other event; the
response is OK, the bus is idle-high, the buffer is unchanged. That a byte the host did not give reads 0 is the model's choice
(log entry 4). -/
def Obligations.WriteSendsTheBuffer : Prop :=
  ∀ (b : BusIx) (a8 reg : Byte) (n timeout : BitVec 16) (s : State) (rest : List Level),
    let i := Instr.write b a8 reg n timeout
    let d := (s.bus b).bitDelayUs
    Ready s → b.toNat < s.cfg.nBus → a8.getLsbD 0 = false →
    s.env.samples = List.replicate (n.toNat + 2) false ++ rest →
    ∃ s1, exec i s = .next s1 ∧ ∃ k t ticks, execFor i k s1 = .next t ∧ CommandDone i .ok 0 s t ∧
      (t.bus b).idleHigh ∧ t.phase = .idle ∧ t.csHeld = none ∧
      (∀ j, j < n.toNat → Memory.read t.buf j = s.presentedData.getD j Memory.unlisted) ∧
      ticks.length = n.toNat + 2 ∧
      t.trace = .resp 0x0001 ::
        (([Event.csEnter b] ++ startEvents b d ++
          ackedEvents b (writeParts b d a8 reg (presentedBytes s n.toNat)) ticks ++ stopEvents b d ++
          [Event.csExit b]).reverse ++ s.trace) ∧
      eventCount t.trace = eventCount s.trace + 114 + 48 * n.toNat

/-- R143, R149, R154, R148: READ of any length, every wait acknowledged at its first sample: address and register, the
repeated start, the read address, each wait with its one TICK, then the bytes, every one but the last acknowledged; the buffer ends
as the bytes the samples spell, most significant bit first. -/
def Obligations.ReadFillsTheBuffer : Prop :=
  ∀ (b : BusIx) (a8 reg : Byte) (n timeout : BitVec 16) (s : State) (bytes : List Byte) (rest : List Level),
    let i := Instr.read b a8 reg n timeout
    let d := (s.bus b).bitDelayUs
    Ready s → b.toNat < s.cfg.nBus → a8.getLsbD 0 = false → bytes.length = n.toNat →
    s.env.samples = [false, false, false] ++ bytes.flatMap bitsOfByte ++ rest →
    ∃ s1, exec i s = .next s1 ∧ ∃ k t ticks, execFor i k s1 = .next t ∧ CommandDone i .ok 0 s t ∧
      (t.bus b).idleHigh ∧ t.phase = .idle ∧ t.csHeld = none ∧
      (∀ j, (h : j < bytes.length) → Memory.read t.buf j = bytes[j]) ∧
      ticks.length = 3 ∧
      t.trace = .resp 0x0001 ::
        (([Event.csEnter b] ++ startEvents b d ++ ackedEvents b (readParts b d a8 reg) ticks ++
          readDataEvents b d 0 bytes ++ stopEvents b d ++ [Event.csExit b]).reverse ++ s.trace) ∧
      eventCount t.trace = eventCount s.trace + 170 + 50 * n.toNat

/-- R144, R149, R154, R148: READ_SEQ of any length: as READ without the register phase and the repeated start. -/
def Obligations.ReadSeqFillsTheBuffer : Prop :=
  ∀ (b : BusIx) (a8 : Byte) (n timeout : BitVec 16) (s : State) (bytes : List Byte) (rest : List Level),
    let i := Instr.readSeq b a8 n timeout
    let d := (s.bus b).bitDelayUs
    Ready s → b.toNat < s.cfg.nBus → a8.getLsbD 0 = false → bytes.length = n.toNat →
    s.env.samples = [false] ++ bytes.flatMap bitsOfByte ++ rest →
    ∃ s1, exec i s = .next s1 ∧ ∃ k t τ, execFor i k s1 = .next t ∧ CommandDone i .ok 0 s t ∧
      (t.bus b).idleHigh ∧ t.phase = .idle ∧ t.csHeld = none ∧
      (∀ j, (h : j < bytes.length) → Memory.read t.buf j = bytes[j]) ∧
      t.trace = .resp 0x0001 ::
        (([Event.csEnter b] ++ startEvents b d ++ ackedEvents b [sendEvents b d (a8 ||| 1)] [τ] ++
          readDataEvents b d 0 bytes ++ stopEvents b d ++ [Event.csExit b]).reverse ++ s.trace) ∧
      eventCount t.trace = eventCount s.trace + 67 + 50 * n.toNat

/-- R145, R155, R68: WRITE, READ and READ_SEQ whose first wait sees j samples of 1 and times out at the j-th time check attempt no
other phase: they leave the buffer as the host gave it, add the engine's stop exactly when `ENGINE_ABORT_STOP` is true, and
respond FAIL with the bus idle-high. The tick source's increases are fixed by the run: `d0` before T0's TICK, `ds` before the
checks'. That a byte the host did not give reads 0 is the model's choice (log entry 4). -/
def Obligations.AddressTimeoutAborts : Prop :=
  ∀ (b : BusIx) (a8 reg : Byte) (n timeout : BitVec 16) (i : Instr) (first : Byte) (s : State) (d0 : Nat)
    (ds ds' : List Nat),
    let d := (s.bus b).bitDelayUs
    let u0 := s.env.tickNow + d0
    (i = .write b a8 reg n timeout ∧ first = a8 ∨ i = .read b a8 reg n timeout ∧ first = a8 ∨
      i = .readSeq b a8 n timeout ∧ first = a8 ||| 1) →
    Ready s → b.toNat < s.cfg.nBus → a8.getLsbD 0 = false →
    (drawSamples ds.length s.env).1 = List.replicate ds.length true → s.env.tickSteps = d0 :: ds ++ ds' →
    timesOut s.cfg.tickW timeout.toNat 0 ds = true →
    ∃ s1, exec i s = .next s1 ∧ ∃ k t, execFor i k s1 = .next t ∧ CommandDone i .fail 0 s t ∧
      (t.bus b).idleHigh ∧ t.phase = .idle ∧ t.csHeld = none ∧
      (∀ j, j < n.toNat → Memory.read t.buf j = s.presentedData.getD j Memory.unlisted) ∧
      t.trace = .resp 0x0002 ::
        (([Event.csEnter b] ++ startEvents b d ++ sendEvents b d first ++
          waitFailEvents b d (u0 % 2 ^ s.cfg.tickW) (tickValues s.cfg.tickW u0 ds) ++ abortEvents s.cfg b d ++
          [Event.csExit b]).reverse ++ s.trace) ∧
      eventCount t.trace = eventCount s.trace + 2 * ds.length + (if s.cfg.engineAbortStop then 74 else 65)

/-- R142, R145, R152, R155: WRITE whose first `m` bytes, the address and the register counted, are acknowledged at their first
sample and whose next wait sees j samples of 1 and times out at the j-th time check: no byte after that one is read or sent, the
engine's stop is added exactly when `ENGINE_ABORT_STOP` is true, and the response is FAIL with the bus idle-high. The tick
source's increases are fixed by the run: `pre` before the acknowledged waits' TICKs, `d0` before the failing wait's first, `ds`
before its checks'. That a byte the host did not give reads 0 is the model's choice (log entry 4). -/
def Obligations.WriteStopsAtTheFailingByte : Prop :=
  ∀ (b : BusIx) (a8 reg : Byte) (n timeout : BitVec 16) (s : State) (m : Nat) (rest : List Level) (pre : List Nat)
    (d0 : Nat) (ds ds' : List Nat),
    let i := Instr.write b a8 reg n timeout
    let d := (s.bus b).bitDelayUs
    let w := s.cfg.tickW
    let u0 := s.env.tickNow + pre.sum + d0
    let parts := writeParts b d a8 reg (presentedBytes s n.toNat)
    Ready s → b.toNat < s.cfg.nBus → a8.getLsbD 0 = false → m < n.toNat + 2 →
    s.env.samples = List.replicate m false ++ List.replicate ds.length true ++ rest →
    s.env.tickSteps = pre ++ d0 :: ds ++ ds' → pre.length = m → timesOut w timeout.toNat 0 ds = true →
    ∃ s1, exec i s = .next s1 ∧ ∃ k t, execFor i k s1 = .next t ∧ CommandDone i .fail 0 s t ∧
      (t.bus b).idleHigh ∧ t.phase = .idle ∧ t.csHeld = none ∧
      (∀ j, j < n.toNat → Memory.read t.buf j = s.presentedData.getD j Memory.unlisted) ∧
      t.trace = .resp 0x0002 ::
        (([Event.csEnter b] ++ startEvents b d ++
          ackedEvents b (parts.take m) (tickValues w s.env.tickNow pre) ++ parts.getD m [] ++
          waitFailEvents b d (u0 % 2 ^ w) (tickValues w u0 ds) ++ abortEvents s.cfg b d ++
          [Event.csExit b]).reverse ++ s.trace) ∧
      eventCount t.trace + (if s.cfg.engineAbortStop then 0 else 9) =
        eventCount s.trace + 2 * ds.length + (if m = 0 then 74 else if m = 1 then 121 else 169 + 48 * (m - 2))

/-- R143, R145, R155: READ whose first `m` of the address, register and read-address waits are acknowledged at their first sample
and whose next one sees j samples of 1 and times out at the j-th time check: no later phase is attempted, no byte is received, the
buffer stays as the host gave it, the engine's stop is added exactly when `ENGINE_ABORT_STOP` is true, and the response is FAIL
with the bus idle-high. The tick source's increases are fixed by the run, as for WRITE. That a byte the host did not give reads 0
is the model's choice (log entry 4). -/
def Obligations.ReadStopsAtTheFailingWait : Prop :=
  ∀ (b : BusIx) (a8 reg : Byte) (n timeout : BitVec 16) (s : State) (m : Nat) (rest : List Level) (pre : List Nat)
    (d0 : Nat) (ds ds' : List Nat),
    let i := Instr.read b a8 reg n timeout
    let d := (s.bus b).bitDelayUs
    let w := s.cfg.tickW
    let u0 := s.env.tickNow + pre.sum + d0
    let parts := readParts b d a8 reg
    Ready s → b.toNat < s.cfg.nBus → a8.getLsbD 0 = false → m < 3 →
    s.env.samples = List.replicate m false ++ List.replicate ds.length true ++ rest →
    s.env.tickSteps = pre ++ d0 :: ds ++ ds' → pre.length = m → timesOut w timeout.toNat 0 ds = true →
    ∃ s1, exec i s = .next s1 ∧ ∃ k t, execFor i k s1 = .next t ∧ CommandDone i .fail 0 s t ∧
      (t.bus b).idleHigh ∧ t.phase = .idle ∧ t.csHeld = none ∧
      (∀ j, j < n.toNat → Memory.read t.buf j = s.presentedData.getD j Memory.unlisted) ∧
      t.trace = .resp 0x0002 ::
        (([Event.csEnter b] ++ startEvents b d ++
          ackedEvents b (parts.take m) (tickValues w s.env.tickNow pre) ++ parts.getD m [] ++
          waitFailEvents b d (u0 % 2 ^ w) (tickValues w u0 ds) ++ abortEvents s.cfg b d ++
          [Event.csExit b]).reverse ++ s.trace) ∧
      eventCount t.trace + (if s.cfg.engineAbortStop then 0 else 9) =
        eventCount s.trace + 2 * ds.length + (if m = 0 then 74 else if m = 1 then 121 else 177)

/-- R38, R147, R209 to R211: every admitted transaction responds, OK or FAIL, whatever the samples, the ticks within the laws and
the waits, with its bus idle-high, PHASE IDLE and no section held. That the tick source moves on for ever and that waits end are
the spec's own premises, which the model's collaborators meet (log entries 7 and 8). -/
def Obligations.TransactionsAlwaysRespond : Prop :=
  ∀ (i : Instr) (s : State), Instr.isTransaction i = true → Ready s → s.cfg.wf → i.busExists s.cfg = true →
    i.directionClear = true →
    ∃ s1, exec i s = .next s1 ∧ ∃ k t, execFor i k s1 = .next t ∧
      (CommandDone i .ok 0 s t ∨ CommandDone i .fail 0 s t) ∧
      (t.bus i.bus).idleHigh ∧ t.phase = .idle ∧ t.csHeld = none

/-! ## Waits that end -/

/-- R210, R211: a HOLD that has been reached ends, and a CS_ENTER that has been reached is granted, after finitely many steps,
whatever waits the collaborators impose. Waiting changes nothing but the wait: the state in which the event then happens is the
one before it with other waits left. The waits are the model's collaborators' (log entry 8). -/
def Obligations.EveryHoldEndsAndEveryEnterIsGranted : Prop :=
  ∀ (i : Instr) (s : State), Inv s → Running s → decode s.cmd = .ok i →
    (∀ site rest tail, s.ctrl = .call site (.seg .hold rest tail) →
      ∃ k ws, execFor i k s = .next { s with env := { s.env with waits := ws } } ∧
        ∃ t, exec i { s with env := { s.env with waits := ws } } = .next t ∧
          t.trace = .hold i.bus (s.bus i.bus).bitDelayUs :: s.trace) ∧
    (s.ctrl = .csEnter →
      ∃ k ws, execFor i k s = .next { s with env := { s.env with waits := ws } } ∧
        ∃ t, exec i { s with env := { s.env with waits := ws } } = .next t ∧
          t.trace = .csEnter i.bus :: s.trace ∧ t.csHeld = some i.bus)

/-- R181, R183: a HOLD of a bus whose delay is 0 ends at once, whatever wait the delay collaborator imposes. -/
def Obligations.HoldOfZeroEndsAtOnce : Prop :=
  ∀ (i : Instr) (s : State) (site : Site) (rest : List LineOp) (tail : Tail), Running s → site ∈ sites i →
    s.ctrl = .call site (.seg .hold rest tail) → (s.bus i.bus).bitDelayUs = 0 →
    ∃ t, exec i s = .next t ∧ t.trace = .hold i.bus 0 :: s.trace

/-! ## Invariants -/

/-- R45, R46, R5: the state after reset meets both invariants, for every choice of the parameters within their bounds, and so does
`State.reset`, whose parameters are the model's choice (log entry 1). -/
def Obligations.ResetMeetsTheInvariants : Prop :=
  (∀ c : Config, c.wf → Inv (State.resetOf c) ∧ LineInv (State.resetOf c)) ∧ Inv State.reset ∧ LineInv State.reset

/-- R5, R22, R30, R32, R36, R46, R76, R146, R153, R191: from every state that meets the invariant, a step leads to one that
meets it: the control point stays a position of the running command, PHASE is what R146 says there, the critical section is
held exactly between CS_ENTER and CS_EXIT, and between commands nothing is held. -/
def Obligations.StepKeepsTheInvariant : Prop := ∀ s t : State, Inv s → step s = .next t → Inv t

/-- R38, R216: the block has no fault outcome. -/
def Obligations.NoFaultUnderTheInvariant : Prop := ∀ (s : State) (f : Fault), Inv s → step s ≠ .fault f

/-- R102, R239: from every state that meets the line invariant, a step leads to one that meets it. -/
def Obligations.StepKeepsTheLineInvariant : Prop := ∀ s t : State, LineInv s → step s = .next t → LineInv t

/-- R239: every SAMPLE is taken while the data line is input. -/
def Obligations.SampleOnlyWhenInput : Prop :=
  ∀ (s t : State) (b : BusIx) (v : Level), LineInv s → step s = .next t → t.trace = .sample b v :: s.trace →
    (s.bus b).sdaDir = some .inp

/-- R147, R153: every transaction leaves its critical section, on OK and on FAIL alike, with its bus idle-high, PHASE IDLE
and no section held. -/
def Obligations.TransactionEndsIdleHigh : Prop :=
  ∀ (s t : State) (b : BusIx), LineInv s → step s = .next t → t.trace = .csExit b :: s.trace →
    (t.bus b).idleHigh ∧ t.phase = .idle ∧ t.csHeld = none

/-! ## Frames and isolation -/

/-- R42: a command on bus b neither reads nor writes another bus's state: changing that state before the step changes the
outcome in nothing else. INIT acts on all buses and is not meant. -/
def Obligations.OtherBusesAreIndependent : Prop :=
  ∀ (i : Instr) (s : State) (c : BusIx) (x : Bus), i ≠ .init → c ≠ i.bus →
    exec i (s.setBus c x) =
      match exec i s with
      | .next t => .next (t.setBus c x)
      | .fault f => .fault f
      | .refused r => .refused r

/-- R23, R43: a step that changes a bus's delay is RST, or a step of INIT, or a step of a SET_DELAY that names that bus; so
while any other command runs every HOLD shows the same delay. -/
def Obligations.OnlyConfigurationWritesDelays : Prop :=
  ∀ (s t : State) (b : BusIx), step s = .next t → (t.bus b).bitDelayUs ≠ (s.bus b).bitDelayUs →
    s.rstDue = true ∨
    ∃ w i, s.currentWord = some w ∧ decode w = .ok i ∧ (i = .init ∨ ∃ d, i = .setDelay b d ∧ (t.bus b).bitDelayUs = d)

/-- R51, R60: a running command writes its buffer only at a BUF_WR, at index BYTEIDX; every other byte reads as before, and
every byte does where the control point is no BUF_WR. The byte written is the received one, in SHIFT. -/
def Obligations.BufferIsWrittenOnlyAtByteIdx : Prop :=
  ∀ (i : Instr) (s t : State), Running s → Memory.wf s.buf = true → exec i s = .next t →
    (∀ k, (s.ctrl = .bufWr → k ≠ s.byteIdx.toNat) → Memory.read t.buf k = Memory.read s.buf k) ∧
    (s.ctrl = .bufWr → Memory.read t.buf s.byteIdx.toNat = s.shift)

/-- R100, R111: what one step of a running primitive command leaves unchanged, at each of its control points: PHASE, the
critical section, the buffer, BYTEIDX, CMD, the parameters, the host's moves, every bus but its own. RESP changes only in
the respond step. -/
def Obligations.PrimitiveStepFrame : Prop :=
  ∀ (i : Instr) (s t : State), sites i = [.command] → Running s →
    ctrlOk s.cfg.nBus i s.byteIdx s.ctrl = true → exec i s = .next t →
    t.phase = s.phase ∧ t.csHeld = s.csHeld ∧ t.buf = s.buf ∧ t.byteIdx = s.byteIdx ∧ t.cmd = s.cmd ∧
    t.cfg = s.cfg ∧ t.refused = s.refused ∧ t.host = s.host ∧ (∀ c, c ≠ i.bus → t.bus c = s.bus c) ∧
    (t.resp ≠ s.resp → ∃ st rd, s.ctrl = .respond st rd)

/-- R14, R29, R31, R32, R39, R42, R44, R198: what one step of a running transaction leaves unchanged: CMD, the parameters,
REFUSED, the host's moves, and every bus but its own; RESP, BUSY and the record of completed commands change only in the respond
step, CS_HELD only at CS_ENTER and CS_EXIT. The host's moves and the record are the model's own fields (log entries 5 and 12). -/
def Obligations.TransactionStepFrame : Prop :=
  ∀ (i : Instr) (s t : State), Instr.isTransaction i = true → Running s → exec i s = .next t →
    t.cmd = s.cmd ∧ t.cfg = s.cfg ∧ t.refused = s.refused ∧ t.host = s.host ∧
    (∀ c, c ≠ i.bus → t.bus c = s.bus c) ∧
    ((∀ st rd, s.ctrl ≠ .respond st rd) → t.resp = s.resp ∧ t.done = s.done ∧ t.busy = true) ∧
    (s.ctrl ≠ .csEnter → (∀ st, s.ctrl ≠ .csExit st) → t.csHeld = s.csHeld)

/-! ## Operands, flags, collaborators -/

/-- R24: each line event updates exactly one latch of its bus, and is in the trace even when the latch held the value. -/
def Obligations.LineEventUpdatesOneLatch : Prop :=
  ∀ (b : BusIx) (s : State),
    (∀ d, lineEvent b (.dir d) s =
      { s.setBus b { s.bus b with sdaDir := some d } with trace := .dir b d :: s.trace }) ∧
    (∀ v, lineEvent b (.sda v) s =
      { s.setBus b { s.bus b with sdaOut := some v } with trace := .sda b v :: s.trace }) ∧
    (∀ v, lineEvent b (.scl v) s =
      { s.setBus b { s.bus b with sclOut := some v } with trace := .scl b v :: s.trace }) ∧
    (sampleEvent b s).2.buses = s.buses ∧
    (sampleEvent b s).2.trace = .sample b (sampleEvent b s).1 :: s.trace

/-- R84: the write-address byte clears bit 0, the read-address byte sets it; the other bits are the address byte's. -/
def Obligations.AddressBytesSetTheDirectionBit : Prop :=
  ∀ a8 : Byte, addrR a8 = a8 ||| 0x01 ∧ addrW a8 = a8 &&& 0xFE ∧ (a8.getLsbD 0 = false → addrW a8 = a8) ∧
    (addrW a8).extractLsb' 1 7 = a8.extractLsb' 1 7 ∧ (addrR a8).extractLsb' 1 7 = a8.extractLsb' 1 7

/-- R149: byte k of n is read with ACK exactly when k < n - 1. -/
def Obligations.AllBytesButTheLastAreAcknowledged : Prop :=
  ∀ k n : BitVec 16, k.toNat < n.toNat → (moreBytes k n = true ↔ k.toNat < n.toNat - 1)

/-- R205: the elapsed time is `(t - T0) mod 2^TICK_W`, compared unsigned with `to`. With T0 and t the low `TICK_W` bits of an
unwrapped counter it is the counter's increase modulo `2^TICK_W`: right across one wrap, and of `2^TICK_W` ticks or more only
the remainder is seen. -/
def Obligations.ElapsedTimeIsRightAcrossAWrap : Prop :=
  (∀ (w t t0 : Nat), t0 < 2 ^ w → (elapsed w t t0 : Int) = ((t : Int) - (t0 : Int)) % (2 ^ w : Int)) ∧
  ∀ (w u0 u : Nat) (timeout : BitVec 16), u0 ≤ u →
    elapsed w (u % 2 ^ w) (u0 % 2 ^ w) = (u - u0) % 2 ^ w ∧
    (u - u0 < 2 ^ w → elapsed w (u % 2 ^ w) (u0 % 2 ^ w) = u - u0) ∧
    (timeoutReached w (u % 2 ^ w) (u0 % 2 ^ w) timeout = true ↔ timeout.toNat ≤ (u - u0) % 2 ^ w)

/-- R76: the fields of the response word. -/
def Obligations.ResponseWordFields : Prop :=
  ∀ (st : Status) (rd : Byte),
    respStatus (respWord st rd) = st.code ∧ respRdata (respWord st rd) = rd ∧
    (respWord st rd).extractLsb' 2 6 = 0 ∧
    Status.ok.code = 1 ∧ Status.fail.code = 2 ∧ Status.illegal.code = 3 ∧ respStatus State.reset.resp = 0

/-- R209: the tick source's laws, which the model's tick source keeps (log entry 7). Law 1: in no step of a command does U
decrease, and a TICK's answer is its low `TICK_W` bits. Law 2: from the TICK before it to a time check's TICK, U grows by at most
`2^TICK_W - to`, with the command's own timeout: the check's step brings the increase, and no step but a TICK moves U. Law 3: along
TICKs, whatever limits not 0 law 2 sets them, U passes every bound. -/
def Obligations.TickSourceKeepsItsLaws : Prop :=
  (∀ (i : Instr) (s t : State), exec i s = .next t →
    s.env.tickNow ≤ t.env.tickNow ∧
    (∀ τ, t.trace = .tick τ :: s.trace → τ = t.env.tickNow % 2 ^ s.cfg.tickW) ∧
    ((∀ τ, t.trace ≠ .tick τ :: s.trace) → t.env.tickNow = s.env.tickNow) ∧
    (∀ site, Running s → s.ctrl = .call site .check →
      t.env.tickNow ≤ s.env.tickNow + (2 ^ s.cfg.tickW - i.timeout.toNat))) ∧
  (∀ (limits : Nat → Option Nat) (s : State) (bound : Nat), (∀ n, limits n ≠ some 0) →
    ∃ n, bound ≤ (ticksTaken limits n s).env.tickNow)
end

