-- ==== Sys2Proof/Laws/Encoding.lean ====
section
/-! SUPPORT. The fields of a command word, read back from `layout` (R71). -/

namespace Sys2Proof

@[simp] theorem opField_layout (h : BitVec 32) (k : Bool) (r a : Byte) (b o : BitVec 4) :
    opField (layout h k r a b o) = o := by
  unfold opField layout
  ext j hj
  simp (disch := omega) [decide_eq_true]

@[simp] theorem busField_layout (h : BitVec 32) (k : Bool) (r a : Byte) (b o : BitVec 4) :
    busField (layout h k r a b o) = b := by
  unfold busField layout
  ext j hj
  simp (disch := omega) [decide_eq_true, BitVec.getLsbD_of_ge]

@[simp] theorem a8Field_layout (h : BitVec 32) (k : Bool) (r a : Byte) (b o : BitVec 4) :
    a8Field (layout h k r a b o) = a := by
  unfold a8Field layout
  ext j hj
  simp (disch := omega) [decide_eq_true, decide_eq_false, BitVec.getLsbD_of_ge]

@[simp] theorem regField_layout (h : BitVec 32) (k : Bool) (r a : Byte) (b o : BitVec 4) :
    regField (layout h k r a b o) = r := by
  unfold regField layout
  ext j hj
  simp (disch := omega) [decide_eq_true, decide_eq_false, BitVec.getLsbD_of_ge]

@[simp] theorem ackField_layout (h : BitVec 32) (k : Bool) (r a : Byte) (b o : BitVec 4) :
    ackField (layout h k r a b o) = k := by
  unfold ackField layout
  simp

@[simp] theorem delayField_layout (h : BitVec 32) (k : Bool) (r a : Byte) (b o : BitVec 4) :
    delayField (layout h k r a b o) = h := by
  unfold delayField layout
  ext j hj
  simp (disch := omega) [decide_eq_false, BitVec.getLsbD_of_ge]

theorem low_timeoutLen (t n : BitVec 16) : (timeoutLen t n).extractLsb' 0 16 = n := by
  unfold timeoutLen
  ext j hj
  simp [hj]
  omega

theorem high_timeoutLen (t n : BitVec 16) : (timeoutLen t n).extractLsb' 16 16 = t := by
  unfold timeoutLen
  ext j hj
  simp (disch := omega) [BitVec.getLsbD_of_ge]

/-- LEN and TIMEOUT are the halves of DELAY (R75). -/
theorem lenField_eq (w : Word) : lenField w = (delayField w).extractLsb' 0 16 := by
  unfold lenField delayField
  ext j hj
  simp (disch := omega)

theorem timeoutField_eq (w : Word) : timeoutField w = (delayField w).extractLsb' 16 16 := by
  unfold timeoutField delayField
  ext j hj
  simp (disch := omega)
  congr 1
  omega

@[simp] theorem lenField_layout (t n : BitVec 16) (k : Bool) (r a : Byte) (b o : BitVec 4) :
    lenField (layout (timeoutLen t n) k r a b o) = n := by
  rw [lenField_eq, delayField_layout, low_timeoutLen]

@[simp] theorem timeoutField_layout (t n : BitVec 16) (k : Bool) (r a : Byte) (b o : BitVec 4) :
    timeoutField (layout (timeoutLen t n) k r a b o) = t := by
  rw [timeoutField_eq, delayField_layout, high_timeoutLen]

/-- The reserved bits 31:25 of R71. -/
def rsvBits : Word := 0x00000000FE000000

/-- Each bit of a laid-out word. -/
theorem layout_getLsbD (h : BitVec 32) (k : Bool) (r a : Byte) (b o : BitVec 4) (j : Nat) (hj : j < 64) :
    (layout h k r a b o).getLsbD j =
      if j < 4 then o.getLsbD j
      else if j < 8 then b.getLsbD (j - 4)
      else if j < 16 then a.getLsbD (j - 8)
      else if j < 24 then r.getLsbD (j - 16)
      else if j = 24 then k
      else if j < 32 then false
      else h.getLsbD (j - 32) := by
  simp only [layout, BitVec.getLsbD_or, BitVec.getLsbD_shiftLeft, BitVec.getLsbD_setWidth, BitVec.getLsbD_ofBool]
  split_ifs <;> simp (disch := omega) [decide_eq_true, decide_eq_false, BitVec.getLsbD_of_ge]

theorem rsvBits_getLsbD : ∀ j < 64, rsvBits.getLsbD j = decide (25 ≤ j ∧ j < 32) := by decide

/-- A word is its fields and its reserved bits. -/
theorem layout_fields (w : Word) :
    layout (delayField w) (ackField w) (regField w) (a8Field w) (busField w) (opField w) ||| (w &&& rsvBits) = w := by
  apply BitVec.eq_of_getLsbD_eq
  intro j hj
  rw [BitVec.getLsbD_or, layout_getLsbD _ _ _ _ _ _ _ hj, BitVec.getLsbD_and, rsvBits_getLsbD j hj]
  simp only [delayField, ackField, regField, a8Field, busField, opField, BitVec.getLsbD_extractLsb']
  split_ifs <;> simp (disch := omega) [decide_eq_true, decide_eq_false]
  subst j
  rfl

/-- Masking a laid-out word masks its fields. -/
theorem layout_and (h h' : BitVec 32) (k k' : Bool) (r r' a a' : Byte) (b b' o o' : BitVec 4) :
    layout h k r a b o &&& (layout h' k' r' a' b' o' ||| rsvBits) =
      layout (h &&& h') (k && k') (r &&& r') (a &&& a') (b &&& b') (o &&& o') := by
  apply BitVec.eq_of_getLsbD_eq
  intro j hj
  rw [BitVec.getLsbD_and, BitVec.getLsbD_or, layout_getLsbD _ _ _ _ _ _ _ hj, layout_getLsbD _ _ _ _ _ _ _ hj,
    layout_getLsbD _ _ _ _ _ _ _ hj, rsvBits_getLsbD j hj]
  split_ifs <;> simp (disch := omega) [decide_eq_true, decide_eq_false]

theorem timeoutLen_halves (d : BitVec 32) : timeoutLen (d.extractLsb' 16 16) (d.extractLsb' 0 16) = d := by
  unfold timeoutLen
  ext j hj
  by_cases h : j < 16
  · simp [hj, h]
  · simp (disch := omega) [h, BitVec.getLsbD_of_ge]

/-- DELAY is TIMEOUT and LEN (R75). -/
theorem delayField_eq (w : Word) : delayField w = timeoutLen (timeoutField w) (lenField w) := by
  rw [lenField_eq, timeoutField_eq, timeoutLen_halves]

/-- `decode`'s answer, by the opcode's mask. -/
theorem decode_of_mask {w : Word} {op : BitVec 4} {mask : Word} (ho : opField w = op) (hm : maskOf op = some mask)
    (hw : w &&& mask = matchOf op) :
    decode w = match fromFields w with
      | some i => .ok i
      | none => .error .reservedOpcode := by
  subst ho
  unfold decode
  rw [hm]
  cases fromFields w <;> simp [hw]

end Sys2Proof
end

