-- ==== Sys2Proof/Laws/Memory.lean ====
section
/-! SUPPORT. The buffer's operations: they keep the canonical form; a read after a write. -/

namespace Sys2Proof.Machine

theorem above_of_le {j k : Nat} {m : Memory} (h : j ≤ k) (hm : Memory.above k m = true) :
    Memory.above j m = true := by
  simp only [Memory.above, List.all_eq_true, decide_eq_true_eq] at *
  exact fun c hc => Nat.le_trans h (hm c hc)

@[simp] theorem above_nil (k : Nat) : Memory.above k [] = true := rfl

@[simp] theorem above_cell (j a : Nat) (v : Byte) (m : Memory) :
    Memory.above j ((a, v) :: m) = (decide (j ≤ a) && Memory.above j m) := by
  simp [Memory.above]

theorem above_cons {j k : Nat} {v : Byte} {m : Memory} (h : j ≤ k) (hm : Memory.above j m = true) :
    Memory.above j (Memory.cons k v m) = true := by
  unfold Memory.cons
  split <;> simp_all

theorem wf_cons {k : Nat} {v : Byte} {m : Memory} (hk : Memory.above (k + 1) m = true)
    (hm : Memory.wf m = true) : Memory.wf (Memory.cons k v m) = true := by
  unfold Memory.cons
  split <;> simp_all [Memory.wf]

theorem above_write {j k : Nat} {v : Byte} {m : Memory} (h : j ≤ k) (hm : Memory.above j m = true) :
    Memory.above j (Memory.write m k v) = true := by
  induction m with
  | nil => exact above_cons h (above_nil j)
  | cons c m ih =>
    obtain ⟨a, u⟩ := c
    have hm' := hm
    rw [above_cell, Bool.and_eq_true] at hm'
    simp only [Memory.write]
    split
    · exact above_cons h hm
    · split
      · exact above_cons h hm'.2
      · rw [above_cell, Bool.and_eq_true]
        exact ⟨hm'.1, ih hm'.2⟩

/-- A write keeps the canonical form. -/
theorem wf_write {k : Nat} {v : Byte} {m : Memory} (hm : Memory.wf m = true) :
    Memory.wf (Memory.write m k v) = true := by
  induction m with
  | nil => exact wf_cons (above_nil _) rfl
  | cons c m ih =>
    obtain ⟨a, u⟩ := c
    have h := hm
    simp only [Memory.wf, Bool.and_eq_true, decide_eq_true_eq] at h
    simp only [Memory.write]
    split
    · refine wf_cons ?_ hm
      rw [above_cell, Bool.and_eq_true, decide_eq_true_eq]
      exact ⟨by omega, above_of_le (by omega) h.1.2⟩
    · split
      · rename_i hk
        subst hk
        exact wf_cons h.1.2 h.2
      · simp only [Memory.wf, Bool.and_eq_true, decide_eq_true_eq]
        exact ⟨⟨h.1.1, above_write (by omega) h.1.2⟩, ih h.2⟩

theorem above_ofBytes (k : Nat) (bs : List Byte) : Memory.above k (Memory.ofBytes k bs) = true := by
  induction bs generalizing k with
  | nil => rfl
  | cons v bs ih => exact above_cons (Nat.le_refl k) (above_of_le (Nat.le_succ k) (ih (k + 1)))

/-- A buffer made of bytes has the canonical form. -/
theorem wf_ofBytes (k : Nat) (bs : List Byte) : Memory.wf (Memory.ofBytes k bs) = true := by
  induction bs generalizing k with
  | nil => rfl
  | cons v bs ih => exact wf_cons (above_ofBytes (k + 1) bs) (ih (k + 1))

/-- Below every listed index a buffer reads as unlisted. -/
theorem read_of_above {k : Nat} {m : Memory} (h : Memory.above (k + 1) m = true) :
    Memory.read m k = Memory.unlisted := by
  induction m with
  | nil => rfl
  | cons c m ih =>
    obtain ⟨a, u⟩ := c
    rw [above_cell, Bool.and_eq_true, decide_eq_true_eq] at h
    simp only [Memory.read]
    rw [if_neg (by omega), ih h.2]

theorem read_cons_same {k : Nat} {v : Byte} {m : Memory} (h : Memory.above (k + 1) m = true) :
    Memory.read (Memory.cons k v m) k = v := by
  unfold Memory.cons
  split
  · rename_i hv
    rw [read_of_above h, hv]
  · simp [Memory.read]

theorem read_cons_other {j k : Nat} {v : Byte} {m : Memory} (h : j ≠ k) :
    Memory.read (Memory.cons k v m) j = Memory.read m j := by
  unfold Memory.cons
  split
  · rfl
  · simp [Memory.read, Ne.symm h]

/-- A read after a write to the same index gives the byte written. -/
theorem read_write_same {k : Nat} {v : Byte} {m : Memory} (hm : Memory.wf m = true) :
    Memory.read (Memory.write m k v) k = v := by
  induction m with
  | nil => exact read_cons_same (above_nil _)
  | cons c m ih =>
    obtain ⟨a, u⟩ := c
    have h := hm
    simp only [Memory.wf, Bool.and_eq_true, decide_eq_true_eq] at h
    simp only [Memory.write]
    split
    · refine read_cons_same ?_
      rw [above_cell, Bool.and_eq_true, decide_eq_true_eq]
      exact ⟨by omega, above_of_le (by omega) h.1.2⟩
    · split
      · rename_i hk
        subst hk
        exact read_cons_same h.1.2
      · rename_i hk
        simp only [Memory.read]
        rw [if_neg hk, ih h.2]

/-- A write leaves every other index alone. -/
theorem read_write_other {j k : Nat} {v : Byte} {m : Memory} (h : j ≠ k) :
    Memory.read (Memory.write m k v) j = Memory.read m j := by
  induction m with
  | nil => exact read_cons_other h
  | cons c m ih =>
    obtain ⟨a, u⟩ := c
    simp only [Memory.write]
    split
    · exact read_cons_other h
    · split
      · rename_i hk
        subst hk
        rw [read_cons_other h]
        simp [Memory.read, Ne.symm h]
      · simp only [Memory.read, ih]

/-- A buffer made of bytes reads as those bytes, in index order. -/
theorem read_ofBytes (k : Nat) (bs : List Byte) (j : Nat) :
    Memory.read (Memory.ofBytes k bs) (k + j) = bs.getD j Memory.unlisted := by
  induction bs generalizing k j with
  | nil => simp [Memory.ofBytes, Memory.read]
  | cons v bs ih =>
    cases j with
    | zero => simpa [Memory.ofBytes] using read_cons_same (above_ofBytes (k + 1) bs)
    | succ j =>
      rw [Memory.ofBytes, read_cons_other (by omega), show k + (j + 1) = k + 1 + j by omega, ih (k + 1) j]
      simp

end Sys2Proof.Machine
end

