-- ==== Sys2Proof/Laws/State.lean ====
section
/-! SUPPORT. Each field of the state after each named update. -/

namespace Sys2Proof.Machine

/-! `emit` -/

@[simp] theorem emit_cfg (s : State) (e : Event) : (s.emit e).cfg = s.cfg := rfl
@[simp] theorem emit_buses (s : State) (e : Event) : (s.emit e).buses = s.buses := rfl
@[simp] theorem emit_busy (s : State) (e : Event) : (s.emit e).busy = s.busy := rfl
@[simp] theorem emit_cmd (s : State) (e : Event) : (s.emit e).cmd = s.cmd := rfl
@[simp] theorem emit_phase (s : State) (e : Event) : (s.emit e).phase = s.phase := rfl
@[simp] theorem emit_shift (s : State) (e : Event) : (s.emit e).shift = s.shift := rfl
@[simp] theorem emit_bitCnt (s : State) (e : Event) : (s.emit e).bitCnt = s.bitCnt := rfl
@[simp] theorem emit_byteIdx (s : State) (e : Event) : (s.emit e).byteIdx = s.byteIdx := rfl
@[simp] theorem emit_t0 (s : State) (e : Event) : (s.emit e).t0 = s.t0 := rfl
@[simp] theorem emit_ackOk (s : State) (e : Event) : (s.emit e).ackOk = s.ackOk := rfl
@[simp] theorem emit_csHeld (s : State) (e : Event) : (s.emit e).csHeld = s.csHeld := rfl
@[simp] theorem emit_resp (s : State) (e : Event) : (s.emit e).resp = s.resp := rfl
@[simp] theorem emit_refused (s : State) (e : Event) : (s.emit e).refused = s.refused := rfl
@[simp] theorem emit_ctrl (s : State) (e : Event) : (s.emit e).ctrl = s.ctrl := rfl
@[simp] theorem emit_buf (s : State) (e : Event) : (s.emit e).buf = s.buf := rfl
@[simp] theorem emit_done (s : State) (e : Event) : (s.emit e).done = s.done := rfl
@[simp] theorem emit_trace (s : State) (e : Event) : (s.emit e).trace = e :: s.trace := rfl
@[simp] theorem emit_host (s : State) (e : Event) : (s.emit e).host = s.host := rfl
@[simp] theorem emit_env (s : State) (e : Event) : (s.emit e).env = s.env := rfl

/-! `goto` -/

@[simp] theorem goto_cfg (s : State) (c : Ctrl) : (s.goto c).cfg = s.cfg := rfl
@[simp] theorem goto_buses (s : State) (c : Ctrl) : (s.goto c).buses = s.buses := rfl
@[simp] theorem goto_busy (s : State) (c : Ctrl) : (s.goto c).busy = s.busy := rfl
@[simp] theorem goto_cmd (s : State) (c : Ctrl) : (s.goto c).cmd = s.cmd := rfl
@[simp] theorem goto_phase (s : State) (c : Ctrl) : (s.goto c).phase = s.phase := rfl
@[simp] theorem goto_shift (s : State) (c : Ctrl) : (s.goto c).shift = s.shift := rfl
@[simp] theorem goto_bitCnt (s : State) (c : Ctrl) : (s.goto c).bitCnt = s.bitCnt := rfl
@[simp] theorem goto_byteIdx (s : State) (c : Ctrl) : (s.goto c).byteIdx = s.byteIdx := rfl
@[simp] theorem goto_t0 (s : State) (c : Ctrl) : (s.goto c).t0 = s.t0 := rfl
@[simp] theorem goto_ackOk (s : State) (c : Ctrl) : (s.goto c).ackOk = s.ackOk := rfl
@[simp] theorem goto_csHeld (s : State) (c : Ctrl) : (s.goto c).csHeld = s.csHeld := rfl
@[simp] theorem goto_resp (s : State) (c : Ctrl) : (s.goto c).resp = s.resp := rfl
@[simp] theorem goto_refused (s : State) (c : Ctrl) : (s.goto c).refused = s.refused := rfl
@[simp] theorem goto_ctrl (s : State) (c : Ctrl) : (s.goto c).ctrl = c := rfl
@[simp] theorem goto_buf (s : State) (c : Ctrl) : (s.goto c).buf = s.buf := rfl
@[simp] theorem goto_done (s : State) (c : Ctrl) : (s.goto c).done = s.done := rfl
@[simp] theorem goto_trace (s : State) (c : Ctrl) : (s.goto c).trace = s.trace := rfl
@[simp] theorem goto_host (s : State) (c : Ctrl) : (s.goto c).host = s.host := rfl
@[simp] theorem goto_env (s : State) (c : Ctrl) : (s.goto c).env = s.env := rfl

/-! `setPhase` -/

@[simp] theorem setPhase_cfg (s : State) (p : Phase) : (s.setPhase p).cfg = s.cfg := rfl
@[simp] theorem setPhase_buses (s : State) (p : Phase) : (s.setPhase p).buses = s.buses := rfl
@[simp] theorem setPhase_busy (s : State) (p : Phase) : (s.setPhase p).busy = s.busy := rfl
@[simp] theorem setPhase_cmd (s : State) (p : Phase) : (s.setPhase p).cmd = s.cmd := rfl
@[simp] theorem setPhase_phase (s : State) (p : Phase) : (s.setPhase p).phase = p := rfl
@[simp] theorem setPhase_shift (s : State) (p : Phase) : (s.setPhase p).shift = s.shift := rfl
@[simp] theorem setPhase_bitCnt (s : State) (p : Phase) : (s.setPhase p).bitCnt = s.bitCnt := rfl
@[simp] theorem setPhase_byteIdx (s : State) (p : Phase) : (s.setPhase p).byteIdx = s.byteIdx := rfl
@[simp] theorem setPhase_t0 (s : State) (p : Phase) : (s.setPhase p).t0 = s.t0 := rfl
@[simp] theorem setPhase_ackOk (s : State) (p : Phase) : (s.setPhase p).ackOk = s.ackOk := rfl
@[simp] theorem setPhase_csHeld (s : State) (p : Phase) : (s.setPhase p).csHeld = s.csHeld := rfl
@[simp] theorem setPhase_resp (s : State) (p : Phase) : (s.setPhase p).resp = s.resp := rfl
@[simp] theorem setPhase_refused (s : State) (p : Phase) : (s.setPhase p).refused = s.refused := rfl
@[simp] theorem setPhase_ctrl (s : State) (p : Phase) : (s.setPhase p).ctrl = s.ctrl := rfl
@[simp] theorem setPhase_buf (s : State) (p : Phase) : (s.setPhase p).buf = s.buf := rfl
@[simp] theorem setPhase_done (s : State) (p : Phase) : (s.setPhase p).done = s.done := rfl
@[simp] theorem setPhase_trace (s : State) (p : Phase) : (s.setPhase p).trace = s.trace := rfl
@[simp] theorem setPhase_host (s : State) (p : Phase) : (s.setPhase p).host = s.host := rfl
@[simp] theorem setPhase_env (s : State) (p : Phase) : (s.setPhase p).env = s.env := rfl

/-! `setBus` -/

@[simp] theorem setBus_cfg (s : State) (b : BusIx) (x : Bus) : (s.setBus b x).cfg = s.cfg := rfl
@[simp] theorem setBus_buses (s : State) (b : BusIx) (x : Bus) : (s.setBus b x).buses = s.buses.set b.toNat x b.isLt := rfl
@[simp] theorem setBus_busy (s : State) (b : BusIx) (x : Bus) : (s.setBus b x).busy = s.busy := rfl
@[simp] theorem setBus_cmd (s : State) (b : BusIx) (x : Bus) : (s.setBus b x).cmd = s.cmd := rfl
@[simp] theorem setBus_phase (s : State) (b : BusIx) (x : Bus) : (s.setBus b x).phase = s.phase := rfl
@[simp] theorem setBus_shift (s : State) (b : BusIx) (x : Bus) : (s.setBus b x).shift = s.shift := rfl
@[simp] theorem setBus_bitCnt (s : State) (b : BusIx) (x : Bus) : (s.setBus b x).bitCnt = s.bitCnt := rfl
@[simp] theorem setBus_byteIdx (s : State) (b : BusIx) (x : Bus) : (s.setBus b x).byteIdx = s.byteIdx := rfl
@[simp] theorem setBus_t0 (s : State) (b : BusIx) (x : Bus) : (s.setBus b x).t0 = s.t0 := rfl
@[simp] theorem setBus_ackOk (s : State) (b : BusIx) (x : Bus) : (s.setBus b x).ackOk = s.ackOk := rfl
@[simp] theorem setBus_csHeld (s : State) (b : BusIx) (x : Bus) : (s.setBus b x).csHeld = s.csHeld := rfl
@[simp] theorem setBus_resp (s : State) (b : BusIx) (x : Bus) : (s.setBus b x).resp = s.resp := rfl
@[simp] theorem setBus_refused (s : State) (b : BusIx) (x : Bus) : (s.setBus b x).refused = s.refused := rfl
@[simp] theorem setBus_ctrl (s : State) (b : BusIx) (x : Bus) : (s.setBus b x).ctrl = s.ctrl := rfl
@[simp] theorem setBus_buf (s : State) (b : BusIx) (x : Bus) : (s.setBus b x).buf = s.buf := rfl
@[simp] theorem setBus_done (s : State) (b : BusIx) (x : Bus) : (s.setBus b x).done = s.done := rfl
@[simp] theorem setBus_trace (s : State) (b : BusIx) (x : Bus) : (s.setBus b x).trace = s.trace := rfl
@[simp] theorem setBus_host (s : State) (b : BusIx) (x : Bus) : (s.setBus b x).host = s.host := rfl
@[simp] theorem setBus_env (s : State) (b : BusIx) (x : Bus) : (s.setBus b x).env = s.env := rfl

/-! `hostWaits` -/

@[simp] theorem hostWaits_cfg (s : State) : (s.hostWaits).cfg = s.cfg := rfl
@[simp] theorem hostWaits_buses (s : State) : (s.hostWaits).buses = s.buses := rfl
@[simp] theorem hostWaits_busy (s : State) : (s.hostWaits).busy = s.busy := rfl
@[simp] theorem hostWaits_cmd (s : State) : (s.hostWaits).cmd = s.cmd := rfl
@[simp] theorem hostWaits_phase (s : State) : (s.hostWaits).phase = s.phase := rfl
@[simp] theorem hostWaits_shift (s : State) : (s.hostWaits).shift = s.shift := rfl
@[simp] theorem hostWaits_bitCnt (s : State) : (s.hostWaits).bitCnt = s.bitCnt := rfl
@[simp] theorem hostWaits_byteIdx (s : State) : (s.hostWaits).byteIdx = s.byteIdx := rfl
@[simp] theorem hostWaits_t0 (s : State) : (s.hostWaits).t0 = s.t0 := rfl
@[simp] theorem hostWaits_ackOk (s : State) : (s.hostWaits).ackOk = s.ackOk := rfl
@[simp] theorem hostWaits_csHeld (s : State) : (s.hostWaits).csHeld = s.csHeld := rfl
@[simp] theorem hostWaits_resp (s : State) : (s.hostWaits).resp = s.resp := rfl
@[simp] theorem hostWaits_refused (s : State) : (s.hostWaits).refused = s.refused := rfl
@[simp] theorem hostWaits_ctrl (s : State) : (s.hostWaits).ctrl = s.ctrl := rfl
@[simp] theorem hostWaits_buf (s : State) : (s.hostWaits).buf = s.buf := rfl
@[simp] theorem hostWaits_done (s : State) : (s.hostWaits).done = s.done := rfl
@[simp] theorem hostWaits_trace (s : State) : (s.hostWaits).trace = s.trace := rfl
@[simp] theorem hostWaits_host (s : State) : (s.hostWaits).host = waitedMoves s.host := rfl
@[simp] theorem hostWaits_env (s : State) : (s.hostWaits).env = s.env := rfl

/-! `collaboratorDone` -/

@[simp] theorem collaboratorDone_cfg (s : State) : (collaboratorDone s).cfg = s.cfg := rfl
@[simp] theorem collaboratorDone_buses (s : State) : (collaboratorDone s).buses = s.buses := rfl
@[simp] theorem collaboratorDone_busy (s : State) : (collaboratorDone s).busy = s.busy := rfl
@[simp] theorem collaboratorDone_cmd (s : State) : (collaboratorDone s).cmd = s.cmd := rfl
@[simp] theorem collaboratorDone_phase (s : State) : (collaboratorDone s).phase = s.phase := rfl
@[simp] theorem collaboratorDone_shift (s : State) : (collaboratorDone s).shift = s.shift := rfl
@[simp] theorem collaboratorDone_bitCnt (s : State) : (collaboratorDone s).bitCnt = s.bitCnt := rfl
@[simp] theorem collaboratorDone_byteIdx (s : State) : (collaboratorDone s).byteIdx = s.byteIdx := rfl
@[simp] theorem collaboratorDone_t0 (s : State) : (collaboratorDone s).t0 = s.t0 := rfl
@[simp] theorem collaboratorDone_ackOk (s : State) : (collaboratorDone s).ackOk = s.ackOk := rfl
@[simp] theorem collaboratorDone_csHeld (s : State) : (collaboratorDone s).csHeld = s.csHeld := rfl
@[simp] theorem collaboratorDone_resp (s : State) : (collaboratorDone s).resp = s.resp := rfl
@[simp] theorem collaboratorDone_refused (s : State) : (collaboratorDone s).refused = s.refused := rfl
@[simp] theorem collaboratorDone_ctrl (s : State) : (collaboratorDone s).ctrl = s.ctrl := rfl
@[simp] theorem collaboratorDone_buf (s : State) : (collaboratorDone s).buf = s.buf := rfl
@[simp] theorem collaboratorDone_done (s : State) : (collaboratorDone s).done = s.done := rfl
@[simp] theorem collaboratorDone_trace (s : State) : (collaboratorDone s).trace = s.trace := rfl
@[simp] theorem collaboratorDone_host (s : State) : (collaboratorDone s).host = s.host := rfl
@[simp] theorem collaboratorDone_env (s : State) : (collaboratorDone s).env = { s.env with waits := s.env.waits.tail } := rfl

/-! `call` -/

@[simp] theorem call_cfg (site : Site) (p : Pos) (s : State) : (call site p s).cfg = s.cfg := rfl
@[simp] theorem call_buses (site : Site) (p : Pos) (s : State) : (call site p s).buses = s.buses := rfl
@[simp] theorem call_busy (site : Site) (p : Pos) (s : State) : (call site p s).busy = s.busy := rfl
@[simp] theorem call_cmd (site : Site) (p : Pos) (s : State) : (call site p s).cmd = s.cmd := rfl
@[simp] theorem call_phase (site : Site) (p : Pos) (s : State) : (call site p s).phase = s.phase := rfl
@[simp] theorem call_shift (site : Site) (p : Pos) (s : State) : (call site p s).shift = s.shift := rfl
@[simp] theorem call_bitCnt (site : Site) (p : Pos) (s : State) : (call site p s).bitCnt = s.bitCnt := rfl
@[simp] theorem call_byteIdx (site : Site) (p : Pos) (s : State) : (call site p s).byteIdx = s.byteIdx := rfl
@[simp] theorem call_t0 (site : Site) (p : Pos) (s : State) : (call site p s).t0 = s.t0 := rfl
@[simp] theorem call_ackOk (site : Site) (p : Pos) (s : State) : (call site p s).ackOk = s.ackOk := rfl
@[simp] theorem call_csHeld (site : Site) (p : Pos) (s : State) : (call site p s).csHeld = s.csHeld := rfl
@[simp] theorem call_resp (site : Site) (p : Pos) (s : State) : (call site p s).resp = s.resp := rfl
@[simp] theorem call_refused (site : Site) (p : Pos) (s : State) : (call site p s).refused = s.refused := rfl
@[simp] theorem call_ctrl (site : Site) (p : Pos) (s : State) : (call site p s).ctrl = .call site p := rfl
@[simp] theorem call_buf (site : Site) (p : Pos) (s : State) : (call site p s).buf = s.buf := rfl
@[simp] theorem call_done (site : Site) (p : Pos) (s : State) : (call site p s).done = s.done := rfl
@[simp] theorem call_trace (site : Site) (p : Pos) (s : State) : (call site p s).trace = s.trace := rfl
@[simp] theorem call_host (site : Site) (p : Pos) (s : State) : (call site p s).host = s.host := rfl
@[simp] theorem call_env (site : Site) (p : Pos) (s : State) : (call site p s).env = s.env := rfl

/-! `callSend` -/

@[simp] theorem callSend_cfg (site : Site) (v : Byte) (s : State) : (callSend site v s).cfg = s.cfg := rfl
@[simp] theorem callSend_buses (site : Site) (v : Byte) (s : State) : (callSend site v s).buses = s.buses := rfl
@[simp] theorem callSend_busy (site : Site) (v : Byte) (s : State) : (callSend site v s).busy = s.busy := rfl
@[simp] theorem callSend_cmd (site : Site) (v : Byte) (s : State) : (callSend site v s).cmd = s.cmd := rfl
@[simp] theorem callSend_phase (site : Site) (v : Byte) (s : State) : (callSend site v s).phase = s.phase := rfl
@[simp] theorem callSend_shift (site : Site) (v : Byte) (s : State) : (callSend site v s).shift = v := rfl
@[simp] theorem callSend_bitCnt (site : Site) (v : Byte) (s : State) : (callSend site v s).bitCnt = s.bitCnt := rfl
@[simp] theorem callSend_byteIdx (site : Site) (v : Byte) (s : State) : (callSend site v s).byteIdx = s.byteIdx := rfl
@[simp] theorem callSend_t0 (site : Site) (v : Byte) (s : State) : (callSend site v s).t0 = s.t0 := rfl
@[simp] theorem callSend_ackOk (site : Site) (v : Byte) (s : State) : (callSend site v s).ackOk = s.ackOk := rfl
@[simp] theorem callSend_csHeld (site : Site) (v : Byte) (s : State) : (callSend site v s).csHeld = s.csHeld := rfl
@[simp] theorem callSend_resp (site : Site) (v : Byte) (s : State) : (callSend site v s).resp = s.resp := rfl
@[simp] theorem callSend_refused (site : Site) (v : Byte) (s : State) : (callSend site v s).refused = s.refused := rfl
@[simp] theorem callSend_ctrl (site : Site) (v : Byte) (s : State) : (callSend site v s).ctrl = .call site sendPos := rfl
@[simp] theorem callSend_buf (site : Site) (v : Byte) (s : State) : (callSend site v s).buf = s.buf := rfl
@[simp] theorem callSend_done (site : Site) (v : Byte) (s : State) : (callSend site v s).done = s.done := rfl
@[simp] theorem callSend_trace (site : Site) (v : Byte) (s : State) : (callSend site v s).trace = s.trace := rfl
@[simp] theorem callSend_host (site : Site) (v : Byte) (s : State) : (callSend site v s).host = s.host := rfl
@[simp] theorem callSend_env (site : Site) (v : Byte) (s : State) : (callSend site v s).env = s.env := rfl

/-! `takeBuffer` -/

@[simp] theorem takeBuffer_cfg (i : Instr) (data : List Byte) (s : State) :
    (takeBuffer i data s).cfg = s.cfg := by unfold takeBuffer; split <;> rfl
@[simp] theorem takeBuffer_buses (i : Instr) (data : List Byte) (s : State) :
    (takeBuffer i data s).buses = s.buses := by unfold takeBuffer; split <;> rfl
@[simp] theorem takeBuffer_busy (i : Instr) (data : List Byte) (s : State) :
    (takeBuffer i data s).busy = s.busy := by unfold takeBuffer; split <;> rfl
@[simp] theorem takeBuffer_cmd (i : Instr) (data : List Byte) (s : State) :
    (takeBuffer i data s).cmd = s.cmd := by unfold takeBuffer; split <;> rfl
@[simp] theorem takeBuffer_phase (i : Instr) (data : List Byte) (s : State) :
    (takeBuffer i data s).phase = s.phase := by unfold takeBuffer; split <;> rfl
@[simp] theorem takeBuffer_shift (i : Instr) (data : List Byte) (s : State) :
    (takeBuffer i data s).shift = s.shift := by unfold takeBuffer; split <;> rfl
@[simp] theorem takeBuffer_bitCnt (i : Instr) (data : List Byte) (s : State) :
    (takeBuffer i data s).bitCnt = s.bitCnt := by unfold takeBuffer; split <;> rfl
@[simp] theorem takeBuffer_byteIdx (i : Instr) (data : List Byte) (s : State) :
    (takeBuffer i data s).byteIdx = s.byteIdx := by unfold takeBuffer; split <;> rfl
@[simp] theorem takeBuffer_t0 (i : Instr) (data : List Byte) (s : State) :
    (takeBuffer i data s).t0 = s.t0 := by unfold takeBuffer; split <;> rfl
@[simp] theorem takeBuffer_ackOk (i : Instr) (data : List Byte) (s : State) :
    (takeBuffer i data s).ackOk = s.ackOk := by unfold takeBuffer; split <;> rfl
@[simp] theorem takeBuffer_csHeld (i : Instr) (data : List Byte) (s : State) :
    (takeBuffer i data s).csHeld = s.csHeld := by unfold takeBuffer; split <;> rfl
@[simp] theorem takeBuffer_resp (i : Instr) (data : List Byte) (s : State) :
    (takeBuffer i data s).resp = s.resp := by unfold takeBuffer; split <;> rfl
@[simp] theorem takeBuffer_refused (i : Instr) (data : List Byte) (s : State) :
    (takeBuffer i data s).refused = s.refused := by unfold takeBuffer; split <;> rfl
@[simp] theorem takeBuffer_ctrl (i : Instr) (data : List Byte) (s : State) :
    (takeBuffer i data s).ctrl = s.ctrl := by unfold takeBuffer; split <;> rfl
@[simp] theorem takeBuffer_done (i : Instr) (data : List Byte) (s : State) :
    (takeBuffer i data s).done = s.done := by unfold takeBuffer; split <;> rfl
@[simp] theorem takeBuffer_trace (i : Instr) (data : List Byte) (s : State) :
    (takeBuffer i data s).trace = s.trace := by unfold takeBuffer; split <;> rfl
@[simp] theorem takeBuffer_host (i : Instr) (data : List Byte) (s : State) :
    (takeBuffer i data s).host = s.host := by unfold takeBuffer; split <;> rfl
@[simp] theorem takeBuffer_env (i : Instr) (data : List Byte) (s : State) :
    (takeBuffer i data s).env = s.env := by unfold takeBuffer; split <;> rfl
theorem takeBuffer_buf (i : Instr) (data : List Byte) (s : State) :
    (takeBuffer i data s).buf = if hasBuffer i then Memory.ofBytes 0 (data.take (bufferLen i)) else s.buf := by
  unfold takeBuffer; split <;> rfl

end Sys2Proof.Machine
end

