-- ==== Sys2Proof/Laws/Ops.lean ====
section
/-! SUPPORT. What each shared operation can do: the per-bus state, the events, the collaborators' answers, the accept and
the respond. -/

namespace Sys2Proof.Machine

/-! ## Per-bus state -/

theorem toNat_ne {b c : BusIx} (h : c ≠ b) : b.toNat ≠ c.toNat := fun e => h (BitVec.eq_of_toNat_eq e.symm)

@[simp] theorem bus_setBus_same (s : State) (b : BusIx) (x : Bus) : (s.setBus b x).bus b = x := by
  simp [State.bus, State.setBus]

theorem bus_setBus_other (s : State) {b c : BusIx} (x : Bus) (h : c ≠ b) : (s.setBus b x).bus c = s.bus c := by
  simp [State.bus, State.setBus, toNat_ne h]

theorem bus_congr {s t : State} (h : t.buses = s.buses) (b : BusIx) : t.bus b = s.bus b := by
  simp [State.bus, h]

@[simp] theorem bus_emit (s : State) (e : Event) (b : BusIx) : (s.emit e).bus b = s.bus b := rfl
@[simp] theorem bus_goto (s : State) (c : Ctrl) (b : BusIx) : (s.goto c).bus b = s.bus b := rfl
@[simp] theorem bus_setPhase (s : State) (p : Phase) (b : BusIx) : (s.setPhase p).bus b = s.bus b := rfl
@[simp] theorem bus_call (site : Site) (p : Pos) (s : State) (b : BusIx) : (call site p s).bus b = s.bus b := rfl
@[simp] theorem bus_callSend (site : Site) (v : Byte) (s : State) (b : BusIx) :
    (callSend site v s).bus b = s.bus b := rfl
@[simp] theorem bus_collaboratorDone (s : State) (b : BusIx) : (collaboratorDone s).bus b = s.bus b := rfl
@[simp] theorem bus_hostWaits (s : State) (b : BusIx) : s.hostWaits.bus b = s.bus b := rfl
@[simp] theorem bus_latchCommand (w : Word) (s : State) (b : BusIx) :
    (latchCommand w s).bus b = s.bus b := rfl
@[simp] theorem bus_takeBuffer (i : Instr) (data : List Byte) (s : State) (b : BusIx) :
    (takeBuffer i data s).bus b = s.bus b := by simp [State.bus]
@[simp] theorem bus_respond (n : Nat) (st : Status) (rd : Byte) (s : State) (b : BusIx) :
    (respond n st rd s).bus b = s.bus b := rfl

/-- Giving a bus the state it has changes nothing. -/
@[simp] theorem setBus_bus (s : State) (b : BusIx) : s.setBus b (s.bus b) = s := by
  simp [State.setBus, State.bus]

@[simp] theorem setBus_setBus (s : State) (b : BusIx) (x y : Bus) : (s.setBus b x).setBus b y = s.setBus b y := by
  simp [State.setBus]

/-- Changes of different buses may be made in either order. -/
theorem setBus_comm (s : State) {b c : BusIx} (x y : Bus) (h : c ≠ b) :
    (s.setBus b x).setBus c y = (s.setBus c y).setBus b x := by
  simp only [State.setBus]
  rw [Vector.set_comm x y (toNat_ne h)]

theorem getElem_mapBuses (f : Bus → Bus) (v : Vector Bus 16) (k : Nat) (h : k < 16) :
    (mapBuses f v)[k] = f v[k] := by
  simp [mapBuses]

/-- The same change on every bus. -/
theorem bus_mapBuses (f : Bus → Bus) (s : State) (b : BusIx) :
    State.bus { s with buses := mapBuses f s.buses } b = f (s.bus b) :=
  getElem_mapBuses f s.buses b.toNat b.isLt

/-! ## The collaborators -/

/-- A wait changes nothing but the wait itself. -/
theorem collaboratorWait_some {s t : State} (h : collaboratorWait s = some t) :
    ∃ n ws, s.env.waits = (n + 1) :: ws ∧ t = { s with env := { s.env with waits := n :: ws } } := by
  unfold collaboratorWait at h
  split at h
  · rename_i n ws hw
    exact ⟨n, ws, hw, by simpa using h.symm⟩
  · cases h

/-- There is no wait when none is imposed or the one imposed is over. -/
theorem collaboratorWait_none {s : State} :
    collaboratorWait s = none ↔ s.env.waits = [] ∨ ∃ ws, s.env.waits = 0 :: ws := by
  unfold collaboratorWait
  split
  · rename_i n ws hw
    simp [hw]
  · rename_i hw
    rcases hs : s.env.waits with _ | ⟨_ | n, ws⟩
    · simp
    · simp
    · exact absurd hs (hw n ws)

/-- A wait of a HOLD is a wait of the collaborator, on a bus whose delay is not 0. -/
theorem holdWait_some {b : BusIx} {s t : State} (h : holdWait b s = some t) :
    (s.bus b).bitDelayUs ≠ 0 ∧ collaboratorWait s = some t := by
  unfold holdWait at h
  split at h
  · cases h
  · rename_i hd
    exact ⟨hd, h⟩

/-- A HOLD with delay 0 does not wait (R183). -/
theorem holdWait_of_zero {b : BusIx} {s : State} (h : (s.bus b).bitDelayUs = 0) : holdWait b s = none := by
  simp [holdWait, h]

/-- A HOLD does not wait where the collaborator has no wait. -/
theorem holdWait_of_none {b : BusIx} {s : State} (h : collaboratorWait s = none) : holdWait b s = none := by
  simp [holdWait, h]

/-- Taking a SAMPLE answer leaves the tick source and the waits alone. -/
theorem nextSample_rest (e : Env) :
    (nextSample e).2.tickNow = e.tickNow ∧ (nextSample e).2.tickSteps = e.tickSteps ∧
    (nextSample e).2.tickNo = e.tickNo ∧ (nextSample e).2.tickStall = e.tickStall ∧
    (nextSample e).2.waits = e.waits := by
  unfold nextSample
  split <;> simp

/-- Taking a tick increase leaves the samples, the waits and U alone. -/
theorem nextTickStep_rest (e : Env) :
    (nextTickStep e).2.samples = e.samples ∧ (nextTickStep e).2.sampleNo = e.sampleNo ∧
    (nextTickStep e).2.waits = e.waits ∧ (nextTickStep e).2.tickNow = e.tickNow := by
  unfold nextTickStep
  split
  · simp
  · split <;> simp

/-- A SAMPLE writes the trace and takes an answer; nothing else. -/
theorem sampleEvent_eq (b : BusIx) (s : State) :
    sampleEvent b s = ((nextSample s.env).1,
      State.emit { s with env := (nextSample s.env).2 } (.sample b (nextSample s.env).1)) := rfl

/-- A TICK writes the trace and moves the tick source; nothing else. -/
theorem tickEvent_eq (limit : Option Nat) (s : State) :
    ∃ u, (tickEvent limit s).1 = u % 2 ^ s.cfg.tickW ∧
      (tickEvent limit s).2 =
        State.emit { s with env := { (nextTickStep s.env).2 with tickNow := u } }
          (.tick (u % 2 ^ s.cfg.tickW)) ∧
      s.env.tickNow ≤ u ∧ ∀ m, limit = some m → u ≤ s.env.tickNow + m := by
  have h := (nextTickStep_rest s.env).2.2.2
  refine ⟨(nextTickStep s.env).2.tickNow +
    (match limit with
      | some m => min (nextTickStep s.env).1 m
      | none => (nextTickStep s.env).1), rfl, rfl, by omega, ?_⟩
  rintro m rfl
  simp only [h]
  omega

/-! ## What a primitive leaves alone -/

/-- What no primitive on bus `b` touches (R100, R111). -/
structure Untouched (b : BusIx) (s t : State) : Prop where
  cfg : t.cfg = s.cfg
  busy : t.busy = s.busy
  cmd : t.cmd = s.cmd
  phase : t.phase = s.phase
  byteIdx : t.byteIdx = s.byteIdx
  csHeld : t.csHeld = s.csHeld
  resp : t.resp = s.resp
  refused : t.refused = s.refused
  ctrl : t.ctrl = s.ctrl
  buf : t.buf = s.buf
  done : t.done = s.done
  host : t.host = s.host
  delay : ∀ c, (t.bus c).bitDelayUs = (s.bus c).bitDelayUs
  otherBuses : ∀ c, c ≠ b → t.bus c = s.bus c

theorem Untouched.refl (b : BusIx) (s : State) : Untouched b s s :=
  ⟨rfl, rfl, rfl, rfl, rfl, rfl, rfl, rfl, rfl, rfl, rfl, rfl, fun _ => rfl, fun _ _ => rfl⟩

theorem Untouched.trans {b : BusIx} {s t u : State} (h : Untouched b s t) (k : Untouched b t u) : Untouched b s u :=
  ⟨k.cfg.trans h.cfg, k.busy.trans h.busy, k.cmd.trans h.cmd, k.phase.trans h.phase, k.byteIdx.trans h.byteIdx,
   k.csHeld.trans h.csHeld, k.resp.trans h.resp, k.refused.trans h.refused, k.ctrl.trans h.ctrl, k.buf.trans h.buf,
   k.done.trans h.done, k.host.trans h.host, fun c => (k.delay c).trans (h.delay c),
   fun c hc => (k.otherBuses c hc).trans (h.otherBuses c hc)⟩

/-- Writing the datapath registers, the trace and the collaborators touches none of it. -/
theorem Untouched.datapath (b : BusIx) (s : State) (sh : Byte) (bc : BitVec 3) (t0 : Nat) (ok : Bool)
    (tr : List Event) (e : Env) :
    Untouched b s { s with shift := sh, bitCnt := bc, t0 := t0, ackOk := ok, trace := tr, env := e } :=
  ⟨rfl, rfl, rfl, rfl, rfl, rfl, rfl, rfl, rfl, rfl, rfl, rfl, fun _ => rfl, fun _ _ => rfl⟩

/-- Writing the latches of bus `b` touches none of it. -/
theorem Untouched.latches (b : BusIx) (s : State) {x : Bus} (h : x.bitDelayUs = (s.bus b).bitDelayUs) :
    Untouched b s (s.setBus b x) :=
  ⟨rfl, rfl, rfl, rfl, rfl, rfl, rfl, rfl, rfl, rfl, rfl, rfl,
   fun c => by
     by_cases hc : c = b
     · subst hc; simpa using h
     · rw [bus_setBus_other s x hc],
   fun c hc => bus_setBus_other s x hc⟩

theorem lineEvent_untouched (b : BusIx) (op : LineOp) (s : State) : Untouched b s (lineEvent b op s) := by
  cases op with
  | hold => exact .datapath b s s.shift s.bitCnt s.t0 s.ackOk _ s.env
  | dir d => exact (Untouched.latches b s (by rfl)).trans (.datapath b _ _ _ _ _ _ _)
  | sda v => exact (Untouched.latches b s (by rfl)).trans (.datapath b _ _ _ _ _ _ _)
  | scl v => exact (Untouched.latches b s (by rfl)).trans (.datapath b _ _ _ _ _ _ _)

theorem collaboratorWait_untouched (b : BusIx) {s t : State} (h : collaboratorWait s = some t) : Untouched b s t := by
  obtain ⟨n, ws, -, rfl⟩ := collaboratorWait_some h
  exact .datapath b s s.shift s.bitCnt s.t0 s.ackOk s.trace _

theorem collaboratorDone_untouched (b : BusIx) (s : State) : Untouched b s (collaboratorDone s) :=
  .datapath b s s.shift s.bitCnt s.t0 s.ackOk s.trace _

theorem sampleEvent_untouched (b c : BusIx) (s : State) : Untouched b s (sampleEvent c s).2 :=
  .datapath b s s.shift s.bitCnt s.t0 s.ackOk _ _

theorem tickEvent_untouched (b : BusIx) (limit : Option Nat) (s : State) : Untouched b s (tickEvent limit s).2 := by
  obtain ⟨u, -, h, -⟩ := tickEvent_eq limit s
  rw [h]
  exact .datapath b s s.shift s.bitCnt s.t0 s.ackOk _ _

theorem afterSeg_untouched (a : CallArgs) (t : Tail) (b : BusIx) (s : State) : Untouched b s (afterSeg a t s).1 := by
  cases t <;> simp only [afterSeg] <;> (try split) <;>
    first
    | exact .refl b s
    | exact .datapath b s _ _ _ _ _ _

theorem segStep_untouched (a : CallArgs) (op : LineOp) (rest : List LineOp) (t : Tail) (s : State) :
    Untouched a.bus s (segStep a op rest t s).1 := by
  cases rest with
  | nil => exact (lineEvent_untouched a.bus op s).trans (afterSeg_untouched a t a.bus _)
  | cons op' rest' => exact lineEvent_untouched a.bus op s

/-- A step inside a primitive touches the latches of its bus, the datapath registers, the trace and the collaborators;
nothing else. -/
theorem primStep_untouched (a : CallArgs) (p : Pos) (s : State) : Untouched a.bus s (primStep a p s).1 := by
  cases p with
  | seg op rest t =>
    cases op with
    | hold =>
      simp only [primStep]
      split
      · rename_i h
        exact collaboratorWait_untouched a.bus (holdWait_some h).2
      · exact (collaboratorDone_untouched a.bus s).trans (segStep_untouched a _ rest t _)
    | dir d => exact segStep_untouched a _ rest t s
    | sda v => exact segStep_untouched a _ rest t s
    | scl v => exact segStep_untouched a _ rest t s
  | sample => exact (sampleEvent_untouched a.bus a.bus s).trans (.datapath a.bus _ _ _ _ _ _ _)
  | tickT0 => exact (tickEvent_untouched a.bus none s).trans (.datapath a.bus _ _ _ _ _ _ _)
  | poll => exact sampleEvent_untouched a.bus a.bus s
  | check => exact tickEvent_untouched a.bus (some (maxTickStep s.cfg.tickW a.timeout)) s

/-! ## The trace of a step inside a primitive -/

/-- The event a line operation emits. -/
def lineOpEvent (b : BusIx) (op : LineOp) (s : State) : Event :=
  match op with
  | .dir d => .dir b d
  | .sda v => .sda b v
  | .scl v => .scl b v
  | .hold => .hold b (s.bus b).bitDelayUs

@[simp] theorem lineEvent_trace (b : BusIx) (op : LineOp) (s : State) :
    (lineEvent b op s).trace = lineOpEvent b op s :: s.trace := by
  cases op <;> rfl

@[simp] theorem afterSeg_trace (a : CallArgs) (t : Tail) (s : State) : (afterSeg a t s).1.trace = s.trace := by
  cases t <;> simp only [afterSeg] <;> (try split) <;> rfl

theorem segStep_trace (a : CallArgs) (op : LineOp) (rest : List LineOp) (t : Tail) (s : State) :
    (segStep a op rest t s).1.trace = lineOpEvent a.bus op s :: s.trace := by
  cases rest <;> simp [segStep]

/-- Line events, samples and ticks: what a primitive emits. -/
def Event.ofPrimitive (e : Event) : Bool :=
  match e with
  | .dir _ _ => true
  | .sda _ _ => true
  | .scl _ _ => true
  | .sample _ _ => true
  | .hold _ _ => true
  | .tick _ => true
  | _ => false

/-- A step inside a primitive waits and emits nothing, or emits one event of a primitive (R37). -/
theorem primStep_trace (a : CallArgs) (p : Pos) (s : State) :
    ((∃ t, holdWait a.bus s = some t ∧ primStep a p s = (t, some p)) ∨
      ∃ e, Event.ofPrimitive e = true ∧ (primStep a p s).1.trace = e :: s.trace) := by
  cases p with
  | seg op rest t =>
    cases op with
    | hold =>
      simp only [primStep]
      split
      · rename_i t' h
        exact .inl ⟨t', h, rfl⟩
      · exact .inr ⟨_, rfl, segStep_trace a _ rest t _⟩
    | dir d => exact .inr ⟨_, rfl, segStep_trace a _ rest t s⟩
    | sda v => exact .inr ⟨_, rfl, segStep_trace a _ rest t s⟩
    | scl v => exact .inr ⟨_, rfl, segStep_trace a _ rest t s⟩
  | sample => exact .inr ⟨.sample a.bus (nextSample s.env).1, rfl, rfl⟩
  | tickT0 =>
    obtain ⟨u, -, h, -⟩ := tickEvent_eq none s
    exact .inr ⟨.tick (u % 2 ^ s.cfg.tickW), rfl, by simp [primStep, h]⟩
  | poll => exact .inr ⟨.sample a.bus (nextSample s.env).1, rfl, rfl⟩
  | check =>
    obtain ⟨u, -, h, -⟩ := tickEvent_eq (some (maxTickStep s.cfg.tickW a.timeout)) s
    exact .inr ⟨.tick (u % 2 ^ s.cfg.tickW), rfl, by simp [primStep, h]⟩

/-! ## Accept, and one step of a command -/

/-- The accept step of a command: ILLEGAL, refused, or its beginning (R87). -/
theorem accept_cases (i : Instr) (first : State → State) (s : State) :
    (busInRange s.cfg.nBus i = false ∧
      accept i first s = (latchCommand (encode i) s).goto (.respond .illegal 0)) ∨
    (busInRange s.cfg.nBus i = true ∧ directionBitSet i = true ∧
      accept i first s = { latchCommand (encode i) s with refused := true, ctrl := .idle }) ∨
    (busInRange s.cfg.nBus i = true ∧ directionBitSet i = false ∧
      accept i first s = first (takeBuffer i s.presentedData (latchCommand (encode i) s))) := by
  unfold accept
  cases h1 : busInRange s.cfg.nBus i <;> cases h2 : directionBitSet i <;> simp

/-- `orFault` answers a next state only for one. -/
theorem orFault_next {f : Fault} {r : Option State} {t : State} (h : orFault f r = .next t) : r = some t := by
  cases r with
  | none => cases h
  | some s => simpa [orFault] using h

/-- What a step inside a running command can be, by its control point. -/
theorem runBusy_next {a : CallArgs} {flow : Site → State → Option State} {s t : State}
    (h : runBusy a flow s = .next t) :
    (s.ctrl = .csEnter ∧ t = csEnterStep a.bus s) ∨
    (∃ site p, s.ctrl = .call site p ∧ callStep a flow site p s = some t) ∨
    (s.ctrl = .bufRd ∧ bufRdStep a.len s = some t) ∨
    (s.ctrl = .bufWr ∧ bufWrStep a.len s = some t) ∨
    (∃ st, s.ctrl = .csExit st ∧ t = csExitStep a.bus st s) ∨
    (∃ st rd, s.ctrl = .respond st rd ∧ t = respond a.len.toNat st rd s) := by
  unfold runBusy at h
  split at h
  · cases h
  · rename_i hc
    exact .inl ⟨hc, by simpa using h.symm⟩
  · rename_i site p hc
    exact .inr (.inl ⟨site, p, hc, orFault_next h⟩)
  · rename_i hc
    exact .inr (.inr (.inl ⟨hc, orFault_next h⟩))
  · rename_i hc
    exact .inr (.inr (.inr (.inl ⟨hc, orFault_next h⟩)))
  · rename_i st hc
    exact .inr (.inr (.inr (.inr (.inl ⟨st, hc, by simpa using h.symm⟩))))
  · rename_i st rd hc
    exact .inr (.inr (.inr (.inr (.inr ⟨st, rd, hc, by simpa using h.symm⟩))))

/-- A step of a command from a ready state is its accept. -/
theorem runCommand_ready {i : Instr} {a : CallArgs} {first : State → State}
    {flow : Site → State → Option State} {s : State} (hr : s.refused = false) (hb : s.busy = false) :
    runCommand i a first flow s = .next (accept i first s) := by
  simp [runCommand, hr, hb]

/-- A step of a running command is an event step or its respond. -/
theorem runCommand_running {i : Instr} {a : CallArgs} {first : State → State}
    {flow : Site → State → Option State} {s : State} (hr : s.refused = false) (hb : s.busy = true) :
    runCommand i a first flow s = runBusy a flow s := by
  simp [runCommand, hr, hb]

/-- A next state of `runCommand`: the accept, or a step of the running command. -/
theorem runCommand_next {i : Instr} {a : CallArgs} {first : State → State}
    {flow : Site → State → Option State} {s t : State} (h : runCommand i a first flow s = .next t) :
    s.refused = false ∧
      ((s.busy = false ∧ t = accept i first s) ∨ (s.busy = true ∧ runBusy a flow s = .next t)) := by
  unfold runCommand at h
  cases hr : s.refused <;> cases hb : s.busy <;> simp_all

/-- A next state of `runConfigure`: the accept, or the respond, with the command's assignment when it is OK. -/
theorem runConfigure_next {i : Instr} {effect : State → State} {s t : State}
    (h : runConfigure i effect s = .next t) :
    s.refused = false ∧
      ((s.busy = false ∧ t = accept i (State.goto (.respond .ok 0)) s) ∨
       (s.busy = true ∧ ∃ rd, s.ctrl = .respond .ok rd ∧ t = respond 0 .ok rd (effect s)) ∨
       (s.busy = true ∧ ∃ st rd, st ≠ .ok ∧ s.ctrl = .respond st rd ∧ t = respond 0 st rd s)) := by
  unfold runConfigure at h
  split at h
  · cases h
  · rename_i hr
    refine ⟨by simpa using hr, ?_⟩
    split at h
    · rename_i hb
      split at h
      · rename_i rd hc
        exact .inr (.inl ⟨hb, rd, hc, by simpa using h.symm⟩)
      · rename_i st rd hne hc
        refine .inr (.inr ⟨hb, st, rd, ?_, hc, by simpa using h.symm⟩)
        rintro rfl
        exact hne rfl
      · cases h
    · rename_i hb
      exact .inl ⟨by simpa using hb, by simpa using h.symm⟩

/-- A next state of `stepWith`: RST, nothing, a step of the current command, or of a word that is no command. -/
theorem stepWith_next {run : Instr → State → Host.Outcome State Fault Refusal} {s t : State}
    (h : stepWith run s = .next t) :
    s.refused = false ∧
      ((s.rstDue = true ∧ t = rst s) ∨
       (s.rstDue = false ∧ s.currentWord = none ∧ t = s.hostWaits) ∨
       (s.rstDue = false ∧ ∃ w i, s.currentWord = some w ∧ decode w = .ok i ∧ run i s.hostWaits = .next t) ∨
       (s.rstDue = false ∧ ∃ w e, s.currentWord = some w ∧ decode w = .error e ∧
         runIllegal w s.hostWaits = .next t)) := by
  unfold stepWith at h
  cases hr : s.refused with
  | true => simp [hr] at h
  | false =>
    refine ⟨rfl, ?_⟩
    cases hd : s.rstDue with
    | true => exact .inl ⟨rfl, by simpa [hr, hd] using h.symm⟩
    | false =>
      simp only [hr, hd, Bool.false_eq_true, if_false] at h
      split at h
      · rename_i hw
        exact .inr (.inl ⟨rfl, hw, by simpa using h.symm⟩)
      · rename_i w hw
        split at h
        · rename_i i hi
          exact .inr (.inr (.inl ⟨rfl, w, i, hw, hi, h⟩))
        · rename_i e he
          exact .inr (.inr (.inr ⟨rfl, w, e, hw, he, h⟩))

/-- A word that is no command is answered in two steps, and in no other way. -/
theorem runIllegal_next {w : Word} {s t : State} (h : runIllegal w s = .next t) :
    s.refused = false ∧
      ((s.busy = false ∧ t = (latchCommand w s).goto (.respond .illegal 0)) ∨
       (s.busy = true ∧ ∃ st rd, s.ctrl = .respond st rd ∧ t = respond 0 st rd s)) := by
  unfold runIllegal at h
  split at h
  · cases h
  · rename_i hr
    refine ⟨by simpa using hr, ?_⟩
    split at h
    · rename_i hb
      split at h
      · rename_i st rd hc
        exact .inr ⟨hb, st, rd, hc, by simpa using h.symm⟩
      · cases h
    · rename_i hb
      exact .inl ⟨by simpa using hb, by simpa using h.symm⟩

/-! ## RST -/

/-- RST's step, bus by bus (R230, R232, R45). -/
theorem bus_rst (s : State) (b : BusIx) :
    (rst s).bus b = if s.busInUse = some b then { s.bus b with bitDelayUs := 0 } else Bus.reset := by
  have h0 : ∀ t : State, t.buses = Vector.replicate 16 Bus.reset → t.bus b = Bus.reset := by
    intro t ht
    simp [State.bus, ht]
  unfold rst keepLatches
  cases hc : s.busInUse with
  | none =>
    rw [if_neg (by simp)]
    exact h0 _ rfl
  | some c =>
    by_cases hbc : c = b
    · subst hbc
      simp
    · rw [if_neg (by simpa using hbc)]
      exact (bus_setBus_other _ _ (Ne.symm hbc)).trans (h0 _ rfl)

/-- The bus in use is a running, legal, bus-driving command's own. -/
theorem busInUse_eq {s : State} {b : BusIx} :
    s.busInUse = some b ↔ s.busy = true ∧ ∃ i, decode s.cmd = .ok i ∧ drivesBus i = true ∧
      busInRange s.cfg.nBus i = true ∧ i.bus = b := by
  unfold State.busInUse
  cases hb : s.busy <;> simp
  cases hd : decode s.cmd with
  | error e => simp
  | ok i => simp [and_assoc]

/-- What RST leaves of the model's own fields, and REFUSED. -/
theorem rst_keeps (s : State) :
    (rst s).cfg = s.cfg ∧ (rst s).refused = s.refused ∧ (rst s).buf = s.buf ∧ (rst s).done = s.done ∧
    (rst s).trace = s.trace ∧ (rst s).host = s.hostAfterRst ∧ (rst s).env = s.env := by
  unfold rst keepLatches
  split <;> exact ⟨rfl, rfl, rfl, rfl, rfl, rfl, rfl⟩

/-- The block's fields after RST (R45). -/
theorem rst_clears (s : State) :
    (rst s).busy = false ∧ (rst s).cmd = 0 ∧ (rst s).phase = .idle ∧ (rst s).t0 = 0 ∧ (rst s).csHeld = none ∧
    (rst s).resp = 0x0000 ∧ (rst s).ctrl = .idle := by
  unfold rst keepLatches
  split <;> exact ⟨rfl, rfl, rfl, rfl, rfl, rfl, rfl⟩

/-- With a command presented the host's moves do not wait. -/
theorem hostWaits_of_presented {s : State} {w : Word} (h : s.presented = some w) : s.hostWaits = s := by
  unfold State.presented at h
  split at h
  · rename_i hh
    have : waitedMoves s.host = s.host := by rw [hh]; rfl
    simp only [State.hostWaits, this]
  · cases h

/-- With a command presented no RST is due. -/
theorem rstDue_of_presented {s : State} {w : Word} (h : s.presented = some w) : s.rstDue = false := by
  unfold State.presented at h
  split at h
  · rename_i hh
    simp [State.rstDue, hh]
  · cases h

end Sys2Proof.Machine
end

