-- ==== Sys2Proof/Laws/PerInstr.lean ====
section
/-! SUPPORT. What holds of every command as syntax. -/

namespace Sys2Proof.Laws

/-- The word of a command has the command's opcode in OP and its bus in BUS, 0 for INIT (R71 to R73, R77). -/
def Fields.Statement (i : Instr) : Prop := opField (encode i) = opcode i ∧ busField (encode i) = i.bus

theorem Fields.init : Fields.Statement .init := ⟨opField_layout .., busField_layout ..⟩
theorem Fields.setDelay (b : BusIx) (d : BitVec 32) : Fields.Statement (.setDelay b d) :=
  ⟨opField_layout .., busField_layout ..⟩
theorem Fields.probe (b : BusIx) (a : Byte) (t : BitVec 16) : Fields.Statement (.probe b a t) :=
  ⟨opField_layout .., busField_layout ..⟩
theorem Fields.write (b : BusIx) (a r : Byte) (n t : BitVec 16) : Fields.Statement (.write b a r n t) :=
  ⟨opField_layout .., busField_layout ..⟩
theorem Fields.read (b : BusIx) (a r : Byte) (n t : BitVec 16) : Fields.Statement (.read b a r n t) :=
  ⟨opField_layout .., busField_layout ..⟩
theorem Fields.readSeq (b : BusIx) (a : Byte) (n t : BitVec 16) : Fields.Statement (.readSeq b a n t) :=
  ⟨opField_layout .., busField_layout ..⟩
theorem Fields.start (b : BusIx) : Fields.Statement (.start b) := ⟨opField_layout .., busField_layout ..⟩
theorem Fields.stop (b : BusIx) : Fields.Statement (.stop b) := ⟨opField_layout .., busField_layout ..⟩
theorem Fields.sendByte (b : BusIx) (v : Byte) : Fields.Statement (.sendByte b v) :=
  ⟨opField_layout .., busField_layout ..⟩
theorem Fields.readByte (b : BusIx) (k : Bool) : Fields.Statement (.readByte b k) :=
  ⟨opField_layout .., busField_layout ..⟩
theorem Fields.waitAck (b : BusIx) (t : BitVec 16) : Fields.Statement (.waitAck b t) :=
  ⟨opField_layout .., busField_layout ..⟩
theorem Fields.ack (b : BusIx) : Fields.Statement (.ack b) := ⟨opField_layout .., busField_layout ..⟩
theorem Fields.nack (b : BusIx) : Fields.Statement (.nack b) := ⟨opField_layout .., busField_layout ..⟩

end Sys2Proof.Laws
end

