-- ==== Sys2Proof/Laws/Run.lean ====
section
/-! SUPPORT. Running a command: several steps, a wait that ends, a straight piece of line events. -/

namespace Sys2Proof.Machine

/-! ## Several steps -/

theorem execFor_succ {i : Instr} {k : Nat} {s t : State} (h : exec i s = .next t) :
    execFor i (k + 1) s = execFor i k t := by
  simp [execFor, h]

theorem execFor_one {i : Instr} {s t : State} (h : exec i s = .next t) : execFor i 1 s = .next t :=
  execFor_succ h

/-- Two runs in a row are one run. -/
theorem execFor_add {i : Instr} {j : Nat} {s t : State} (h : execFor i j s = .next t) (k : Nat) :
    execFor i (j + k) s = execFor i k t := by
  induction j generalizing s with
  | zero =>
    obtain rfl : s = t := by simpa [execFor] using h
    rw [Nat.zero_add]
  | succ j ih =>
    simp only [execFor] at h
    rw [Nat.add_right_comm]
    split at h
    · rename_i u hu
      rw [execFor_succ hu, ih h]
    · cases h
    · cases h

/-- A run may be cut in two: what both parts reach is reached. -/
theorem execFor_trans {i : Instr} {s t u : State} (h : ∃ k, execFor i k s = .next t)
    (h' : ∃ k, execFor i k t = .next u) : ∃ k, execFor i k s = .next u := by
  obtain ⟨j, hj⟩ := h
  obtain ⟨k, hk⟩ := h'
  exact ⟨j + k, by rw [execFor_add hj, hk]⟩

/-! ## A running command's arguments and flow -/

/-- The arguments of a command's calls, with BYTEIDX at `k`. -/
def argsOf (i : Instr) (k : BitVec 16) : CallArgs :=
  match i with
  | .init => { bus := 0 }
  | .setDelay b _ => { bus := b }
  | .probe b _ t => { bus := b, timeout := t }
  | .write b _ _ n t => { bus := b, timeout := t, len := n }
  | .read b _ _ n t => { bus := b, timeout := t, sendAck := moreBytes k n, len := n }
  | .readSeq b _ n t => { bus := b, timeout := t, sendAck := moreBytes k n, len := n }
  | .start b => { bus := b }
  | .stop b => { bus := b }
  | .sendByte b _ => { bus := b }
  | .readByte b ack => { bus := b, sendAck := ack }
  | .waitAck b t => { bus := b, timeout := t }
  | .ack b => { bus := b }
  | .nack b => { bus := b }

/-- What a command does after each of its calls. -/
def flowOf (i : Instr) : Site → State → Option State :=
  match i with
  | .init => fun _ _ => none
  | .setDelay _ _ => fun _ _ => none
  | .probe _ a _ => probeFlow a
  | .write _ a r n _ => writeFlow a r n
  | .read _ a r n _ => readFlow a r n
  | .readSeq _ a n _ => readSeqFlow a n
  | .start _ => respondAfter fun _ => .respond .ok 0
  | .stop _ => respondAfter fun _ => .respond .ok 0
  | .sendByte _ _ => respondAfter fun _ => .respond .ok 0
  | .readByte _ _ => respondAfter fun t => .respond .ok t.shift
  | .waitAck _ _ => respondAfter fun t => .respond (waitStatus t.ackOk) 0
  | .ack _ => respondAfter fun _ => .respond .ok 0
  | .nack _ => respondAfter fun _ => .respond .ok 0

/-- What a command reaches in its accept step. -/
def firstOf (i : Instr) : State → State :=
  match i with
  | .init => State.goto (.respond .ok 0)
  | .setDelay _ _ => State.goto (.respond .ok 0)
  | .probe _ _ _ => State.goto .csEnter
  | .write _ _ _ _ _ => State.goto .csEnter
  | .read _ _ _ _ _ => State.goto .csEnter
  | .readSeq _ _ _ _ => State.goto .csEnter
  | .start _ => call .command startPos
  | .stop _ => call .command (stopPos .ret)
  | .sendByte _ v => callSend .command v
  | .readByte _ _ => call .command readPos
  | .waitAck _ _ => call .command waitPos
  | .ack _ => call .command ackPos
  | .nack _ => call .command nackPos

/-- A command's flow goes on after each of its calls, and adds no event (R22, R37). -/
theorem flowOf_answers {i : Instr} {site : Site} (h : site ∈ sites i) (s : State) :
    ∃ t, flowOf i site s = some t ∧ t.trace = s.trace := by
  cases i <;> cases site <;>
    first
    | (simp [sites] at h; done)
    | (simp only [flowOf, probeFlow, writeFlow, readFlow, readSeqFlow, respondAfter, unlessAborted, abort, writeNext, readNext]
       (repeat' split) <;> exact ⟨_, rfl, rfl⟩)

@[simp] theorem argsOf_bus (i : Instr) (k : BitVec 16) : (argsOf i k).bus = i.bus := by cases i <;> rfl

/-- From a ready state a step of any command is its accept. -/
theorem exec_ready (i : Instr) {s : State} (h : Ready s) : exec i s = .next (accept i (firstOf i) s) := by
  obtain ⟨hr, hb⟩ := h
  cases i <;> first
    | exact runCommand_ready hr hb
    | simp [exec, execInit, execSetDelay, runConfigure, hr, hb, firstOf]

/-- A step of a running command that calls a primitive. -/
theorem exec_running {i : Instr} {s : State} (hi : sites i ≠ []) (h : Running s) :
    exec i s = runBusy (argsOf i s.byteIdx) (flowOf i) s := by
  obtain ⟨hr, hb⟩ := h
  cases i <;> first
    | exact absurd rfl hi
    | exact runCommand_running hr hb

/-- A step of a running command inside a primitive. -/
theorem exec_call {i : Instr} {s : State} {site : Site} {p : Pos} (hi : sites i ≠ []) (h : Running s)
    (hc : s.ctrl = .call site p) :
    exec i s = orFault .noControlPoint (callStep (argsOf i s.byteIdx) (flowOf i) site p s) := by
  rw [exec_running hi h, runBusy, hc]

/-- A legal command with its direction bit clear is accepted and reaches its first event (R37, R87). -/
theorem exec_accept {i : Instr} {s : State} (h : Ready s) (h1 : busInRange s.cfg.nBus i = true)
    (h2 : directionBitSet i = false) :
    exec i s = .next (firstOf i (takeBuffer i s.presentedData (latchCommand (encode i) s))) := by
  rw [exec_ready i h, accept, if_pos h1, if_neg (by simp [h2])]

/-- The respond step of a command that calls primitives. -/
theorem exec_respond {i : Instr} {s : State} {st : Status} {rd : Byte} (hi : sites i ≠ []) (h : Running s)
    (hc : s.ctrl = .respond st rd) :
    exec i s = .next (respond (argsOf i s.byteIdx).len.toNat st rd s) := by
  rw [exec_running hi h, runBusy, hc]

/-! ## A straight piece of line events -/

/-- The state after the events `ops` of bus `b`, the waits of the HOLDs among them over. -/
def lineEvents (b : BusIx) (ops : List LineOp) (s : State) : State :=
  match ops with
  | [] => s
  | .hold :: rest => lineEvents b rest (lineEvent b .hold (collaboratorDone s))
  | op :: rest => lineEvents b rest (lineEvent b op s)

/-- A straight piece touches its bus's latches, the trace and the waits; nothing else. -/
theorem lineEvents_untouched (b : BusIx) (ops : List LineOp) (s : State) : Untouched b s (lineEvents b ops s) := by
  induction ops generalizing s with
  | nil => exact .refl b s
  | cons op ops ih =>
    cases op with
    | hold => exact ((collaboratorDone_untouched b s).trans (lineEvent_untouched b _ _)).trans (ih _)
    | dir d => exact (lineEvent_untouched b _ s).trans (ih _)
    | sda v => exact (lineEvent_untouched b _ s).trans (ih _)
    | scl v => exact (lineEvent_untouched b _ s).trans (ih _)

/-- Inside a primitive PHASE is written only by the first event of a data read_byte. -/
theorem phaseInside_eq {site : Site} {s : State} (h : site = .readData → s.phase = .dataPhase) :
    phaseInside site s = s := by
  cases site <;> try rfl
  simp [phaseInside, State.setPhase, ← h rfl]

/-- `phaseInside` adds no event. -/
theorem phaseInside_trace (site : Site) (s : State) : (phaseInside site s).trace = s.trace := by cases site <;> rfl

/-- A wait of a HOLD ends, and has changed nothing but itself (R210). -/
theorem hold_ends {i : Instr} {s : State} {site : Site} {rest : List LineOp} {t : Tail} (hi : sites i ≠ [])
    (h : Running s) (hc : s.ctrl = .call site (.seg .hold rest t))
    (hp : site = .readData → s.phase = .dataPhase) :
    ∃ k ws, execFor i k s = .next { s with env := { s.env with waits := ws } } ∧ ws.tail = s.env.waits.tail ∧
      holdWait i.bus { s with env := { s.env with waits := ws } } = none := by
  by_cases hd : (s.bus i.bus).bitDelayUs = 0
  · exact ⟨0, s.env.waits, rfl, rfl, holdWait_of_zero hd⟩
  rcases hw : s.env.waits with _ | ⟨n, ws⟩
  · exact ⟨0, [], by simp [execFor, ← hw], rfl, holdWait_of_none rfl⟩
  · induction n generalizing s with
    | zero => exact ⟨0, 0 :: ws, by simp [execFor, ← hw], rfl, holdWait_of_none rfl⟩
    | succ n ih =>
      have hstep : exec i s = .next { s with env := { s.env with waits := n :: ws } } := by
        rw [exec_call hi h hc]
        simp only [callStep, primStep, argsOf_bus, holdWait, if_neg hd, collaboratorWait, hw, orFault, call, State.goto]
        rw [phaseInside_eq (by exact hp)]
        simp [← hc]
      obtain ⟨k, ws', h1, h2, h3⟩ := ih (s := { s with env := { s.env with waits := n :: ws } }) h hc hp hd rfl
      exact ⟨k + 1, ws', by rw [execFor_succ hstep, h1], by simpa using h2, h3⟩

/-- What is done after the last event of a piece called from `site`, in that event's step. -/
def pieceEnd (i : Instr) (site : Site) (t : Tail) (s : State) : Host.Outcome State Fault Refusal :=
  match afterSeg (argsOf i s.byteIdx) t s with
  | (u, some p) => .next (call site p (phaseInside site u))
  | (u, none) => orFault .noControlPoint (flowOf i site (phaseInside site u))

theorem lineEvent_goto (b : BusIx) (op : LineOp) (c : Ctrl) (s : State) :
    lineEvent b op (s.goto c) = (lineEvent b op s).goto c := by
  cases op <;> rfl

theorem lineEvents_goto (b : BusIx) (ops : List LineOp) (c : Ctrl) (s : State) :
    lineEvents b ops (s.goto c) = (lineEvents b ops s).goto c := by
  induction ops generalizing s with
  | nil => rfl
  | cons op ops ih =>
    cases op <;> simp only [lineEvents] <;> rw [← ih] <;> rfl

/-- One event of a straight piece: it is emitted, and the piece goes on or ends. -/
theorem piece_step {i : Instr} {s : State} {site : Site} {op : LineOp} {rest : List LineOp} {t : Tail}
    (hi : sites i ≠ []) (h : Running s) (hc : s.ctrl = .call site (.seg op rest t))
    (hp : site = .readData → s.phase = .dataPhase) :
    ∃ k, execFor i k s =
      match rest with
      | [] => pieceEnd i site t (lineEvents i.bus [op] s)
      | op' :: rest' => .next (call site (.seg op' rest' t) (lineEvents i.bus [op] s)) := by
  have key : ∀ u : State, Running u → u.ctrl = .call site (.seg op rest t) → u.phase = s.phase →
      u.byteIdx = s.byteIdx → (op = .hold → holdWait i.bus u = none) →
      lineEvents i.bus [op] u = lineEvents i.bus [op] s →
      execFor i 1 u =
        match rest with
        | [] => pieceEnd i site t (lineEvents i.bus [op] s)
        | op' :: rest' => .next (call site (.seg op' rest' t) (lineEvents i.bus [op] s)) := by
    intro u hu huc hup hub huw hul
    have hseg : primStep (argsOf i u.byteIdx) (.seg op rest t) u =
        match rest with
        | [] => afterSeg (argsOf i u.byteIdx) t (lineEvents i.bus [op] s)
        | op' :: rest' => (lineEvents i.bus [op] s, some (.seg op' rest' t)) := by
      rw [← hul]
      cases op <;> cases rest <;> simp [primStep, segStep, lineEvents, huw]
    have hu' : (lineEvents i.bus [op] s).phase = s.phase ∧ (lineEvents i.bus [op] s).byteIdx = s.byteIdx := by
      cases op <;> exact ⟨rfl, rfl⟩
    have hone : execFor i 1 u = exec i u := by
      simp only [execFor]
      cases exec i u <;> rfl
    rw [hone, exec_call hi hu huc, callStep, hseg]
    cases rest with
    | nil =>
      simp only [pieceEnd, hu'.2, hub]
      rcases afterSeg (argsOf i s.byteIdx) t (lineEvents i.bus [op] s) with ⟨v, _ | p⟩ <;> rfl
    | cons op' rest' =>
      simp only [orFault]
      rw [phaseInside_eq (fun e => hu'.1.trans (hp e))]
  by_cases hop : op = .hold
  · subst hop
    obtain ⟨k, ws, h1, h2, h3⟩ := hold_ends hi h hc hp
    refine ⟨k + 1, ?_⟩
    rw [execFor_add h1]
    refine key _ h hc rfl rfl (fun _ => h3) ?_
    simp [lineEvents, collaboratorDone, h2]
  · exact ⟨1, key s h hc rfl rfl (fun e => absurd e hop) rfl⟩

/-- A straight piece runs: all its events are emitted, whatever the waits, and then it ends. The control point `c` is the
one of its last event; every ending replaces it. -/
theorem piece_runs {i : Instr} {s : State} {site : Site} {op : LineOp} {rest : List LineOp} {t : Tail}
    (hi : sites i ≠ []) (h : Running s) (hc : s.ctrl = .call site (.seg op rest t))
    (hp : site = .readData → s.phase = .dataPhase) :
    ∃ k c, execFor i k s = pieceEnd i site t ((lineEvents i.bus (op :: rest) s).goto c) := by
  induction rest generalizing s op with
  | nil =>
    obtain ⟨k, hk⟩ := piece_step hi h hc hp
    refine ⟨k, s.ctrl, ?_⟩
    have : (lineEvents i.bus [op] s).ctrl = s.ctrl := by cases op <;> rfl
    rw [hk]
    simp [State.goto, ← this]
  | cons op' rest' ih =>
    obtain ⟨k, hk⟩ := piece_step hi h hc hp
    have hu : Running (lineEvents i.bus [op] s) ∧ (lineEvents i.bus [op] s).phase = s.phase := by
      cases op <;> exact ⟨h, rfl⟩
    obtain ⟨k', c, hk'⟩ := ih (op := op') (s := call site (.seg op' rest' t) (lineEvents i.bus [op] s)) hu.1 rfl
      (fun e => hu.2.trans (hp e))
    refine ⟨k + k', c, ?_⟩
    rw [execFor_add hk, hk', call, lineEvents_goto]
    cases op <;> rfl

theorem lineEvents_append (b : BusIx) (xs ys : List LineOp) (s : State) :
    lineEvents b (xs ++ ys) s = lineEvents b ys (lineEvents b xs s) := by
  induction xs generalizing s with
  | nil => rfl
  | cons op xs ih => cases op <;> simp only [List.cons_append, lineEvents] <;> rw [ih]

/-- Write BITCNT. -/
def State.setBitCnt (n : BitVec 3) (s : State) : State := { s with bitCnt := n }

/-- A straight piece neither reads nor writes BITCNT, SHIFT, T0 and ACKOK. -/
theorem lineEvents_setBitCnt (b : BusIx) (ops : List LineOp) (n : BitVec 3) (s : State) :
    lineEvents b ops (s.setBitCnt n) = (lineEvents b ops s).setBitCnt n := by
  induction ops generalizing s with
  | nil => rfl
  | cons op ops ih => cases op <;> simp only [lineEvents] <;> rw [← ih] <;> rfl

theorem lineEvents_keeps (b : BusIx) (ops : List LineOp) (s : State) :
    (lineEvents b ops s).shift = s.shift ∧ (lineEvents b ops s).bitCnt = s.bitCnt ∧
    (lineEvents b ops s).t0 = s.t0 ∧ (lineEvents b ops s).ackOk = s.ackOk := by
  induction ops generalizing s with
  | nil => exact ⟨rfl, rfl, rfl, rfl⟩
  | cons op ops ih => cases op <;> exact ih _

theorem lineEvents_running (b : BusIx) (ops : List LineOp) {s : State} (h : Running s) :
    Running (lineEvents b ops s) :=
  ⟨(lineEvents_untouched b ops s).refused.trans h.1, (lineEvents_untouched b ops s).busy.trans h.2⟩

/-! ## How a piece ends -/

theorem pieceEnd_ret (i : Instr) (site : Site) (s : State) :
    pieceEnd i site .ret s = orFault .noControlPoint (flowOf i site (phaseInside site s)) := rfl

theorem pieceEnd_acked (i : Instr) (site : Site) (s : State) :
    pieceEnd i site .acked s =
      orFault .noControlPoint (flowOf i site (phaseInside site { s with ackOk := true })) := rfl

theorem pieceEnd_timedOut (i : Instr) (site : Site) (s : State) :
    pieceEnd i site .timedOut s =
      orFault .noControlPoint (flowOf i site (phaseInside site { s with ackOk := false })) := rfl

theorem pieceEnd_waitBegin (i : Instr) (site : Site) (s : State) :
    pieceEnd i site .waitBegin s = .next (call site .tickT0 (phaseInside site s)) := rfl

theorem pieceEnd_readSample (i : Instr) (site : Site) (s : State) :
    pieceEnd i site .readSample s = .next (call site .sample (phaseInside site s)) := rfl

theorem pieceEnd_sendBit_last (i : Instr) (site : Site) {s : State} (h : s.bitCnt = 0) :
    pieceEnd i site .sendBit s = orFault .noControlPoint (flowOf i site (phaseInside site s)) := by
  simp [pieceEnd, afterSeg, h]

theorem pieceEnd_sendBit (i : Instr) (site : Site) {s : State} (h : s.bitCnt ≠ 0) :
    pieceEnd i site .sendBit s =
      .next (call site (sendBitPos (s.shift.getLsbD (s.bitCnt - 1).toNat))
        (phaseInside site (s.setBitCnt (s.bitCnt - 1)))) := by
  simp only [pieceEnd, afterSeg, if_neg h, State.setBitCnt]

theorem pieceEnd_readBit_last (i : Instr) (site : Site) {s : State} (h : s.bitCnt = 0) :
    pieceEnd i site .readBit s =
      .next (call site (pulsePos (!(argsOf i s.byteIdx).sendAck)) (phaseInside site s)) := by
  simp only [pieceEnd, afterSeg, if_pos h]
  cases (argsOf i s.byteIdx).sendAck <;> rfl

theorem pieceEnd_readBit (i : Instr) (site : Site) {s : State} (h : s.bitCnt ≠ 0) :
    pieceEnd i site .readBit s =
      .next (call site readBitPos (phaseInside site (s.setBitCnt (s.bitCnt - 1)))) := by
  simp only [pieceEnd, afterSeg, if_neg h, State.setBitCnt]

/-! ## send_byte -/

/-- The line events of one bit of send_byte (R103). -/
def sendBitOps (x : Level) : List LineOp := [.sda x, .hold, .scl true, .hold, .scl false]

/-- The line events of the bits `n` to 0 of a byte, the highest first. -/
def sendBitsFrom (v : Byte) (n : Nat) : List LineOp :=
  match n with
  | 0 => sendBitOps (v.getLsbD 0)
  | n + 1 => sendBitOps (v.getLsbD (n + 1)) ++ sendBitsFrom v n

/-- One bit of send_byte that is not the last. -/
theorem sendBit_run {i : Instr} {s : State} {site : Site} {x : Level} (hi : sites i ≠ []) (h : Running s)
    (hb : s.bitCnt ≠ 0) (hc : s.ctrl = .call site (sendBitPos x)) (hp : site ≠ .readData) :
    ∃ k, execFor i k s = .next (call site (sendBitPos (s.shift.getLsbD (s.bitCnt - 1).toNat))
      ((lineEvents i.bus (sendBitOps x) s).setBitCnt (s.bitCnt - 1))) := by
  obtain ⟨k, c, hk⟩ := piece_runs hi h hc (fun e => absurd e hp)
  refine ⟨k, hk.trans ?_⟩
  change pieceEnd i site .sendBit (State.goto c (lineEvents i.bus (sendBitOps x) s)) = _
  have hl := lineEvents_keeps i.bus (sendBitOps x) s
  generalize lineEvents i.bus (sendBitOps x) s = u at hl
  rw [pieceEnd_sendBit i site (by simpa [hl.2.1] using hb), phaseInside_eq (fun e => absurd e hp)]
  simp only [goto_shift, goto_bitCnt, hl.1, hl.2.1]
  rfl

/-- The last bit of send_byte: then it returns. -/
theorem sendBit_last {i : Instr} {s : State} {site : Site} {x : Level} (hi : sites i ≠ []) (h : Running s)
    (hb : s.bitCnt = 0) (hc : s.ctrl = .call site (sendBitPos x)) (hp : site ≠ .readData) :
    ∃ k c, execFor i k s = orFault .noControlPoint (flowOf i site
      (State.goto c ((lineEvents i.bus (sendBitOps x) s).setBitCnt 0))) := by
  obtain ⟨k, c, hk⟩ := piece_runs hi h hc (fun e => absurd e hp)
  refine ⟨k, c, hk.trans ?_⟩
  change pieceEnd i site .sendBit (State.goto c (lineEvents i.bus (sendBitOps x) s)) = _
  have hl := lineEvents_keeps i.bus (sendBitOps x) s
  generalize lineEvents i.bus (sendBitOps x) s = u at hl
  have hz : u.bitCnt = 0 := hl.2.1.trans hb
  rw [pieceEnd_sendBit_last i site (by simpa using hz), phaseInside_eq (fun e => absurd e hp)]
  simp [State.setBitCnt, State.goto, ← hz]

/-- send_byte's loop runs from BITCNT to its end (R103). -/
theorem sendBits_run {i : Instr} {s : State} {site : Site} {n : Nat} (hi : sites i ≠ []) (h : Running s)
    (hn : n < 8) (hb : s.bitCnt = BitVec.ofNat 3 n) (hc : s.ctrl = .call site (sendBitPos (s.shift.getLsbD n)))
    (hp : site ≠ .readData) :
    ∃ k c, execFor i k s = orFault .noControlPoint
      (flowOf i site (State.goto c ((lineEvents i.bus (sendBitsFrom s.shift n) s).setBitCnt 0))) := by
  induction n generalizing s with
  | zero => exact sendBit_last hi h hb hc hp
  | succ n ih =>
    have hn' : BitVec.ofNat 3 (n + 1) ≠ 0 ∧ BitVec.ofNat 3 (n + 1) - 1 = BitVec.ofNat 3 n ∧
        (BitVec.ofNat 3 n).toNat = n := by
      have : n < 7 := by omega
      interval_cases n <;> decide
    obtain ⟨k, hk⟩ := sendBit_run hi h (by rw [hb]; exact hn'.1) hc hp
    rw [hb, hn'.2.1, hn'.2.2] at hk
    have hl := lineEvents_keeps i.bus (sendBitOps (s.shift.getLsbD (n + 1))) s
    have hr := lineEvents_running i.bus (sendBitOps (s.shift.getLsbD (n + 1))) h
    rw [sendBitsFrom, lineEvents_append]
    generalize lineEvents i.bus (sendBitOps (s.shift.getLsbD (n + 1))) s = u at hl hr hk ⊢
    have hs : (call site (sendBitPos (s.shift.getLsbD n)) (u.setBitCnt (BitVec.ofNat 3 n))).shift = s.shift := hl.1
    obtain ⟨k', c, hk'⟩ := ih (s := call site (sendBitPos (s.shift.getLsbD n)) (u.setBitCnt (BitVec.ofNat 3 n)))
      hr (by omega) rfl (by rw [hs]; rfl)
    refine ⟨k + k', c, ?_⟩
    rw [execFor_add hk, hk', hs, call, lineEvents_goto, lineEvents_setBitCnt]
    rfl

/-- The line events of send_byte (R103). -/
def sendOps (v : Byte) : List LineOp := .dir .out :: sendBitsFrom v 7

/-- send_byte runs to its return, sending SHIFT (R103). -/
theorem send_runs {i : Instr} {s : State} {site : Site} (hi : sites i ≠ []) (h : Running s)
    (hc : s.ctrl = .call site sendPos) (hp : site ≠ .readData) :
    ∃ k c, execFor i k s = orFault .noControlPoint
      (flowOf i site (State.goto c ((lineEvents i.bus (sendOps s.shift) s).setBitCnt 0))) := by
  obtain ⟨k, c0, hk⟩ := piece_runs hi h hc (fun e => absurd e hp)
  have hl := lineEvents_keeps i.bus [.dir .out] s
  have hr := lineEvents_running i.bus [.dir .out] h
  rw [sendOps, ← List.singleton_append, lineEvents_append]
  generalize lineEvents i.bus [.dir .out] s = u at hl hr hk ⊢
  have he : pieceEnd i site .sendLoop (State.goto c0 u) =
      .next (call site (sendBitPos (s.shift.getLsbD 7)) (u.setBitCnt 7)) := by
    rw [← hl.1]
    simp only [pieceEnd, afterSeg]
    rw [phaseInside_eq (fun e => absurd e hp)]
    rfl
  have hs : (call site (sendBitPos (s.shift.getLsbD 7)) (u.setBitCnt 7)).shift = s.shift := hl.1
  obtain ⟨k', c, hk'⟩ := sendBits_run (s := call site (sendBitPos (s.shift.getLsbD 7)) (u.setBitCnt 7)) (n := 7) hi
    hr (by omega) rfl (by rw [hs]; rfl) hp
  refine ⟨k + k', c, ?_⟩
  rw [execFor_add (hk.trans he), hk', hs, call, lineEvents_goto, lineEvents_setBitCnt]
  generalize lineEvents i.bus (sendBitsFrom s.shift 7) u = v
  rfl

/-! ## The steps that take an answer -/

/-- wait_ack's first TICK (R105). -/
theorem tickT0_step {i : Instr} {s : State} {site : Site} (hi : sites i ≠ []) (h : Running s)
    (hc : s.ctrl = .call site .tickT0) (hp : site ≠ .readData) :
    exec i s = .next (call site .poll { (tickEvent none s).2 with t0 := (tickEvent none s).1 }) := by
  rw [exec_call hi h hc, callStep]
  simp only [primStep]
  rw [phaseInside_eq (fun e => absurd e hp)]
  rfl

/-- wait_ack's SAMPLE (R105). -/
theorem poll_step {i : Instr} {s : State} {site : Site} (hi : sites i ≠ []) (h : Running s)
    (hc : s.ctrl = .call site .poll) (hp : site ≠ .readData) :
    exec i s = .next (call site (if acknowledged (nextSample s.env).1 then .seg (.scl false) [] .acked else .check)
      (sampleEvent i.bus s).2) := by
  rw [exec_call hi h hc, callStep]
  simp only [primStep, argsOf_bus]
  rw [phaseInside_eq (fun e => absurd e hp)]
  rfl

/-- wait_ack's time check (R105). -/
theorem check_step {i : Instr} {s : State} {site : Site} (hi : sites i ≠ []) (h : Running s)
    (hc : s.ctrl = .call site .check) (hp : site ≠ .readData) :
    exec i s = .next (call site
      (if timeoutReached s.cfg.tickW (tickEvent (some (maxTickStep s.cfg.tickW (argsOf i s.byteIdx).timeout)) s).1 s.t0
          (argsOf i s.byteIdx).timeout
        then stopPos .timedOut else .poll)
      (tickEvent (some (maxTickStep s.cfg.tickW (argsOf i s.byteIdx).timeout)) s).2) := by
  rw [exec_call hi h hc, callStep]
  simp only [primStep]
  rw [phaseInside_eq (fun e => absurd e hp)]
  rfl

/-- `SHIFT <- {SHIFT[6:0], SAMPLE}` (R104). -/
def shiftSample (b : BusIx) (s : State) : State :=
  { (sampleEvent b s).2 with
    shift := (sampleEvent b s).2.shift.extractLsb' 0 7 ++ BitVec.ofBool (sampleEvent b s).1 }

/-- read_byte's SAMPLE (R104). -/
theorem sample_step {i : Instr} {s : State} {site : Site} (hi : sites i ≠ []) (h : Running s)
    (hc : s.ctrl = .call site .sample) (hp : site = .readData → s.phase = .dataPhase) :
    exec i s = .next (call site (.seg .hold [] .readBit) (shiftSample i.bus s)) := by
  rw [exec_call hi h hc, callStep]
  simp only [primStep, argsOf_bus]
  rw [phaseInside_eq (by exact hp)]
  rfl

/-! ## read_byte -/

/-- What one bit of read_byte does (R104). -/
def readBit (b : BusIx) (s : State) : State :=
  lineEvents b [.hold] (shiftSample b (lineEvents b [.scl false, .hold, .scl true] s))

/-- What `n` bits of read_byte do. -/
def readBits (b : BusIx) (n : Nat) (s : State) : State :=
  match n with
  | 0 => s
  | n + 1 => readBits b n (readBit b s)

theorem shiftSample_untouched (b : BusIx) (s : State) : Untouched b s (shiftSample b s) :=
  .datapath b s _ _ _ _ _ _

theorem readBit_untouched (b : BusIx) (s : State) : Untouched b s (readBit b s) :=
  ((lineEvents_untouched b _ s).trans (shiftSample_untouched b _)).trans (lineEvents_untouched b _ _)

theorem readBit_bitCnt (b : BusIx) (s : State) : (readBit b s).bitCnt = s.bitCnt := rfl

theorem readBit_goto (b : BusIx) (c : Ctrl) (s : State) : readBit b (s.goto c) = (readBit b s).goto c := rfl

theorem readBit_setBitCnt (b : BusIx) (n : BitVec 3) (s : State) :
    readBit b (s.setBitCnt n) = (readBit b s).setBitCnt n := rfl

theorem readBits_goto (b : BusIx) (n : Nat) (c : Ctrl) (s : State) :
    readBits b n (s.goto c) = (readBits b n s).goto c := by
  induction n generalizing s with
  | zero => rfl
  | succ n ih => simp only [readBits, readBit_goto, ih]

theorem readBits_setBitCnt (b : BusIx) (n : Nat) (m : BitVec 3) (s : State) :
    readBits b n (s.setBitCnt m) = (readBits b n s).setBitCnt m := by
  induction n generalizing s with
  | zero => rfl
  | succ n ih => simp only [readBits, readBit_setBitCnt, ih]

/-- One bit of read_byte, up to what its last HOLD's step does. -/
theorem readBit_run {i : Instr} {s : State} {site : Site} (hi : sites i ≠ []) (h : Running s)
    (hc : s.ctrl = .call site readBitPos) (hp : site = .readData → s.phase = .dataPhase) :
    ∃ k c, execFor i k s = pieceEnd i site .readBit ((readBit i.bus s).goto c) := by
  obtain ⟨k, c, hk⟩ := piece_runs hi h hc hp
  have hu := lineEvents_untouched i.bus [.scl false, .hold, .scl true] s
  have hr := lineEvents_running i.bus [.scl false, .hold, .scl true] h
  rw [readBit]
  generalize lineEvents i.bus [.scl false, .hold, .scl true] s = u at hu hr hk ⊢
  have hup : site = .readData → u.phase = .dataPhase := fun e => hu.phase.trans (hp e)
  rw [pieceEnd_readSample, phaseInside_eq (by exact hup)] at hk
  have h2 := execFor_one (sample_step (s := call site .sample (u.goto c)) hi hr rfl hup)
  obtain ⟨k', c', hk'⟩ := piece_runs
    (s := call site (.seg .hold [] .readBit) (shiftSample i.bus (call site .sample (u.goto c)))) hi hr rfl hup
  refine ⟨k + (1 + k'), c', ?_⟩
  have e : call site (.seg .hold [] .readBit) (shiftSample i.bus (call site .sample (u.goto c))) =
      (shiftSample i.bus u).goto (.call site (.seg .hold [] .readBit)) := rfl
  rw [execFor_add hk, execFor_add h2, hk', e, lineEvents_goto]
  generalize lineEvents i.bus [.hold] (shiftSample i.bus u) = v
  rfl

/-- read_byte's loop runs from BITCNT to its acknowledge pulse (R104). -/
theorem readBits_run {i : Instr} {s : State} {site : Site} {n : Nat} (hi : sites i ≠ []) (h : Running s)
    (hn : n < 8) (hb : s.bitCnt = BitVec.ofNat 3 n) (hc : s.ctrl = .call site readBitPos)
    (hp : site = .readData → s.phase = .dataPhase) :
    ∃ k, execFor i k s = .next (call site (pulsePos (!(argsOf i s.byteIdx).sendAck))
      ((readBits i.bus (n + 1) s).setBitCnt 0)) := by
  induction n generalizing s with
  | zero =>
    obtain ⟨k, c, hk⟩ := readBit_run hi h hc hp
    refine ⟨k, hk.trans ?_⟩
    have hu := readBit_untouched i.bus s
    have hz : (readBit i.bus s).bitCnt = 0 := (readBit_bitCnt i.bus s).trans hb
    simp only [readBits]
    generalize readBit i.bus s = u at hu hz ⊢
    rw [pieceEnd_readBit_last i site (by exact hz), goto_byteIdx, hu.byteIdx,
      phaseInside_eq (s := u.goto c) (fun e => hu.phase.trans (hp e))]
    simp [State.setBitCnt, call, State.goto, ← hz]
  | succ n ih =>
    have hn' : BitVec.ofNat 3 (n + 1) ≠ 0 ∧ BitVec.ofNat 3 (n + 1) - 1 = BitVec.ofNat 3 n := by
      have : n < 7 := by omega
      interval_cases n <;> decide
    obtain ⟨k, c, hk⟩ := readBit_run hi h hc hp
    have hu := readBit_untouched i.bus s
    have hz : (readBit i.bus s).bitCnt = BitVec.ofNat 3 (n + 1) := (readBit_bitCnt i.bus s).trans hb
    rw [readBits]
    generalize readBit i.bus s = u at hu hz hk ⊢
    have hup : site = .readData → u.phase = .dataPhase := fun e => hu.phase.trans (hp e)
    rw [pieceEnd_readBit i site (by rw [goto_bitCnt, hz]; exact hn'.1), phaseInside_eq (by exact hup), goto_bitCnt, hz,
      hn'.2] at hk
    obtain ⟨k', hk'⟩ := ih (s := call site readBitPos ((u.goto c).setBitCnt (BitVec.ofNat 3 n)))
      ⟨hu.refused.trans h.1, hu.busy.trans h.2⟩ (by omega) rfl rfl hup
    refine ⟨k + k', ?_⟩
    have hbi : (call site readBitPos ((u.goto c).setBitCnt (BitVec.ofNat 3 n))).byteIdx = s.byteIdx := hu.byteIdx
    rw [execFor_add hk, hk', hbi]
    simp only [call, readBits_goto, readBits_setBitCnt]
    rfl

/-! ## The critical section -/

/-- A CS_ENTER's wait ends, and has changed nothing but itself (R211). -/
theorem enter_ends {i : Instr} {s : State} (hi : sites i ≠ []) (h : Running s) (hc : s.ctrl = .csEnter) :
    ∃ k ws, execFor i k s = .next { s with env := { s.env with waits := ws } } ∧ ws.tail = s.env.waits.tail ∧
      exec i { s with env := { s.env with waits := ws } } = .next
        (call .openStart startPos (State.emit { collaboratorDone s with csHeld := some i.bus } (.csEnter i.bus))) := by
  rcases hw : s.env.waits with _ | ⟨n, ws⟩
  · refine ⟨0, [], by simp [execFor, ← hw], rfl, ?_⟩
    rw [exec_running hi (by exact h), runBusy]
    simp [hc, csEnterStep, collaboratorWait, collaboratorDone, hw]
  · induction n generalizing s with
    | zero =>
      refine ⟨0, 0 :: ws, by simp [execFor, ← hw], rfl, ?_⟩
      rw [exec_running hi (by exact h), runBusy]
      simp [hc, csEnterStep, collaboratorWait, collaboratorDone, hw]
    | succ n ih =>
      have hstep : exec i s = .next { s with env := { s.env with waits := n :: ws } } := by
        rw [exec_running hi h, runBusy, hc]
        simp [csEnterStep, collaboratorWait, hw, hc]
      obtain ⟨k, ws', hk, ht, he⟩ := ih (s := { s with env := { s.env with waits := n :: ws } }) h hc rfl
      refine ⟨k + 1, ws', (execFor_succ hstep).trans hk, ht, ?_⟩
      rw [he]; simp [collaboratorDone, hw]

/-- CS_ENTER is granted, whatever the wait, and nothing else has changed meanwhile (R211). -/
theorem enter_runs {i : Instr} {s : State} (hi : sites i ≠ []) (h : Running s) (hc : s.ctrl = .csEnter) :
    ∃ k, execFor i k s = .next
      (call .openStart startPos (State.emit { collaboratorDone s with csHeld := some i.bus } (.csEnter i.bus))) := by
  obtain ⟨k, ws, hk, -, he⟩ := enter_ends hi h hc
  exact ⟨k + 1, (execFor_add hk 1).trans (execFor_one he)⟩

/-! ## What a step inside a primitive keeps -/

theorem lineEvent_t0 (b : BusIx) (op : LineOp) (s : State) : (lineEvent b op s).t0 = s.t0 := by cases op <;> rfl

theorem afterSeg_t0 (a : CallArgs) (t : Tail) (s : State) : (afterSeg a t s).1.t0 = s.t0 := by
  cases t <;> simp only [afterSeg] <;> (try split) <;> rfl

theorem segStep_t0 (a : CallArgs) (op : LineOp) (rest : List LineOp) (t : Tail) (s : State) :
    (segStep a op rest t s).1.t0 = s.t0 := by
  cases rest with
  | nil => exact (afterSeg_t0 a t _).trans (lineEvent_t0 a.bus op s)
  | cons op' rest' => exact lineEvent_t0 a.bus op s

/-- T0 stays a `TICK_W`-bit value (R36). -/
theorem primStep_t0 (a : CallArgs) (p : Pos) (s : State) (h : s.t0 < 2 ^ s.cfg.tickW) :
    (primStep a p s).1.t0 < 2 ^ s.cfg.tickW := by
  cases p with
  | seg op rest t =>
    cases op with
    | hold =>
      simp only [primStep]
      split
      · rename_i h'
        obtain ⟨n, ws, -, rfl⟩ := collaboratorWait_some (holdWait_some h').2
        exact h
      · exact lt_of_eq_of_lt (segStep_t0 ..) h
    | dir d => exact lt_of_eq_of_lt (segStep_t0 ..) h
    | sda v => exact lt_of_eq_of_lt (segStep_t0 ..) h
    | scl v => exact lt_of_eq_of_lt (segStep_t0 ..) h
  | sample => exact h
  | tickT0 =>
    obtain ⟨u, h1, -⟩ := tickEvent_eq none s
    simp only [primStep, h1]
    exact Nat.mod_lt _ (Nat.two_pow_pos _)
  | poll => exact h
  | check =>
    obtain ⟨u, -, h2, -⟩ := tickEvent_eq (some (maxTickStep s.cfg.tickW a.timeout)) s
    simp only [primStep, h2]
    exact h

theorem afterSeg_opensRead {a : CallArgs} {t : Tail} {s u : State} {q : Pos} (h : afterSeg a t s = (u, some q)) :
    q.opensRead = true ∧ q ≠ readPos := by
  cases t <;> simp only [afterSeg] at h <;> (try split at h) <;> simp at h <;> obtain ⟨-, rfl⟩ := h <;> (try split) <;>
    first
    | decide
    | simp [Pos.opensRead, sendBitPos, readPos]

theorem segStep_opensRead {a : CallArgs} {op : LineOp} {rest : List LineOp} {t : Tail} {s u : State} {q : Pos}
    (hp : (Pos.seg op rest t).opensRead = true) (h : segStep a op rest t s = (u, some q)) :
    q.opensRead = true ∧ q ≠ readPos := by
  cases rest with
  | nil => exact afterSeg_opensRead h
  | cons op' rest' =>
    simp only [segStep, Prod.mk.injEq, Option.some.injEq] at h
    obtain ⟨-, rfl⟩ := h
    cases t <;> simp_all [Pos.opensRead, readPos]

/-- A step inside a primitive goes on at a position that is not the first of read_byte. -/
theorem primStep_opensRead {a : CallArgs} {p q : Pos} {s u : State} (hp : p.opensRead = true)
    (h : primStep a p s = (u, some q)) : q.opensRead = true ∧ q ≠ readPos := by
  cases p with
  | seg op rest t =>
    cases op with
    | hold =>
      simp only [primStep] at h
      split at h
      · simp only [Prod.mk.injEq, Option.some.injEq] at h
        obtain ⟨-, rfl⟩ := h
        exact ⟨hp, by simp [readPos]⟩
      · exact segStep_opensRead hp h
    | dir d => exact segStep_opensRead hp h
    | sda v => exact segStep_opensRead hp h
    | scl v => exact segStep_opensRead hp h
  | sample =>
    simp only [primStep, Prod.mk.injEq, Option.some.injEq] at h
    obtain ⟨-, rfl⟩ := h
    decide
  | tickT0 =>
    simp only [primStep, Prod.mk.injEq, Option.some.injEq] at h
    obtain ⟨-, rfl⟩ := h
    decide
  | poll =>
    simp only [primStep, Prod.mk.injEq, Option.some.injEq] at h
    obtain ⟨-, rfl⟩ := h
    split <;> decide
  | check =>
    simp only [primStep, Prod.mk.injEq, Option.some.injEq] at h
    obtain ⟨-, rfl⟩ := h
    split <;> decide

end Sys2Proof.Machine
end

