-- ==== Sys2Proof/Tests/Slice0.lean ====
section
/-! SUPPORT. The model's own tests. Expected values are the spec's: 30_encoding.md R71, R77, R78, R90 and the vectors of
95_test_vectors.md, or worked out from the pseudocode of the named rule. Last, for each statement with hypotheses, a state and
operands that meet them. -/

namespace Sys2Proof.Tests

open Sys2Proof Sys2Proof.Machine

/-! ## Helpers -/

/-- A look at the next state, if there is one. -/
def look {α : Type} (f : State → α) (o : Host.Outcome State Fault Refusal) : Option α :=
  match o with
  | .next t => some (f t)
  | _ => none

/-- Whether a step stops with a fault. -/
def faults (o : Host.Outcome State Fault Refusal) : Bool :=
  match o with
  | .fault _ => true
  | _ => false

/-- Whether a step is refused. -/
def refuses (o : Host.Outcome State Fault Refusal) : Bool :=
  match o with
  | .refused _ => true
  | _ => false

/-- The host presents word `w` to a block just reset, with these buffer bytes, SAMPLE answers and tick increases. -/
def presenting (w : Word) (data : List Byte) (samples : List Level) (ticks : List Nat) : State :=
  { State.reset with
    host := [{ after := 0, act := .command w data }]
    env := { Env.reset with samples := samples, tickSteps := ticks } }

/-- Command `i` runs and stands at control point `c`, with these SAMPLE answers and tick increases. -/
def runningAt (i : Instr) (c : Ctrl) (samples : List Level) (ticks : List Nat) : State :=
  { State.reset with
    busy := true
    cmd := encode i
    ctrl := c
    env := { Env.reset with samples := samples, tickSteps := ticks } }

/-- Bus `b` of `s` with delay `d` and these waits to come. -/
def waiting (s : State) (b : BusIx) (d : BitVec 32) (waits : List Nat) : State :=
  { s.setBus b { s.bus b with bitDelayUs := d } with env := { s.env with waits := waits } }

/-! ## WellFormed: an ill-formed term for each check -/

/-- R81: bus 4 does not exist where N_BUS = 4; bus 3 does. -/
theorem test_wf_refuses_absent_bus :
    (Instr.start 4).wellFormed Config.default = false ∧ (Instr.setDelay 15 0).wellFormed Config.default = false ∧
    (Instr.start 3).wellFormed Config.default = true ∧ Instr.init.wellFormed Config.default = true := by decide

/-- R74, R197: bit 0 of an address byte; SEND_BYTE's DATA is no address byte (R86). -/
theorem test_wf_refuses_direction_bit :
    (Instr.probe 0 0x3D 10).wellFormed Config.default = false ∧
    (Instr.write 0 0x01 0 0 0).wellFormed Config.default = false ∧
    (Instr.read 0 0xFF 0 0 0).wellFormed Config.default = false ∧
    (Instr.readSeq 0 0xA1 3 7).wellFormed Config.default = false ∧
    (Instr.sendByte 0 0xA5).wellFormed Config.default = true := by decide

/-! ## Decoding: one word per command, written field by field from R71 and R77 -/

/-- INIT: OP 1, every other bit 0. -/
theorem test_decode_init : decodeTableWord 64 0x0000000000000001 = some .init := by decide
/-- SET_DELAY: DELAY 0x80000001, BUS 2, OP 2. -/
theorem test_decode_setDelay : decodeTableWord 64 0x8000000100000022 = some (.setDelay 2 0x80000001) := by decide
/-- PROBE: TIMEOUT 0x8001, A8 0x82, BUS 3, OP 3. -/
theorem test_decode_probe : decodeTableWord 64 0x8001000000008233 = some (.probe 3 0x82 0x8001) := by decide
/-- WRITE: TIMEOUT 0x0102, LEN 0x0304, REG 0x05, A8 0x06, BUS 7, OP 4. -/
theorem test_decode_write : decodeTableWord 64 0x0102030400050674 = some (.write 7 0x06 0x05 0x0304 0x0102) := by
  decide
/-- READ: TIMEOUT 0x0102, LEN 0x0304, REG 0x05, A8 0x06, BUS 8, OP 5. -/
theorem test_decode_read : decodeTableWord 64 0x0102030400050685 = some (.read 8 0x06 0x05 0x0304 0x0102) := by
  decide
/-- READ_SEQ: TIMEOUT 0x0102, LEN 0x0304, A8 0x06, BUS 9, OP 6. -/
theorem test_decode_readSeq : decodeTableWord 64 0x0102030400000696 = some (.readSeq 9 0x06 0x0304 0x0102) := by
  decide
/-- START: BUS 15, OP 8. -/
theorem test_decode_start : decodeTableWord 64 0x00000000000000F8 = some (.start 15) := by decide
/-- STOP: BUS 1, OP 9. -/
theorem test_decode_stop : decodeTableWord 64 0x0000000000000019 = some (.stop 1) := by decide
/-- SEND_BYTE: DATA 0x81 in the place of A8, BUS 2, OP 0xA. -/
theorem test_decode_sendByte : decodeTableWord 64 0x000000000000812A = some (.sendByte 2 0x81) := by decide
/-- READ_BYTE: ACKF is bit 24, OP 0xB. -/
theorem test_decode_readByte :
    decodeTableWord 64 0x000000000100003B = some (.readByte 3 true) ∧
    decodeTableWord 64 0x000000000000003B = some (.readByte 3 false) := by decide
/-- WAIT_ACK: TIMEOUT 0xFFFE, BUS 4, OP 0xC. -/
theorem test_decode_waitAck : decodeTableWord 64 0xFFFE00000000004C = some (.waitAck 4 0xFFFE) := by decide
/-- ACK: BUS 5, OP 0xD. -/
theorem test_decode_ack : decodeTableWord 64 0x000000000000005D = some (.ack 5) := by decide
/-- NACK: BUS 6, OP 0xE. -/
theorem test_decode_nack : decodeTableWord 64 0x000000000000006E = some (.nack 6) := by decide

/-- R79: the all-zero word, OP 7 and OP 0xF. -/
theorem test_decode_reserved :
    decode 0x0 = .error .reservedOpcode ∧ decode 0x7 = .error .reservedOpcode ∧
    decode 0xF = .error .reservedOpcode := by decide

/-- R80: its three examples, then RSV bits 25 and 31, and ACKF outside READ_BYTE. -/
theorem test_decode_mustBeZero :
    decode 0x0000000100000008 = .error .mustBeZero ∧ decode 0x0000000000010006 = .error .mustBeZero ∧
    decode 0x0000000000000011 = .error .mustBeZero ∧ decode 0x000000000200000B = .error .mustBeZero ∧
    decode 0x0000000080000004 = .error .mustBeZero ∧ decode 0x0000000001000004 = .error .mustBeZero := by decide

/-- R57: eight bytes, least significant first; fewer are no word. -/
theorem test_decode_bytes :
    decodeBytes [0x04, 0x3C, 0x10, 0x00, 0x02, 0x00, 0x0A, 0x00] = some (.write 0 0x3C 0x10 2 10) ∧
    decodeBytes [0x04, 0x3C, 0x10] = none := by decide

/-! ## One step of each command -/

/-- INIT: its word is accepted at reset with no event; the respond step clears the delays (95_test_vectors.md 3.12). -/
theorem test_init_accept :
    look (fun t => (t.busy, t.cmd, t.trace, t.ctrl)) (step (State.reset.withFetchWord 64 0x1)) =
      some (true, 0x1, [], .respond .ok 0) := by decide
theorem test_init_respond :
    look (fun t => (t.busy, t.resp, (t.bus 3).bitDelayUs))
      (exec .init ((runningAt .init (.respond .ok 0) [] []).setBus 3 { Bus.reset with bitDelayUs := 7 })) =
      some (false, 0x0001, 0) := by decide

/-- INIT does not touch the buffer (R180): the bytes of an abandoned READ stay (R232); its own record has none. -/
theorem test_init_keeps_buffer :
    look (fun t => (t.buf, t.cmd)) (step { State.reset.withFetchWord 64 0x1 with buf := [(0, 0xAA)] }) =
      some ([(0, 0xAA)], 0x1) ∧
    look (fun t => (t.buf, t.done.map (·.buf)))
      (exec .init { runningAt .init (.respond .ok 0) [] [] with buf := [(0, 0xAA)] }) = some ([(0, 0xAA)], [[]]) := by decide

theorem test_setDelay_accept :
    look (fun t => (t.busy, t.trace, (t.bus 1).bitDelayUs)) (step (State.reset.withFetchWord 64 0x0000006400000012)) =
      some (true, [], 0) := by decide
theorem test_setDelay_respond :
    look (fun t => ((t.bus 1).bitDelayUs, (t.bus 0).bitDelayUs, t.resp, t.busy))
      (exec (.setDelay 1 100) (runningAt (.setDelay 1 100) (.respond .ok 0) [] [])) =
      some (100, 0, 0x0001, false) := by decide

/-- PROBE: CS_ENTER is the first event, and the opening start comes next (R140, R141). -/
theorem test_probe_enters :
    look (fun t => (t.trace, t.csHeld, t.ctrl, t.phase))
      (exec (.probe 2 0x3C 5) (runningAt (.probe 2 0x3C 5) .csEnter [] [])) =
      some ([.csEnter 2], some 2, .call .openStart startPos, .idle) := by decide
/-- PROBE: after a failed wait it stops the bus itself (R141). -/
theorem test_probe_failed_wait :
    look (fun t => (t.trace, t.ackOk, t.phase, t.ctrl))
      (exec (.probe 0 0x3C 5)
        (runningAt (.probe 0 0x3C 5) (.call .waitAddrW (.seg .hold [] .timedOut)) [] [])) =
      some ([.hold 0 0], false, .aborted, .call .abortStop (stopPos .ret)) := by decide

/-- WRITE: buffer byte 1 is read and goes to SHIFT (R142, R13). -/
theorem test_write_reads_buffer :
    look (fun t => (t.trace, t.shift, t.phase, t.ctrl))
      (exec (.write 0 0x3C 0x10 2 10)
        { runningAt (.write 0 0x3C 0x10 2 10) .bufRd [] [] with byteIdx := 1, buf := [(0, 0xAA), (1, 0x55)] }) =
      some ([.bufRd 1 0x55], 0x55, .dataPhase, .call .sendData sendPos) := by decide
/-- WRITE with LEN = 0 goes from the register's acknowledge to its closing stop (R142, R151). -/
theorem test_write_empty :
    look (fun t => (t.phase, t.byteIdx, t.ctrl))
      (exec (.write 0 0x3C 0x10 0 10)
        (runningAt (.write 0 0x3C 0x10 0 10) (.call .waitReg (.seg (.scl false) [] .acked)) [] [])) =
      some (.registerSent, 0, .call .closeStop (stopPos .ret)) := by decide

/-- READ: the received byte goes to buffer index BYTEIDX, and the last one leads to the stop (R143). -/
theorem test_read_writes_buffer :
    look (fun t => (t.trace, t.buf, t.byteIdx, t.ctrl))
      (exec (.read 0 0x3C 0x10 2 10)
        { runningAt (.read 0 0x3C 0x10 2 10) .bufWr [] [] with byteIdx := 1, shift := 0x55, buf := [(0, 0xAA)] }) =
      some ([.bufWr 1 0x55], [(0, 0xAA), (1, 0x55)], 2, .call .closeStop (stopPos .ret)) := by decide
/-- READ: after the repeated start the read-address byte is 0x3D for A8 = 0x3C (R84, R143). -/
theorem test_read_address :
    look (fun t => (t.phase, t.shift, t.ctrl))
      (exec (.read 0 0x3C 0x10 2 10)
        (runningAt (.read 0 0x3C 0x10 2 10) (.call .repeatStart (.seg .hold [] .ret)) [] [])) =
      some (.restarted, 0x3D, .call .sendAddrR sendPos) := by decide

/-- READ_SEQ: byte 0 of 3 gets ACK, byte 2 of 3 gets NACK (R149). -/
theorem test_readSeq_acks :
    look (fun t => t.ctrl)
      (exec (.readSeq 1 0xA0 3 7)
        (runningAt (.readSeq 1 0xA0 3 7) (.call .readData (.seg .hold [] .readBit)) [] [])) =
      some (.call .readData ackPos) ∧
    look (fun t => t.ctrl)
      (exec (.readSeq 1 0xA0 3 7)
        { runningAt (.readSeq 1 0xA0 3 7) (.call .readData (.seg .hold [] .readBit)) [] [] with byteIdx := 2 }) =
      some (.call .readData nackPos) := by decide
/-- READ_SEQ: its one address byte is 0xA1 for A8 = 0xA0 (R144). -/
theorem test_readSeq_address :
    look (fun t => (t.phase, t.shift, t.ctrl))
      (exec (.readSeq 1 0xA0 3 7)
        (runningAt (.readSeq 1 0xA0 3 7) (.call .openStart (.seg .hold [] .ret)) [] [])) =
      some (.started, 0xA1, .call .sendAddrR sendPos) := by decide

/-- START: its first event is DIR OUT, its last a HOLD with the bus's delay (R101). -/
theorem test_start_first_event :
    look (fun t => (t.trace, (t.bus 1).sdaDir)) (exec (.start 1) (runningAt (.start 1) (.call .command startPos) [] [])) =
      some ([.dir 1 .out], some .out) := by decide
theorem test_start_last_event :
    look (fun t => (t.trace, t.ctrl))
      (exec (.start 1)
        ((runningAt (.start 1) (.call .command (.seg .hold [] .ret)) [] []).setBus 1
          { Bus.reset with bitDelayUs := 2 })) =
      some ([.hold 1 2], .respond .ok 0) := by decide

/-- STOP: its first event lowers the clock (R102); a HOLD that has to wait emits nothing (R38). -/
theorem test_stop_first_event :
    look (fun t => (t.trace, (t.bus 0).sclOut))
      (exec (.stop 0) (runningAt (.stop 0) (.call .command (stopPos .ret)) [] [])) =
      some ([.scl 0 false], some false) := by decide
theorem test_stop_hold_waits :
    look (fun t => (t.trace, t.ctrl, t.env.waits))
      (exec (.stop 0) (waiting (runningAt (.stop 0) (.call .command (.seg .hold [] .ret)) [] []) 0 3 [2, 5])) =
      some ([], .call .command (.seg .hold [] .ret), [1, 5]) := by decide
/-- A HOLD with delay 0 ends at once (R181, R183). -/
theorem test_hold_of_zero :
    look (fun t => (t.trace, t.ctrl, t.env.waits))
      (exec (.start 0) (waiting (runningAt (.start 0) (.call .command (.seg .hold [] .ret)) [] []) 0 0 [2, 5])) =
      some ([.hold 0 0], .respond .ok 0, [5]) := by decide

/-- SEND_BYTE 0xA5: bit 7 first (R54, R103). -/
theorem test_sendByte_first_bit :
    look (fun t => (t.trace, t.bitCnt, t.ctrl))
      (exec (.sendByte 0 0xA5) { runningAt (.sendByte 0 0xA5) (.call .command sendPos) [] [] with shift := 0xA5 }) =
      some ([.dir 0 .out], 7, .call .command (sendBitPos true)) := by decide
/-- SEND_BYTE 0xA5: after bit 1 comes bit 0, which is 1. -/
theorem test_sendByte_last_bit :
    look (fun t => (t.bitCnt, t.ctrl))
      (exec (.sendByte 0 0xA5)
        { runningAt (.sendByte 0 0xA5) (.call .command (.seg (.scl false) [] .sendBit)) [] [] with
          shift := 0xA5, bitCnt := 1 }) =
      some (0, .call .command (sendBitPos true)) := by decide

/-- READ_BYTE: a sample enters SHIFT at bit 0 (R55, R104). -/
theorem test_readByte_shifts :
    look (fun t => (t.trace, t.shift))
      (exec (.readByte 0 true)
        { runningAt (.readByte 0 true) (.call .command .sample) [true] [] with shift := 0xC0 }) =
      some ([.sample 0 true], 0x81) := by decide
/-- READ_BYTE responds with the byte in RDATA: RESP = 0xB201 (95_test_vectors.md 3.4). -/
theorem test_readByte_responds :
    look (fun t => (t.resp, t.busy)) (exec (.readByte 0 true) (runningAt (.readByte 0 true) (.respond .ok 0xB2) [] [])) =
      some (0xB201, false) := by decide

/-- WAIT_ACK, to = 5, T0 = 100, TICK 105: the timeout is reached and the stop follows (95_test_vectors.md S4). -/
theorem test_waitAck_timeout :
    look (fun t => (t.trace, t.ctrl))
      (exec (.waitAck 0 5)
        { runningAt (.waitAck 0 5) (.call .command .check) [] [5] with
          t0 := 100, env := { Env.reset with tickNow := 100, tickSteps := [5] } }) =
      some ([.tick 105], .call .command (stopPos .timedOut)) := by decide
/-- WAIT_ACK, to = 5: at T0 + 4 it polls again (95_test_vectors.md S4). -/
theorem test_waitAck_polls_again :
    look (fun t => (t.trace, t.ctrl))
      (exec (.waitAck 0 5)
        { runningAt (.waitAck 0 5) (.call .command .check) [] [] with
          t0 := 100, env := { Env.reset with tickNow := 100, tickSteps := [4] } }) =
      some ([.tick 104], .call .command .poll) := by decide

/-- ACK drives the data line low (R106), NACK high (R107). -/
theorem test_ack_level :
    look (fun t => t.trace)
      (exec (.ack 0) (runningAt (.ack 0) (.call .command (.seg (.sda false) [.hold] .ret)) [] [])) =
      some [.sda 0 false] ∧ ackPos = .seg (.scl false) [.dir .out, .sda false, .hold, .scl true, .hold, .scl false] .ret := by
  decide
theorem test_nack_level :
    look (fun t => (t.ctrl, t.busy)) (step (State.reset.withFetchWord 64 0x2E)) =
      some (.call .command (.seg (.scl false) [.dir .out, .sda true, .hold, .scl true, .hold, .scl false] .ret), true) := by
  decide

/-! ## Steps of the machine -/

/-- R82: the all-zero word, RSV set, and bus 4 of 4 are accepted and then answered ILLEGAL. -/
theorem test_illegal_words :
    look (fun t => (t.ctrl, t.trace)) (step (State.reset.withFetchWord 64 0)) = some (.respond .illegal 0, []) ∧
    look (fun t => (t.ctrl, t.trace)) (step (State.reset.withFetchWord 64 0x02000008)) = some (.respond .illegal 0, []) ∧
    look (fun t => (t.ctrl, t.trace)) (step (State.reset.withFetchWord 64 0x48)) = some (.respond .illegal 0, []) := by
  decide

/-- R196, R197: A8 = 0x3D is refused in the accept step; on bus 4 of 4 the same word is ILLEGAL. -/
theorem test_direction_bit :
    look (fun t => (t.refused, t.busy, t.resp)) (step (State.reset.withFetchWord 64 0x000A000000003D03)) =
      some (true, true, 0x0000) ∧
    look (fun t => (t.refused, t.ctrl)) (step (State.reset.withFetchWord 64 0x000A000000003D43)) =
      some (false, .respond .illegal 0) ∧
    refuses (step { State.reset with refused := true, busy := true }) = true := by decide

/-- R38 "None": with nothing presented the reset state is its own next state. -/
theorem test_idle_step : look (fun t => decide (t = State.reset)) (step State.reset) = some true := by decide

/-- R230, R232: RST abandons START b2. Bus 2's lines stay as they were put, bus 1's become unknown, the delays are 0. -/
theorem test_rst :
    look (fun t => (t.busy, t.resp, t.bus 2, t.bus 1))
      (step ((({ runningAt (.start 2) (.call .command startPos) [] [] with
        resp := 0x0002, host := [{ after := 0, act := .rst }] } : State).setBus 2
          { bitDelayUs := 9, sclOut := some false, sdaDir := some .out, sdaOut := some true }).setBus 1
          { bitDelayUs := 8, sclOut := some false, sdaDir := some .out, sdaOut := some true })) =
      some (false, 0x0000, { bitDelayUs := 0, sclOut := some false, sdaDir := some .out, sdaOut := some true },
        Bus.reset) := by
  decide
/-- R230, R45: no bus is in use when INIT, an illegal word, or a bus that does not exist is abandoned. -/
theorem test_rst_no_bus_in_use :
    (runningAt .init (.respond .ok 0) [] []).busInUse = none ∧
    (runningAt (.setDelay 1 5) (.respond .ok 0) [] []).busInUse = none ∧
    (runningAt (.start 4) (.respond .illegal 0) [] []).busInUse = none ∧
    State.busInUse { State.reset with busy := true, cmd := 0x7 } = none ∧
    (runningAt (.start 3) (.call .command startPos) [] []).busInUse = some 3 := by decide

/-- The one fault a test can reach, from a state no run reaches. -/
theorem test_no_control_point : faults (exec (.start 0) (runningAt (.start 0) .idle [] [])) = true := by decide

/-- R36, R205: T0 = 0xFFFE and t = 3 are 5 ticks apart at TICK_W = 16. -/
theorem test_elapsed_wraps : elapsed 16 3 0xFFFE = 5 ∧ timeoutReached 16 3 0xFFFE 5 = true ∧
    timeoutReached 16 3 0xFFFE 6 = false := by decide

/-- R76: RESP for OK with 0xB2, FAIL, ILLEGAL. R57: its bytes, least significant first. -/
theorem test_respWord : respWord .ok 0xB2 = 0xB201 ∧ respWord .fail 0 = 0x0002 ∧ respWord .illegal 0 = 0x0003 ∧
    bytesOfResp 0xB201 = [0x01, 0xB2] ∧ respOfBytes [0x01, 0xB2] = some 0xB201 ∧ respOfBytes [0x01] = none := by decide

/-- A write of what an unlisted index reads as removes the cell. -/
theorem test_buffer_canonical :
    Memory.write [(0, 1), (2, 3)] 2 0 = [(0, 1)] ∧ Memory.write [(0, 1), (2, 3)] 1 2 = [(0, 1), (1, 2), (2, 3)] ∧
    Memory.read (Memory.write [(0, 1)] 5 9) 5 = 9 ∧ Memory.read [] 65534 = 0 := by decide

/-! ## For each statement with hypotheses, what meets them -/

theorem witness_decoded_word : decode 0x0102030400050674 = .ok (.write 7 0x06 0x05 0x0304 0x0102) := by decide
/-- A word under each row of R78's table is in `SpecExampleWordsDecode` and the decode tests; here two that no row has. -/
theorem witness_reserved : opField 0x0 = 0x0 ∧ opField 0x27 = 0x7 ∧ opField 0xFF = 0xF := by decide
theorem witness_unused_bit :
    maskOf (opField 0x18) = some 0xFFFFFFFFFFFFFF0F ∧
    (0x0000000100000018 : Word) &&& 0xFFFFFFFFFFFFFF0F ≠ matchOf (opField 0x18) := by decide
theorem witness_step_busy :
    let s := runningAt (.start 3) (.call .command startPos) [] []
    s.refused = false ∧ s.rstDue = false ∧ decode s.cmd = .ok (.start 3) ∧ s.busy = true := by decide
theorem witness_step_presented :
    let s := presenting 0x38 [] [] []
    s.refused = false ∧ s.rstDue = false ∧ s.busy = false ∧ s.presented = some 0x38 ∧ decode 0x38 = .ok (.start 3) := by
  decide
/-- A word no row matches, and a decodable word whose bus is the first that does not exist. -/
theorem witness_illegal :
    (let s := presenting 0x0 [] [] []
     Ready s ∧ s.presented = some 0x0 ∧ (decode 0x0).toOption = none ∧ s.rstDue = false) ∧
    (let s := presenting 0x48 [] [] []
     Ready s ∧ s.presented = some 0x48 ∧ (decode 0x48).toOption = some (.start 4) ∧
       (Instr.start 4).busExists s.cfg = false) := by decide
theorem witness_direction_bit :
    Ready State.reset ∧ (Instr.readSeq 3 0xFF 1 1).busExists State.reset.cfg = true ∧
    (Instr.readSeq 3 0xFF 1 1).directionClear = false ∧
    State.refused { State.reset with refused := true } = true := by decide
theorem witness_reset_input :
    (let s := { State.reset with host := [{ after := 0, act := .rst }] }
     s.refused = false ∧ s.rstDue = true ∧ s.busy = false) ∧
    (let s := { runningAt (.start 0) (.call .command startPos) [] [] with host := [{ after := 0, act := .rst }] }
     Running s ∧ s.rstDue = true) := by decide
/-- A running command that uses a bus, and two that use none. -/
theorem witness_bus_in_use :
    (let s := { runningAt (.start 3) (.call .command startPos) [] [] with host := [{ after := 0, act := .rst }] }
     Running s ∧ s.rstDue = true ∧ decode s.cmd = .ok (.start 3) ∧ drivesBus (.start 3) = true ∧
       (Instr.start 3).busExists s.cfg = true ∧ (2 : BusIx) ≠ (Instr.start 3).bus) ∧
    (let s := { runningAt .init (.respond .ok 0) [] [] with host := [{ after := 0, act := .rst }] }
     Running s ∧ s.rstDue = true ∧ decode s.cmd = .ok .init ∧ drivesBus .init = false) ∧
    (let s := { runningAt (.start 4) (.respond .illegal 0) [] [] with host := [{ after := 0, act := .rst }] }
     Running s ∧ s.rstDue = true ∧ decode s.cmd = .ok (.start 4) ∧ (Instr.start 4).busExists s.cfg = false) := by decide
theorem witness_nothing_presented :
    Ready State.reset ∧ State.reset.rstDue = false ∧ State.reset.presented = none := by decide
theorem witness_waits_while_busy :
    let s := { runningAt (.start 0) (.call .command startPos) [] [] with
      host := [{ after := 0, act := .command 0x1 [] }] }
    s.busy = true ∧ s.presented = some 0x1 ∧ look (fun t => t.host.length) (step s) = some 1 := by decide
/-- A step that emits an event, one that writes RESP, one that only passes time. -/
theorem witness_next_states :
    look (fun t => t.trace.length) (step (runningAt (.start 0) (.call .command startPos) [] [])) = some 1 ∧
    look (fun t => t.resp) (step (runningAt (.start 0) (.respond .ok 0) [] [])) = some 0x0001 ∧
    look (fun t => t.resp) (step { State.reset with resp := 2, host := [{ after := 0, act := .rst }] }) = some 0 ∧
    look (fun t => t.cfg) (step State.reset) = some Config.default := by decide
/-- The lowest and the highest bus, of four and of sixteen. -/
theorem witness_bus_in_range :
    Ready State.reset ∧ (0 : BusIx).toNat < State.reset.cfg.nBus ∧ (3 : BusIx).toNat < State.reset.cfg.nBus ∧
    (15 : BusIx).toNat < (State.resetOf { Config.default with nBus := 16 }).cfg.nBus ∧ State.reset.cfg.wf := by decide
theorem witness_first_sample_low :
    let s := presenting 0x000500000000000C [] [false] []
    Ready s ∧ (0 : BusIx).toNat < s.cfg.nBus ∧ (nextSample s.env).1 = false := by decide
/-- A timeout of 0 with no tick passing, and a timeout of 5 with the largest increase law 2 of R209 allows. -/
theorem witness_first_check_late :
    (let s := presenting 0x000000000000000C [] [true] [0, 0]
     ∃ d0 d1 ds, Ready s ∧ (0 : BusIx).toNat < s.cfg.nBus ∧ (nextSample s.env).1 = true ∧
      s.env.tickSteps = d0 :: d1 :: ds ∧ (0 : BitVec 16).toNat ≤ d1 ∧
      d1 ≤ 2 ^ s.cfg.tickW - (0 : BitVec 16).toNat) ∧
    (let s := presenting 0x000500000000000C [] [true] [100, 65531]
     ∃ d0 d1 ds, Ready s ∧ (nextSample s.env).1 = true ∧ s.env.tickSteps = d0 :: d1 :: ds ∧
      (5 : BitVec 16).toNat ≤ d1 ∧ d1 ≤ 2 ^ s.cfg.tickW - (5 : BitVec 16).toNat) :=
  ⟨⟨0, 0, [], by decide⟩, ⟨100, 65531, [], by decide⟩⟩
theorem witness_poll_and_check :
    Running (runningAt (.waitAck 0 5) (.call .command .poll) [] []) ∧ Site.command ∈ sites (.waitAck 0 5) ∧
    Running (runningAt (.waitAck 0 5) (.call .command .check) [] []) ∧
    Running (runningAt (.read 3 0x3C 1 2 5) (.call .waitAddrR .poll) [] []) ∧
    Site.waitAddrR ∈ sites (.read 3 0x3C 1 2 5) ∧ Site.waitData ∈ sites (.write 3 0x3C 1 2 5) := by decide
theorem witness_probe_ok :
    let s := presenting 0x0005000000003C03 [] [false] []
    Ready s ∧ (0 : BusIx).toNat < s.cfg.nBus ∧ (0x3C : Byte).getLsbD 0 = false ∧ (nextSample s.env).1 = false := by decide
/-- S1 of 95_test_vectors.md: five high samples with elapsed times 1 to 5, the fifth of which reaches 5. -/
theorem witness_probe_fail :
    let s := presenting 0x0005000000005003 [] [true, true, true, true, true] [0, 1, 1, 1, 1, 1]
    let ds := [1, 1, 1, 1, 1]
    ∃ d0 ds', Ready s ∧ (0 : BusIx).toNat < s.cfg.nBus ∧ (0x50 : Byte).getLsbD 0 = false ∧
      (drawSamples ds.length s.env).1 = List.replicate ds.length true ∧ s.env.tickSteps = d0 :: ds ++ ds' ∧
      timesOut s.cfg.tickW (5 : BitVec 16).toNat 0 ds = true := ⟨0, [], by decide⟩
/-- `timesOut` at its bounds: a timeout of 0, law 2's largest increase, one more than it, one check too many, one too few. -/
theorem witness_times_out :
    timesOut 16 0 0 [0] = true ∧ timesOut 16 5 0 [65531] = true ∧ timesOut 16 5 0 [65532] = false ∧
    timesOut 16 5 0 [5, 1] = false ∧ timesOut 16 5 0 [4] = false ∧ timesOut 16 5 0 [4, 0, 1] = true ∧
    tickValues 16 0xFFFE [1, 1, 5] = [0xFFFF, 0, 5] := by decide
theorem witness_write :
    let s := presenting 0x000A000200103C04 [0xAA, 0x55] [false, false, false, false] []
    ∃ rest, Ready s ∧ (0 : BusIx).toNat < s.cfg.nBus ∧ (0x3C : Byte).getLsbD 0 = false ∧
      s.env.samples = List.replicate ((2 : BitVec 16).toNat + 2) false ++ rest := ⟨[], by decide⟩
theorem witness_read :
    let bytes : List Byte := [0xAA]
    let s := presenting 0x000A000100103C05 [] ([false, false, false] ++ bytes.flatMap bitsOfByte) []
    ∃ rest, Ready s ∧ (0 : BusIx).toNat < s.cfg.nBus ∧ (0x3C : Byte).getLsbD 0 = false ∧
      bytes.length = (1 : BitVec 16).toNat ∧
      s.env.samples = [false, false, false] ++ bytes.flatMap bitsOfByte ++ rest := ⟨[], by decide⟩
theorem witness_readSeq :
    let bytes : List Byte := [0xAA, 0x55]
    let s := presenting 0x000700020000A016 [] ([false] ++ bytes.flatMap bitsOfByte) []
    ∃ rest, Ready s ∧ (1 : BusIx).toNat < s.cfg.nBus ∧ (0xA0 : Byte).getLsbD 0 = false ∧
      bytes.length = (2 : BitVec 16).toNat ∧
      s.env.samples = [false] ++ bytes.flatMap bitsOfByte ++ rest := ⟨[], by decide⟩
/-- An empty read: no byte, no sample but the acknowledges. -/
theorem witness_read_empty :
    let bytes : List Byte := []
    let s := presenting 0x000A000000103C05 [] [false, false, false] []
    ∃ rest, Ready s ∧ bytes.length = (0 : BitVec 16).toNat ∧
      s.env.samples = [false, false, false] ++ bytes.flatMap bitsOfByte ++ rest := ⟨[], by decide⟩
/-- The three commands of `AddressTimeoutAborts`, with both values of ENGINE_ABORT_STOP. -/
theorem witness_abort :
    (let s := presenting 0x000A000200103C04 [0xAA] [true] [0, 10]
     ∃ d0 ds', Ready s ∧ (0 : BusIx).toNat < s.cfg.nBus ∧ (0x3C : Byte).getLsbD 0 = false ∧
      (drawSamples [10].length s.env).1 = List.replicate [10].length true ∧ s.env.tickSteps = d0 :: [10] ++ ds' ∧
      timesOut s.cfg.tickW (10 : BitVec 16).toNat 0 [10] = true ∧ s.cfg.engineAbortStop = true) ∧
    (let s := { presenting 0x000A000200103C35 [] [true, true] [0, 9, 1] with
        cfg := { Config.default with engineAbortStop := false } }
     ∃ d0 ds', Ready s ∧ (3 : BusIx).toNat < s.cfg.nBus ∧ (0x3C : Byte).getLsbD 0 = false ∧
      (drawSamples [9, 1].length s.env).1 = List.replicate [9, 1].length true ∧ s.env.tickSteps = d0 :: [9, 1] ++ ds' ∧
      timesOut s.cfg.tickW (10 : BitVec 16).toNat 0 [9, 1] = true ∧ s.cfg.engineAbortStop = false) ∧
    (let s := presenting 0x000A000200003C06 [] [true] [0, 10]
     ∃ first d0 ds', Instr.readSeq 0 0x3C 2 10 = .readSeq 0 0x3C 2 10 ∧ first = (0x3C : Byte) ||| 1 ∧ first = 0x3D ∧
      Ready s ∧ (0 : BusIx).toNat < s.cfg.nBus ∧ (0x3C : Byte).getLsbD 0 = false ∧
      s.presented = some (encode (.readSeq 0 0x3C 2 10)) ∧
      (drawSamples [10].length s.env).1 = List.replicate [10].length true ∧ s.env.tickSteps = d0 :: [10] ++ ds' ∧
      timesOut s.cfg.tickW (10 : BitVec 16).toNat 0 [10] = true) :=
  ⟨⟨0, [], by decide⟩, ⟨0, [], by decide⟩, ⟨0x3D, 0, [], by decide⟩⟩
/-- P3 of 95_test_vectors.md: the first data byte fails; also an empty WRITE whose address fails, and a READ whose read address
does. -/
theorem witness_failing_byte :
    (let s := presenting 0x000A000300203C04 [0x01, 0x02, 0x03] [false, false, true] [0, 0, 0, 10]
     ∃ rest pre d0 ds', Ready s ∧ (0 : BusIx).toNat < s.cfg.nBus ∧ (0x3C : Byte).getLsbD 0 = false ∧
      2 < (3 : BitVec 16).toNat + 2 ∧
      s.env.samples = List.replicate 2 false ++ List.replicate [10].length true ++ rest ∧
      s.env.tickSteps = pre ++ d0 :: [10] ++ ds' ∧ pre.length = 2 ∧
      timesOut s.cfg.tickW (10 : BitVec 16).toNat 0 [10] = true) ∧
    (let s := presenting 0x000A000000203C04 [] [true] [0, 10]
     ∃ rest pre d0 ds', Ready s ∧ 0 < (0 : BitVec 16).toNat + 2 ∧
      s.env.samples = List.replicate 0 false ++ List.replicate [10].length true ++ rest ∧
      s.env.tickSteps = pre ++ d0 :: [10] ++ ds' ∧ pre.length = 0 ∧
      timesOut s.cfg.tickW (10 : BitVec 16).toNat 0 [10] = true) ∧
    (let s := presenting 0x000A000300203C05 [] [false, false, true, true] [1, 2, 3, 9, 1]
     ∃ rest pre d0 ds', Ready s ∧ (0 : BusIx).toNat < s.cfg.nBus ∧ (0x3C : Byte).getLsbD 0 = false ∧ 2 < 3 ∧
      s.env.samples = List.replicate 2 false ++ List.replicate [9, 1].length true ++ rest ∧
      s.env.tickSteps = pre ++ d0 :: [9, 1] ++ ds' ∧ pre.length = 2 ∧
      timesOut s.cfg.tickW (10 : BitVec 16).toNat 0 [9, 1] = true) :=
  ⟨⟨[], [0, 0], 0, [], by decide⟩, ⟨[], [], 0, [], by decide⟩, ⟨[], [1, 2], 3, [], by decide⟩⟩
theorem witness_transaction :
    Instr.isTransaction (.readSeq 3 0xA0 3 7) = true ∧ Ready State.reset ∧ State.reset.cfg.wf ∧
    (Instr.readSeq 3 0xA0 3 7).busExists State.reset.cfg = true ∧ (Instr.readSeq 3 0xA0 3 7).directionClear = true := by
  decide
/-- A HOLD that has to wait two steps, inside READ's data loop, and a CS_ENTER that has to. -/
def holdWaiting : State :=
  waiting { runningAt (.read 3 0x3C 0x10 2 10) (.call .readData (.seg .hold [] .readBit)) [] [] with
    phase := .dataPhase, csHeld := some 3, byteIdx := 1, bitCnt := 4 } 3 7 [2]
def enterWaiting : State := waiting (runningAt (.probe 0 0x3C 1) .csEnter [] []) 0 7 [2]
theorem witness_waiting :
    Inv holdWaiting ∧ Running holdWaiting ∧ (decode holdWaiting.cmd).toOption = some (.read 3 0x3C 0x10 2 10) ∧
    holdWaiting.ctrl = .call .readData (.seg .hold [] .readBit) ∧
    look (fun t => (t.trace, t.env.waits)) (exec (.read 3 0x3C 0x10 2 10) holdWaiting) = some ([], [1]) ∧
    Inv enterWaiting ∧ Running enterWaiting ∧ (decode enterWaiting.cmd).toOption = some (.probe 0 0x3C 1) ∧
    enterWaiting.ctrl = .csEnter ∧
    look (fun t => (t.trace, t.env.waits)) (exec (.probe 0 0x3C 1) enterWaiting) = some ([], [1]) := by
  refine ⟨⟨by decide, by decide, by decide, by decide, by decide, fun _ _ => ?_, by decide⟩, by decide, by decide, by decide,
    by decide, ⟨by decide, by decide, by decide, by decide, by decide, fun _ _ => ?_, by decide⟩, by decide, by decide,
    by decide, by decide⟩
  · have h : decode holdWaiting.cmd = .ok (.read 3 0x3C 0x10 2 10) := by decide
    unfold runningOk
    rw [h]
    decide
  · have h : decode enterWaiting.cmd = .ok (.probe 0 0x3C 1) := by decide
    unfold runningOk
    rw [h]
    decide
theorem witness_hold_of_zero :
    let s := waiting (runningAt (.stop 3) (.call .command (.seg .hold [] .ret)) [] []) 3 0 [2]
    Running s ∧ Site.command ∈ sites (.stop 3) ∧ s.ctrl = .call .command (.seg .hold [] .ret) ∧
    (s.bus (Instr.stop 3).bus).bitDelayUs = 0 := by decide
/-- A time check, the largest increase law 2 allows it, and one more that is cut. -/
theorem witness_law_2 :
    let s := runningAt (.write 0 0x3C 1 2 5) (.call .waitReg .check) [] [65532]
    Running s ∧ s.ctrl = .call .waitReg .check ∧
    look (fun t => t.env.tickNow) (exec (.write 0 0x3C 1 2 5) s) = some 65531 := by decide

/-- A state between commands and one inside READ's data loop meet the invariant, and the step there answers. -/
def inReadLoop : State :=
  { runningAt (.read 3 0x3C 0x10 2 10) .bufWr [] [] with
    phase := .dataPhase, csHeld := some 3, byteIdx := 1, shift := 0x55, buf := [(0, 0xAA)] }
theorem witness_invariant : Inv inReadLoop ∧ (look (fun t => t.byteIdx) (step inReadLoop) = some 2) :=
  ⟨⟨by decide, by decide, by decide, by decide, by decide,
    fun _ _ => by
      have h : decode inReadLoop.cmd = .ok (.read 3 0x3C 0x10 2 10) := by decide
      unfold runningOk
      rw [h]
      decide,
    by decide⟩, by decide⟩

/-- A wait_ack at its SAMPLE, the data line input, meets the line invariant. -/
def atPoll : State :=
  (runningAt (.waitAck 1 5) (.call .command .poll) [true] []).setBus 1 { Bus.reset with sdaDir := some .inp }
theorem witness_line_invariant :
    LineInv atPoll ∧ (look (fun t => t.trace) (step atPoll) = some [.sample 1 true]) := by
  refine ⟨fun _ i hi => ?_, by decide⟩
  have h : decode atPoll.cmd = .ok (.waitAck 1 5) := by decide
  rw [h] at hi
  obtain rfl : Instr.waitAck 1 5 = i := by simpa using hi
  exact ⟨by decide, by decide, by decide, trivial⟩

/-- A transaction at its CS_EXIT, its bus idle-high. -/
def atExit : State :=
  { runningAt (.probe 2 0x3C 5) (.csExit .ok) [] [] with phase := .stopped, csHeld := some 2 }.setBus 2
    { bitDelayUs := 0, sclOut := some true, sdaDir := some .out, sdaOut := some true }
theorem witness_exit :
    LineInv atExit ∧ (look (fun t => t.trace) (step atExit) = some [.csExit 2]) := by
  refine ⟨fun _ i hi => ?_, by decide⟩
  have h : decode atExit.cmd = .ok (.probe 2 0x3C 5) := by decide
  rw [h] at hi
  obtain rfl : Instr.probe 2 0x3C 5 = i := by simpa using hi
  exact ⟨by decide, by decide, by decide⟩

theorem witness_other_bus : Instr.start 0 ≠ .init ∧ (15 : BusIx) ≠ (Instr.start 0).bus := by decide
theorem witness_delays :
    (look (fun t => (t.bus 1).bitDelayUs) (step (runningAt (.setDelay 1 100) (.respond .ok 0) [] [])) = some 100) ∧
    (State.reset.bus 1).bitDelayUs = 0 ∧
    (look (fun t => (t.bus 2).bitDelayUs)
      (step ((runningAt .init (.respond .ok 0) [] []).setBus 2 { Bus.reset with bitDelayUs := 7 })) = some 0) := by decide
theorem witness_buffer_write :
    Running inReadLoop ∧ Memory.wf inReadLoop.buf = true ∧ inReadLoop.ctrl = .bufWr ∧
    (look (fun t => t.byteIdx) (exec (.read 3 0x3C 0x10 2 10) inReadLoop) = some 2) := by decide
theorem witness_primitive_frame :
    let s := runningAt (.stop 3) (.call .command (stopPos .ret)) [] []
    sites (.stop 3) = [.command] ∧ Running s ∧ ctrlOk s.cfg.nBus (.stop 3) s.byteIdx s.ctrl = true ∧
    (look (fun t => t.busy) (exec (.stop 3) s) = some true) := by decide
theorem witness_transaction_frame :
    Instr.isTransaction (.probe 2 0x3C 5) = true ∧ Running atExit ∧
    (look (fun t => t.csHeld) (exec (.probe 2 0x3C 5) atExit) = some none) := by decide
/-- R149's boundaries: a single byte gets no ACK; of two bytes the first does. -/
theorem witness_last_byte :
    moreBytes 0 1 = false ∧ moreBytes 0 2 = true ∧ moreBytes 1 2 = false ∧ moreBytes 65533 65535 = true ∧
    moreBytes 65534 65535 = false := by decide
/-- R205 at the wrap: the counter has gone all but once round. -/
theorem witness_elapsed : elapsed 16 ((65536 + 4) % 2 ^ 16) (5 % 2 ^ 16) = 65535 ∧ (65536 + 4) - 5 < 2 ^ 16 := by decide

end Sys2Proof.Tests
end

section
/-! PROOFS. The decoder reads back every command from its word. -/

namespace Sys2Proof

/-- A word whose other fields are 0 is its opcode's MATCH (R78). -/
theorem layout_eq_matchOf (op : BitVec 4) : layout 0 false 0 0 0 op = matchOf op := by
  simp [layout, matchOf]

/-- A mask of LEN alone leaves nothing of a TIMEOUT. -/
theorem timeoutLen_and_lenMask (t : BitVec 16) : timeoutLen t 0 &&& 0x0000FFFF = 0 := by
  rw [← timeoutLen_halves (timeoutLen t 0 &&& 0x0000FFFF), BitVec.extractLsb'_and, BitVec.extractLsb'_and,
    low_timeoutLen, high_timeoutLen, show (0x0000FFFF : BitVec 32).extractLsb' 16 16 = 0 by decide,
    show t &&& 0 = 0 from BitVec.and_zero]
  decide

section
variable {h h' : BitVec 32} {k k' : Bool} {r r' a a' : Byte} {b op : BitVec 4} {i : Instr}

/-- A laid-out word whose fields are 0 wherever the mask of its opcode is 1 decodes to the command of its fields (R78, R80). -/
theorem decode_layout (hf : fromFields (layout h k r a b op) = some i)
    (hm : maskOf op = some (layout h' k' r' a' 0 0xF ||| rsvBits)) (hh : h &&& h' = 0) (hk : (k && k') = false)
    (hr : r &&& r' = 0) (ha : a &&& a' = 0) :
    decode (layout h k r a b op) = .ok i := by
  have hop : op &&& 0xF = op := BitVec.and_allOnes
  have hw : layout h k r a b op &&& (layout h' k' r' a' 0 0xF ||| rsvBits) = matchOf op := by
    rw [layout_and, hh, hk, hr, ha, hop, show b &&& 0 = 0 from BitVec.and_zero, layout_eq_matchOf]
  rw [decode_of_mask (opField_layout ..) hm hw, hf]

/-- The same for a row of R78's table whose mask leaves only BUS free. -/
theorem decode_busOnly (hf : fromFields (layout 0 false 0 0 b op) = some i)
    (hm : maskOf op = some (layout 0xFFFFFFFF true 0xFF 0xFF 0 0xF ||| rsvBits)) :
    decode (layout 0 false 0 0 b op) = .ok i :=
  decode_layout hf hm rfl rfl rfl rfl
end

/-- The decoder reads back every command from its word (R71, R77, R78). -/
theorem decode_encode (i : Instr) : decode (encode i) = .ok i := by
  have hf : fromFields (encode i) = some i := by cases i <;> simp [encode, fromFields]
  cases i with
  | init => decide
  | setDelay b d =>
    exact decode_layout (h' := 0) (k' := true) (r' := 0xFF) (a' := 0xFF) hf (by decide) BitVec.and_zero rfl rfl rfl
  | probe b a t =>
    exact decode_layout (h' := 0xFFFF) (k' := true) (r' := 0xFF) (a' := 0) hf (by decide) (timeoutLen_and_lenMask t)
      rfl rfl BitVec.and_zero
  | write b a r n t =>
    exact decode_layout (h' := 0) (k' := true) (r' := 0) (a' := 0) hf (by decide) BitVec.and_zero rfl BitVec.and_zero
      BitVec.and_zero
  | read b a r n t =>
    exact decode_layout (h' := 0) (k' := true) (r' := 0) (a' := 0) hf (by decide) BitVec.and_zero rfl BitVec.and_zero
      BitVec.and_zero
  | readSeq b a n t =>
    exact decode_layout (h' := 0) (k' := true) (r' := 0xFF) (a' := 0) hf (by decide) BitVec.and_zero rfl rfl
      BitVec.and_zero
  | start b => exact decode_busOnly hf (by decide)
  | stop b => exact decode_busOnly hf (by decide)
  | sendByte b v =>
    exact decode_layout (h' := 0xFFFFFFFF) (k' := true) (r' := 0xFF) (a' := 0) hf (by decide) rfl rfl rfl
      BitVec.and_zero
  | readByte b k =>
    exact decode_layout (h' := 0xFFFFFFFF) (k' := false) (r' := 0xFF) (a' := 0xFF) hf (by decide) rfl
      (Bool.and_false k) rfl rfl
  | waitAck b t =>
    exact decode_layout (h' := 0xFFFF) (k' := true) (r' := 0xFF) (a' := 0xFF) hf (by decide) (timeoutLen_and_lenMask t)
      rfl rfl rfl
  | ack b => exact decode_busOnly hf (by decide)
  | nack b => exact decode_busOnly hf (by decide)

end Sys2Proof
end

section
/-! PROOFS. What one step of a running command leaves unchanged: the frame of an event, and what follows from it (O46, O48). -/

namespace Sys2Proof.Machine

/-! ## Going on from one event to the next -/

/-- What the sequencer leaves alone as it goes on from one event to the next: everything but the control point, PHASE, SHIFT,
BYTEIDX, the trace and the collaborators. -/
structure GoesOn (s t : State) : Prop where
  cfg : t.cfg = s.cfg
  buses : t.buses = s.buses
  busy : t.busy = s.busy
  cmd : t.cmd = s.cmd
  t0 : t.t0 = s.t0
  csHeld : t.csHeld = s.csHeld
  resp : t.resp = s.resp
  refused : t.refused = s.refused
  buf : t.buf = s.buf
  done : t.done = s.done
  host : t.host = s.host

theorem GoesOn.of_writes (s : State) (c : Ctrl) (p : Phase) (v : Byte) (k : BitVec 16) (tr : List Event) (e : Env) :
    GoesOn s { s with ctrl := c, phase := p, shift := v, byteIdx := k, trace := tr, env := e } :=
  ⟨rfl, rfl, rfl, rfl, rfl, rfl, rfl, rfl, rfl, rfl, rfl⟩

section
variable {s t u : State} {site : Site} {a8 reg : Byte} {n : BitVec 16}

theorem GoesOn.trans (h : GoesOn s t) (k : GoesOn t u) : GoesOn s u :=
  ⟨k.cfg.trans h.cfg, k.buses.trans h.buses, k.busy.trans h.busy, k.cmd.trans h.cmd, k.t0.trans h.t0,
   k.csHeld.trans h.csHeld, k.resp.trans h.resp, k.refused.trans h.refused, k.buf.trans h.buf, k.done.trans h.done,
   k.host.trans h.host⟩

theorem phaseInside_goesOn (site : Site) (s : State) : GoesOn s (phaseInside site s) := by
  cases site <;> exact .of_writes ..

theorem writeNext_goesOn (n : BitVec 16) (s : State) : GoesOn s (writeNext n s) := by
  unfold writeNext
  split <;> exact .of_writes ..

theorem readNext_goesOn (n : BitVec 16) (s : State) : GoesOn s (readNext n s) := by
  unfold readNext
  split <;> exact .of_writes ..

theorem unlessAborted_goesOn {next : State → State} (h : GoesOn s (next s)) : GoesOn s (unlessAborted next s) := by
  unfold unlessAborted abort
  split
  · exact h
  · split <;> exact .of_writes ..

theorem respondAfter_goesOn {answer : State → Ctrl} (h : respondAfter answer site s = some t) : GoesOn s t := by
  cases site <;> cases h
  exact .of_writes ..

theorem probeFlow_goesOn (h : probeFlow a8 site s = some t) : GoesOn s t := by
  cases site
  case waitAddrW =>
    simp only [probeFlow] at h
    split at h <;> cases h <;> exact .of_writes ..
  all_goals cases h
  all_goals exact .of_writes ..

theorem writeFlow_goesOn (h : writeFlow a8 reg n site s = some t) : GoesOn s t := by
  cases site <;> cases h
  case waitAddrW => exact unlessAborted_goesOn (.of_writes ..)
  case waitReg => exact unlessAborted_goesOn ((GoesOn.of_writes ..).trans (writeNext_goesOn ..))
  case waitData => exact unlessAborted_goesOn ((GoesOn.of_writes ..).trans (writeNext_goesOn ..))
  all_goals exact .of_writes ..

theorem readFlow_goesOn (h : readFlow a8 reg n site s = some t) : GoesOn s t := by
  cases site <;> cases h
  case waitAddrW => exact unlessAborted_goesOn (.of_writes ..)
  case waitReg => exact unlessAborted_goesOn (.of_writes ..)
  case waitAddrR => exact unlessAborted_goesOn ((GoesOn.of_writes ..).trans (readNext_goesOn ..))
  all_goals exact .of_writes ..

theorem readSeqFlow_goesOn (h : readSeqFlow a8 n site s = some t) : GoesOn s t := by
  cases site <;> cases h
  case waitAddrR => exact unlessAborted_goesOn ((GoesOn.of_writes ..).trans (readNext_goesOn ..))
  all_goals exact .of_writes ..

/-- What a command does when a called primitive returns is only going on. -/
theorem flowOf_goesOn {i : Instr} (h : flowOf i site s = some t) : GoesOn s t := by
  cases i with
  | init => cases h
  | setDelay => cases h
  | probe => exact probeFlow_goesOn h
  | write => exact writeFlow_goesOn h
  | read => exact readFlow_goesOn h
  | readSeq => exact readSeqFlow_goesOn h
  | _ => simp only [flowOf] at h; exact respondAfter_goesOn h

end

/-! ## One event of a running command -/

/-- What an event step of a running command on bus `b` leaves alone, and what it may write where. -/
structure EventFrame (b : BusIx) (s t : State) : Prop where
  cfg : t.cfg = s.cfg
  busy : t.busy = s.busy
  cmd : t.cmd = s.cmd
  resp : t.resp = s.resp
  refused : t.refused = s.refused
  done : t.done = s.done
  host : t.host = s.host
  otherBuses : ∀ c, c ≠ b → t.bus c = s.bus c
  t0 : s.t0 < 2 ^ s.cfg.tickW → t.t0 < 2 ^ s.cfg.tickW
  csHeld : s.ctrl ≠ .csEnter → (∀ st, s.ctrl ≠ .csExit st) → t.csHeld = s.csHeld
  buf : t.buf = if s.ctrl = .bufWr then Memory.write s.buf s.byteIdx.toNat s.shift else s.buf

section
variable {b : BusIx} {s t u : State}

/-- A step inside a primitive, then going on. -/
theorem EventFrame.of_primitive {site : Site} {p : Pos} (hc : s.ctrl = .call site p) (hu : Untouched b s u)
    (h0 : s.t0 < 2 ^ s.cfg.tickW → u.t0 < 2 ^ s.cfg.tickW) (ht : GoesOn u t) : EventFrame b s t where
  cfg := ht.cfg.trans hu.cfg
  busy := ht.busy.trans hu.busy
  cmd := ht.cmd.trans hu.cmd
  resp := ht.resp.trans hu.resp
  refused := ht.refused.trans hu.refused
  done := ht.done.trans hu.done
  host := ht.host.trans hu.host
  otherBuses c hcb := (bus_congr ht.buses c).trans (hu.otherBuses c hcb)
  t0 h := ht.t0 ▸ h0 h
  csHeld _ _ := ht.csHeld.trans hu.csHeld
  buf := by simpa [hc] using ht.buf.trans hu.buf

/-- One of the engine's own events: it may write CS_HELD and the buffer, and goes on. -/
theorem EventFrame.of_engine {cs : Option BusIx} {m : Memory} (ht : GoesOn { s with csHeld := cs, buf := m } t)
    (hcs : s.ctrl ≠ .csEnter → (∀ st, s.ctrl ≠ .csExit st) → cs = s.csHeld)
    (hm : m = if s.ctrl = .bufWr then Memory.write s.buf s.byteIdx.toNat s.shift else s.buf) : EventFrame b s t where
  cfg := ht.cfg
  busy := ht.busy
  cmd := ht.cmd
  resp := ht.resp
  refused := ht.refused
  done := ht.done
  host := ht.host
  otherBuses c _ := bus_congr ht.buses c
  t0 h := ht.t0 ▸ h
  csHeld h h' := ht.csHeld.trans (hcs h h')
  buf := ht.buf.trans hm

theorem csEnterStep_frame (hc : s.ctrl = .csEnter) : EventFrame b s (csEnterStep b s) := by
  unfold csEnterStep
  split
  · rename_i u hu
    obtain ⟨n, ws, -, rfl⟩ := collaboratorWait_some hu
    exact .of_engine (.of_writes ..) (fun _ _ => rfl) (by simp [hc])
  · exact .of_engine (cs := some b) (.of_writes ..) (fun h => absurd hc h) (by simp [hc])

theorem csExitStep_frame {st : Status} (hc : s.ctrl = .csExit st) : EventFrame b s (csExitStep b st s) :=
  .of_engine (cs := none) (.of_writes ..) (fun _ h => absurd hc (h st)) (by simp [hc])

theorem bufRdStep_frame {n : BitVec 16} (hc : s.ctrl = .bufRd) (h : bufRdStep n s = some t) : EventFrame b s t := by
  unfold bufRdStep at h
  split at h <;> cases h
  exact .of_engine (.of_writes ..) (fun _ _ => rfl) (by simp [hc])

theorem bufWrStep_frame {n : BitVec 16} (hc : s.ctrl = .bufWr) (h : bufWrStep n s = some t) : EventFrame b s t := by
  unfold bufWrStep at h
  split at h <;> cases h
  exact .of_engine ((GoesOn.of_writes ..).trans (readNext_goesOn ..)) (fun _ _ => rfl) (by simp [hc])

theorem callStep_frame {a : CallArgs} {i : Instr} {site : Site} {p : Pos} (hc : s.ctrl = .call site p)
    (h : callStep a (flowOf i) site p s = some t) : EventFrame a.bus s t := by
  have hu := primStep_untouched a p s
  have h0 := primStep_t0 a p s
  unfold callStep at h
  split at h <;> rename_i hp <;> rw [hp] at hu h0
  · cases h
    exact .of_primitive hc hu h0 ((phaseInside_goesOn ..).trans (.of_writes ..))
  · exact .of_primitive hc hu h0 ((phaseInside_goesOn ..).trans (flowOf_goesOn h))

/-- A step of a running command that calls primitives is its respond, or an event. -/
theorem exec_running_frame {i : Instr} (hi : sites i ≠ []) (hr : Running s) (h : exec i s = .next t) :
    (∃ st rd n, s.ctrl = .respond st rd ∧ t = respond n st rd s) ∨ EventFrame i.bus s t := by
  rw [exec_running hi hr] at h
  rw [← argsOf_bus i s.byteIdx]
  rcases runBusy_next h with ⟨hc, rfl⟩ | ⟨site, p, hc, h⟩ | ⟨hc, h⟩ | ⟨hc, h⟩ | ⟨st, hc, rfl⟩ | ⟨st, rd, hc, rfl⟩
  · exact .inr (csEnterStep_frame hc)
  · exact .inr (callStep_frame hc h)
  · exact .inr (bufRdStep_frame hc h)
  · exact .inr (bufWrStep_frame hc h)
  · exact .inr (csExitStep_frame hc)
  · exact .inl ⟨st, rd, _, hc, rfl⟩

/-- The one step of a running command without events is its respond, which may write the delays (log entry 9). -/
theorem runConfigure_respond {i : Instr} {effect : State → State} (he : ∃ v, effect s = { s with buses := v })
    (hr : Running s) (h : runConfigure i effect s = .next t) :
    ∃ st rd v, s.ctrl = .respond st rd ∧ t = respond 0 st rd { s with buses := v } := by
  obtain ⟨v, hv⟩ := he
  rcases runConfigure_next h with ⟨-, ⟨hb, -⟩ | ⟨-, rd, hc, rfl⟩ | ⟨-, st, rd, -, hc, rfl⟩⟩
  · exact absurd (hr.2.symm.trans hb) (by decide)
  · exact ⟨.ok, rd, v, hc, by rw [hv]⟩
  · exact ⟨st, rd, s.buses, hc, rfl⟩

/-- The commands that call no primitive are INIT and SET_DELAY (R180, R181). -/
theorem exec_configure_respond {i : Instr} (hi : sites i = []) (hr : Running s) (h : exec i s = .next t) :
    ∃ st rd v, s.ctrl = .respond st rd ∧ t = respond 0 st rd { s with buses := v } := by
  cases i with
  | init => exact runConfigure_respond ⟨_, rfl⟩ hr h
  | setDelay => exact runConfigure_respond ⟨_, rfl⟩ hr h
  | _ => cases hi

end

/-! ## The statements about a step of a running command -/

theorem sites_ne_nil_of_isTransaction {i : Instr} (h : Instr.isTransaction i = true) : sites i ≠ [] := by
  cases i <;> simp_all [Instr.isTransaction, Instr.address, sites]

/-- Settles O48: an event keeps what `EventFrame` says, and the respond step writes only RESP, BUSY, the control point and the
record of the run. -/
theorem transactionStepFrame : Obligations.TransactionStepFrame := by
  intro i s t hi hr h
  rcases exec_running_frame (sites_ne_nil_of_isTransaction hi) hr h with ⟨st, rd, n, hc, rfl⟩ | hf
  · exact ⟨rfl, rfl, rfl, rfl, fun _ _ => rfl, fun hn => absurd hc (hn st rd), fun _ _ => rfl⟩
  · exact ⟨hf.cmd, hf.cfg, hf.refused, hf.host, hf.otherBuses, fun _ => ⟨hf.resp, hf.done, hf.busy.trans hr.2⟩, hf.csHeld⟩

/-- A running command's step writes the byte in SHIFT at index BYTEIDX of the buffer if it is a BUF_WR, and else leaves the
buffer alone (R51, R60). -/
theorem exec_running_buf {i : Instr} {s t : State} (hr : Running s) (h : exec i s = .next t) :
    t.buf = if s.ctrl = .bufWr then Memory.write s.buf s.byteIdx.toNat s.shift else s.buf := by
  by_cases hi : sites i = []
  · obtain ⟨st, rd, v, hc, rfl⟩ := exec_configure_respond hi hr h
    simp [hc, respond]
  · rcases exec_running_frame hi hr h with ⟨st, rd, n, hc, rfl⟩ | hf
    · simp [hc, respond]
    · exact hf.buf

/-- Settles O46: the buffer after the step is the old one, or the old one with one byte written at a BUF_WR. -/
theorem bufferIsWrittenOnlyAtByteIdx : Obligations.BufferIsWrittenOnlyAtByteIdx := by
  intro i s t hr hwf h
  rw [exec_running_buf hr h]
  by_cases hc : s.ctrl = .bufWr
  · rw [if_pos hc]
    exact ⟨fun k hk => read_write_other (hk hc), fun _ => read_write_same hwf⟩
  · rw [if_neg hc]
    exact ⟨fun _ _ => rfl, fun hc' => absurd hc' hc⟩

end Sys2Proof.Machine
end

section
/-! PROOFS. Where a running command can be: arriving at a control point, inside a primitive, after it returns. -/

namespace Sys2Proof.Machine

/-! ## The control point of a running command -/

/-- What `runningOk` says of a command that decodes. -/
def AtPosition (i : Instr) (s : State) : Prop :=
  ctrlOk s.cfg.nBus i s.byteIdx s.ctrl = true ∧ phaseOk i s.byteIdx s.ctrl s.phase = true ∧ s.csHeld = heldAt i s.ctrl

theorem runningOk_iff {i : Instr} {s : State} (h : decode s.cmd = .ok i) : runningOk s ↔ AtPosition i s := by
  unfold runningOk
  rw [h]
  rfl

/-- A transaction on an existing bus holds its critical section (R32). -/
structure InSection (i : Instr) (s : State) : Prop where
  transaction : Instr.isTransaction i = true
  range : busInRange s.cfg.nBus i = true
  held : s.csHeld = some i.bus

/-- What holds inside a primitive called from `site`, at every position but the first of read_byte. -/
structure InCall (i : Instr) (site : Site) (s : State) : Prop where
  mem : site ∈ sites i
  range : busInRange s.cfg.nBus i = true
  loop : site.inDataLoop = true → s.byteIdx.toNat < bufferLen i
  phase : phaseOk i s.byteIdx (.call site .poll) s.phase = true
  held : s.csHeld = heldAt i (.call site .poll)

/-- The loop over BYTEIDX of a command with `n` bytes begins a round (R35, R146). -/
structure AtLoopHead (i : Instr) (n : BitVec 16) (s : State) : Prop where
  len : bufferLen i = n.toNat
  le : s.byteIdx.toNat ≤ n.toNat
  phase : s.phase = if s.byteIdx = 0 then phaseBeforeData i else .dataPhase

section
variable {i : Instr} {s t u : State} {site : Site} {n : BitVec 16}

theorem isTransaction_of_mem_sites (h : site ∈ sites i) (hne : site ≠ .command) : Instr.isTransaction i = true := by
  cases i <;> simp_all [sites, Instr.isTransaction, Instr.address]

theorem command_notMem_sites (h : Instr.isTransaction i = true) : Site.command ∉ sites i := by
  cases i <;> simp_all [sites, Instr.isTransaction, Instr.address]

/-- Every transaction has its opening start, its closing stop and a stop for a failed wait (R140, R145). -/
theorem engineSites_mem_sites (h : Instr.isTransaction i = true) :
    .openStart ∈ sites i ∧ .closeStop ∈ sites i ∧ .abortStop ∈ sites i := by
  cases i <;> simp_all [sites, Instr.isTransaction, Instr.address]

theorem sendData_mem_sites (h : readsBuffer i = true) : .sendData ∈ sites i := by
  cases i <;> simp_all [sites, readsBuffer]

theorem readData_mem_sites (h : writesBuffer i = true) : .readData ∈ sites i := by
  cases i <;> simp_all [sites, writesBuffer]

theorem canFail_of_isTransaction (h : Instr.isTransaction i = true) : canFail i = true := by
  cases i <;> simp_all [canFail, Instr.isTransaction, Instr.address]

/-- A transaction holds its section in every primitive it calls (R32). -/
theorem heldAt_call (p : Pos) (h : site ≠ .command) : heldAt i (.call site p) = some i.bus := by
  cases site
  case command => exact absurd rfl h
  all_goals rfl

theorem poll_ne_readPos : Pos.poll ≠ readPos := by decide

/-- The position inside the primitive says nothing about PHASE, but for the first of read_byte. -/
theorem phaseOk_call {p : Pos} (hp : p ≠ readPos) (k : BitVec 16) (ph : Phase) :
    phaseOk i k (.call site p) ph = phaseOk i k (.call site .poll) ph := by
  cases site
  case readData => simp [phaseOk, hp, poll_ne_readPos]
  all_goals rfl

/-- The positions inside a primitive (R22). -/
theorem ctrlOk_call {nBus : Nat} {k : BitVec 16} {p : Pos} :
    ctrlOk nBus i k (.call site p) = true ↔
      site ∈ sites i ∧ p.opensRead = true ∧ (site.inDataLoop = true → k.toNat < bufferLen i) ∧
        busInRange nBus i = true := by
  cases hl : site.inDataLoop <;> simp [ctrlOk, hl, and_assoc]

/-! ## Arriving at a control point inside a transaction -/

theorem InSection.at_call {p : Pos} (h : InSection i s) (hs : site ∈ sites i) (hp : p.opensRead = true)
    (hk : site.inDataLoop = true → s.byteIdx.toNat < bufferLen i)
    (hph : phaseOk i s.byteIdx (.call site p) s.phase = true) : AtPosition i (call site p s) := by
  have hne : site ≠ .command := fun e => command_notMem_sites h.transaction (e ▸ hs)
  exact ⟨ctrlOk_call.mpr ⟨hs, hp, hk, h.range⟩, hph, h.held.trans (heldAt_call p hne).symm⟩

theorem InSection.setPhase (h : InSection i s) (p : Phase) : InSection i (s.setPhase p) :=
  ⟨h.transaction, h.range, h.held⟩

theorem InSection.at_leave (h : InSection i s) {st : Status} (hst : st ≠ .illegal)
    (hph : s.phase = if st = .ok then .stopped else .aborted) : AtPosition i (leave st s) :=
  ⟨by simp [leave, ctrlOk, hst, h.transaction, h.range], by simp [leave, phaseOk, hph], h.held⟩

/-- After a failed wait_ack: the engine's own stop, or CS_EXIT at once (R145). -/
theorem InSection.at_abort (h : InSection i s) : AtPosition i (abort s) := by
  unfold abort
  split
  · exact (h.setPhase _).at_call (engineSites_mem_sites h.transaction).2.2 rfl nofun rfl
  · exact (h.setPhase _).at_leave nofun rfl

/-- After the closing stop (R140, R146). -/
theorem InSection.at_closeOk (h : InSection i s) : AtPosition i (closeOk s) := (h.setPhase _).at_leave nofun rfl

theorem InSection.at_unlessAborted (h : InSection i s) {next : State → State} (hn : AtPosition i (next s)) :
    AtPosition i (unlessAborted next s) := by
  unfold unlessAborted
  split
  · exact hn
  · exact h.at_abort

/-! ## The loop over BYTEIDX -/

theorem AtLoopHead.first (hl : bufferLen i = n.toNat) (hph : s.phase = phaseBeforeData i) :
    AtLoopHead i n { s with byteIdx := 0 } :=
  ⟨hl, Nat.zero_le _, hph⟩

theorem AtLoopHead.next (hl : bufferLen i = n.toNat) (hk : s.byteIdx.toNat < bufferLen i) (hph : s.phase = .dataPhase) :
    AtLoopHead i n { s with byteIdx := s.byteIdx + 1 } := by
  have hn := n.isLt
  have hadd : (s.byteIdx + 1).toNat = s.byteIdx.toNat + 1 := by
    rw [BitVec.toNat_add_of_lt (by simp; omega)]; rfl
  have hne : s.byteIdx + 1 ≠ 0 := fun e => Nat.succ_ne_zero _ (hadd.symm.trans (congrArg BitVec.toNat e))
  exact ⟨hl, by simp only [hadd]; omega, hph.trans (if_neg hne).symm⟩

theorem AtLoopHead.lt (h : AtLoopHead i n s) (hne : s.byteIdx ≠ n) : s.byteIdx.toNat < bufferLen i :=
  h.len ▸ lt_of_le_of_ne h.le fun e => hne (BitVec.eq_of_toNat_eq e)

/-- The loop is over: the closing stop (R142 to R144). -/
theorem AtLoopHead.at_closeStop (h : AtLoopHead i n s) (hs : InSection i s) (he : s.byteIdx = n) :
    AtPosition i (call .closeStop (stopPos .ret) s) := by
  refine hs.at_call (engineSites_mem_sites hs.transaction).2.1 rfl nofun ?_
  have h0 : bufferLen i = 0 ↔ s.byteIdx = 0 := by simp [h.len, he, BitVec.toNat_eq]
  simp [phaseOk, h.phase, h0]

theorem AtLoopHead.at_writeNext (h : AtLoopHead i n s) (hs : InSection i s) (hw : readsBuffer i = true) :
    AtPosition i (writeNext n s) := by
  unfold writeNext
  split
  · exact h.at_closeStop hs ‹_›
  · exact ⟨by simp [ctrlOk, hw, h.lt ‹_›, hs.range], decide_eq_true h.phase, hs.held⟩

theorem AtLoopHead.at_readNext (h : AtLoopHead i n s) (hs : InSection i s) (hr : .readData ∈ sites i) :
    AtPosition i (readNext n s) := by
  unfold readNext
  split
  · exact h.at_closeStop hs ‹_›
  · exact hs.at_call hr rfl (fun _ => h.lt ‹_›) (by simp [phaseOk, h.phase])

/-! ## Inside a primitive and after it -/

theorem InCall.position (h : InCall i site s) {p : Pos} (hp : p.opensRead = true) (hne : p ≠ readPos) :
    AtPosition i (call site p s) := by
  refine ⟨ctrlOk_call.mpr ⟨h.mem, hp, h.loop, h.range⟩, (phaseOk_call hne ..).trans h.phase, h.held.trans ?_⟩
  cases site <;> rfl

theorem InCall.inSection (h : InCall i site s) (hne : site ≠ .command) : InSection i s :=
  ⟨isTransaction_of_mem_sites h.mem hne, h.range, h.held.trans (heldAt_call .poll hne)⟩

/-- A step inside a primitive is still inside it (R22, R146). -/
theorem AtPosition.inCall (h : AtPosition i s) {p : Pos} {b : BusIx} (hc : s.ctrl = .call site p) (hu : Untouched b s u) :
    InCall i site (phaseInside site u) := by
  obtain ⟨hctrl, hph, hheld⟩ := h
  rw [hc] at hctrl hph hheld
  obtain ⟨hmem, -, hloop, hrange⟩ := ctrlOk_call.mp hctrl
  have hg := phaseInside_goesOn site u
  have hk : (phaseInside site u).byteIdx = s.byteIdx := by rw [← hu.byteIdx]; cases site <;> rfl
  refine ⟨hmem, by rwa [hg.cfg, hu.cfg], by rwa [hk], ?_, ?_⟩
  · rw [hk]
    cases site
    case readData => simp [phaseOk, phaseInside, poll_ne_readPos]
    all_goals exact (congrArg (phaseOk i s.byteIdx _) hu.phase).trans hph
  · rw [hg.csHeld, hu.csHeld, hheld]
    cases site <;> rfl

/-- After a data byte is received: its BUF_WR (R143, R144). -/
theorem InCall.byteReceived (h : InCall i .readData s) (hw : writesBuffer i = true) : AtPosition i (s.goto .bufWr) :=
  have hph : s.phase = .dataPhase := by simpa [phaseOk, poll_ne_readPos] using h.phase
  ⟨by simp [ctrlOk, hw, h.loop rfl, h.range], decide_eq_true hph, h.held⟩

/-- After the stop for a failed wait_ack (R141, R145). -/
theorem InCall.abortDone (h : InCall i .abortStop s) : AtPosition i (leave .fail s) :=
  (h.inSection nofun).at_leave nofun (of_decide_eq_true h.phase)

/-! ## What each command does when a primitive returns -/

section
variable {b : BusIx} {a8 reg : Byte} {timeout : BitVec 16}

theorem probeFlow_position (h : InCall (.probe b a8 timeout) site s) (hf : probeFlow a8 site s = some t) :
    AtPosition (.probe b a8 timeout) t := by
  have hs := h.inSection (by rintro rfl; cases hf)
  cases site
  case waitAddrW =>
    simp only [probeFlow] at hf
    split at hf <;> cases hf
    · exact (hs.setPhase _).at_call (by simp [sites]) rfl nofun rfl
    · exact (hs.setPhase _).at_call (by simp [sites]) rfl nofun rfl
  all_goals cases hf
  case openStart => exact (hs.setPhase .started).at_call (by simp [sites]) rfl nofun rfl
  case sendAddrW => exact hs.at_call (by simp [sites]) rfl nofun h.phase
  case closeStop => exact hs.at_closeOk
  case abortStop => exact h.abortDone

theorem writeFlow_position (h : InCall (.write b a8 reg n timeout) site s) (hf : writeFlow a8 reg n site s = some t) :
    AtPosition (.write b a8 reg n timeout) t := by
  have hs := h.inSection (by rintro rfl; cases hf)
  cases site <;> cases hf
  case openStart => exact (hs.setPhase .started).at_call (by simp [sites]) rfl nofun rfl
  case sendAddrW => exact hs.at_call (by simp [sites]) rfl nofun h.phase
  case waitAddrW => exact hs.at_unlessAborted ((hs.setPhase .addressSent).at_call (by simp [sites]) rfl nofun rfl)
  case sendReg => exact hs.at_call (by simp [sites]) rfl nofun h.phase
  case waitReg => exact hs.at_unlessAborted (AtLoopHead.at_writeNext (.first rfl rfl) ⟨rfl, hs.range, hs.held⟩ rfl)
  case sendData => exact hs.at_call (by simp [sites]) rfl h.loop h.phase
  case waitData =>
    exact hs.at_unlessAborted (AtLoopHead.at_writeNext (.next rfl (h.loop rfl) (of_decide_eq_true h.phase))
      ⟨rfl, hs.range, hs.held⟩ rfl)
  case closeStop => exact hs.at_closeOk
  case abortStop => exact h.abortDone

theorem readFlow_position (h : InCall (.read b a8 reg n timeout) site s) (hf : readFlow a8 reg n site s = some t) :
    AtPosition (.read b a8 reg n timeout) t := by
  have hs := h.inSection (by rintro rfl; cases hf)
  cases site <;> cases hf
  case openStart => exact (hs.setPhase .started).at_call (by simp [sites]) rfl nofun rfl
  case sendAddrW => exact hs.at_call (by simp [sites]) rfl nofun h.phase
  case waitAddrW => exact hs.at_unlessAborted ((hs.setPhase .addressSent).at_call (by simp [sites]) rfl nofun rfl)
  case sendReg => exact hs.at_call (by simp [sites]) rfl nofun h.phase
  case waitReg => exact hs.at_unlessAborted ((hs.setPhase .registerSent).at_call (by simp [sites]) rfl nofun rfl)
  case repeatStart => exact (hs.setPhase .restarted).at_call (by simp [sites]) rfl nofun rfl
  case sendAddrR => exact hs.at_call (by simp [sites]) rfl nofun h.phase
  case waitAddrR =>
    exact hs.at_unlessAborted (AtLoopHead.at_readNext (.first rfl rfl) ⟨rfl, hs.range, hs.held⟩ (by simp [sites]))
  case readData => exact h.byteReceived rfl
  case closeStop => exact hs.at_closeOk
  case abortStop => exact h.abortDone

theorem readSeqFlow_position (h : InCall (.readSeq b a8 n timeout) site s) (hf : readSeqFlow a8 n site s = some t) :
    AtPosition (.readSeq b a8 n timeout) t := by
  have hs := h.inSection (by rintro rfl; cases hf)
  cases site <;> cases hf
  case openStart => exact (hs.setPhase .started).at_call (by simp [sites]) rfl nofun rfl
  case sendAddrR => exact hs.at_call (by simp [sites]) rfl nofun h.phase
  case waitAddrR =>
    exact hs.at_unlessAborted (AtLoopHead.at_readNext (.first rfl rfl) ⟨rfl, hs.range, hs.held⟩ (by simp [sites]))
  case readData => exact h.byteReceived rfl
  case closeStop => exact hs.at_closeOk
  case abortStop => exact h.abortDone

end

/-- A primitive command answers OK, or FAIL where it can, with data only where it has some (R76, R191). -/
theorem primitiveFlow_answer (hi : Instr.isTransaction i = false) (hf : flowOf i site s = some t) :
    site = .command ∧ ∃ st rd, t = s.goto (.respond st rd) ∧ st ≠ .illegal ∧ (st = .fail → canFail i = true) ∧
      (rd = 0 ∨ hasData i = true) := by
  cases i
  case waitAck =>
    cases site <;> cases hf
    refine ⟨rfl, waitStatus s.ackOk, 0, rfl, ?_, fun _ => rfl, .inl rfl⟩
    cases s.ackOk <;> decide
  case readByte =>
    cases site <;> cases hf
    exact ⟨rfl, .ok, s.shift, rfl, nofun, nofun, .inr rfl⟩
  case init => cases hf
  case setDelay => cases hf
  case probe => cases hi
  case write => cases hi
  case read => cases hi
  case readSeq => cases hi
  all_goals
    cases site <;> cases hf
    exact ⟨rfl, .ok, 0, rfl, nofun, nofun, .inl rfl⟩

theorem primitiveFlow_position (h : InCall i site s) (hi : Instr.isTransaction i = false)
    (hf : flowOf i site s = some t) : AtPosition i t := by
  obtain ⟨rfl, st, rd, rfl, hst, hfail, hrd⟩ := primitiveFlow_answer hi hf
  refine ⟨?_, h.phase, h.held⟩
  simp only [ctrlOk, goto_ctrl, goto_cfg, h.range, hst, Bool.and_eq_true, Bool.or_eq_true, decide_eq_true_eq]
  refine ⟨⟨rfl, ?_⟩, hrd⟩
  by_cases hs : st = .fail
  · exact .inr (hfail hs)
  · exact .inl (by simp [hs])

/-- When a primitive returns, its command reaches a position of its own (R22, R146). -/
theorem flowOf_position (h : InCall i site s) (hf : flowOf i site s = some t) : AtPosition i t := by
  cases i with
  | probe => exact probeFlow_position h hf
  | write => exact writeFlow_position h hf
  | read => exact readFlow_position h hf
  | readSeq => exact readSeqFlow_position h hf
  | _ => exact primitiveFlow_position h rfl hf

end
end Sys2Proof.Machine
end

section
/-! PROOFS. The invariant of the machine: every kind of step keeps it (O39), and reset meets it (O38). -/

namespace Sys2Proof.Machine

/-! ## The control point after an event -/

section
variable {i : Instr} {s t : State}

theorem csEnterStep_position (h : AtPosition i s) (hc : s.ctrl = .csEnter) : AtPosition i (csEnterStep i.bus s) := by
  unfold csEnterStep
  split
  · rename_i u hu
    obtain ⟨n, ws, -, rfl⟩ := collaboratorWait_some hu
    exact h
  · obtain ⟨hctrl, hph, -⟩ := h
    rw [hc] at hctrl hph
    obtain ⟨htr, hrange⟩ := Bool.and_eq_true_iff.mp hctrl
    exact InSection.at_call ⟨htr, hrange, rfl⟩ (engineSites_mem_sites htr).1 rfl nofun hph

theorem csExitStep_position {st : Status} (h : AtPosition i s) (hc : s.ctrl = .csExit st) :
    AtPosition i (csExitStep i.bus st s) := by
  obtain ⟨hctrl, -, -⟩ := h
  rw [hc] at hctrl
  simp only [ctrlOk, Bool.and_eq_true, decide_eq_true_eq] at hctrl
  obtain ⟨⟨htr, hst⟩, hrange⟩ := hctrl
  refine ⟨?_, rfl, rfl⟩
  simp [csExitStep, ctrlOk, hst, hrange, canFail_of_isTransaction htr]

/-- The byte read from the buffer is sent (R142). -/
theorem bufRdStep_position (h : AtPosition i s) (hc : s.ctrl = .bufRd) {n : BitVec 16}
    (ht : bufRdStep n s = some t) : AtPosition i t := by
  obtain ⟨hctrl, -, hheld⟩ := h
  rw [hc] at hctrl hheld
  simp only [ctrlOk, Bool.and_eq_true, decide_eq_true_eq] at hctrl
  obtain ⟨⟨hw, hk⟩, hrange⟩ := hctrl
  unfold bufRdStep at ht
  split at ht <;> cases ht
  exact InSection.at_call ⟨isTransaction_of_mem_sites (sendData_mem_sites hw) nofun, hrange, hheld⟩
    (sendData_mem_sites hw) rfl (fun _ => hk) rfl

/-- With the byte in the buffer the loop's next round begins (R143, R144). -/
theorem bufWrStep_position (h : AtPosition i s) (hc : s.ctrl = .bufWr) {n : BitVec 16} (hn : bufferLen i = n.toNat)
    (ht : bufWrStep n s = some t) : AtPosition i t := by
  obtain ⟨hctrl, hph, hheld⟩ := h
  rw [hc] at hctrl hph hheld
  simp only [ctrlOk, Bool.and_eq_true, decide_eq_true_eq] at hctrl
  obtain ⟨⟨hw, hk⟩, hrange⟩ := hctrl
  unfold bufWrStep at ht
  split at ht <;> cases ht
  exact AtLoopHead.at_readNext (.next hn hk (of_decide_eq_true hph))
    ⟨isTransaction_of_mem_sites (readData_mem_sites hw) nofun, hrange, hheld⟩ (readData_mem_sites hw)

theorem callStep_position (h : AtPosition i s) {site : Site} {p : Pos} {a : CallArgs} (hc : s.ctrl = .call site p)
    (ht : callStep a (flowOf i) site p s = some t) : AtPosition i t := by
  have hin := h.inCall hc (primStep_untouched a p s)
  unfold callStep at ht
  split at ht <;> rename_i hp <;> rw [hp] at hin
  · cases ht
    obtain ⟨hctrl, -, -⟩ := h
    rw [hc] at hctrl
    obtain ⟨-, hopen, -, -⟩ := ctrlOk_call.mp hctrl
    obtain ⟨hopen', hne⟩ := primStep_opensRead hopen hp
    exact hin.position hopen' hne
  · exact flowOf_position hin ht

theorem argsOf_len (i : Instr) (k : BitVec 16) : (argsOf i k).len.toNat = bufferLen i := by cases i <;> rfl

/-- An event leads a running command from one of its positions to another (R22, R32, R146). -/
theorem exec_running_position (hi : sites i ≠ []) (hr : Running s) (hpos : AtPosition i s)
    (hne : ∀ st rd, s.ctrl ≠ .respond st rd) (h : exec i s = .next t) : AtPosition i t := by
  rw [exec_running hi hr] at h
  rcases runBusy_next h with ⟨hc, rfl⟩ | ⟨site, p, hc, h⟩ | ⟨hc, h⟩ | ⟨hc, h⟩ | ⟨st, hc, rfl⟩ | ⟨st, rd, hc, -⟩
  · rw [argsOf_bus]
    exact csEnterStep_position hpos hc
  · exact callStep_position hpos hc h
  · exact bufRdStep_position hpos hc h
  · exact bufWrStep_position hpos hc (argsOf_len i s.byteIdx).symm h
  · rw [argsOf_bus]
    exact csExitStep_position hpos hc
  · exact absurd hc (hne st rd)

end

/-! ## What keeps the invariant -/

section
variable {s t : State}

/-- The invariant of a state in which a command runs. -/
theorem Inv.of_running (hs : Inv s) (hcfg : t.cfg = s.cfg) (hbuf : Memory.wf t.buf = true)
    (ht0 : t.t0 < 2 ^ s.cfg.tickW) (hresp : t.resp = s.resp) (hr : Running t) (hrun : runningOk t) : Inv t where
  cfg := hcfg ▸ hs.cfg
  buf := hbuf
  t0 := hcfg ▸ ht0
  resp := hresp ▸ hs.resp
  idle hb := absurd (hr.2.symm.trans hb) (by decide)
  running _ _ := hrun
  refused h := absurd (hr.1.symm.trans h) (by decide)

/-- The per-bus state is no part of the invariant. -/
theorem Inv.setBuses (h : Inv s) (v : Vector Bus 16) : Inv { s with buses := v } :=
  ⟨h.cfg, h.buf, h.t0, h.resp, h.idle, h.running, h.refused⟩

/-- The host's moves are no part of the invariant. -/
theorem Inv.after_hostWaits (h : Inv s) : Inv s.hostWaits :=
  ⟨h.cfg, h.buf, h.t0, h.resp, h.idle, h.running, h.refused⟩

/-- Bits 7:2 of a response word are 0 (R76). -/
theorem respWord_reserved (st : Status) (rd : Byte) : (respWord st rd).extractLsb' 2 6 = 0 := by
  ext j hj
  have hcode := BitVec.getLsbD_append (x := rd ++ 0#6) (y := st.code) (i := 2 + j)
  have hzero := BitVec.getLsbD_append (x := rd) (y := 0#6) (i := j)
  rw [if_neg (by omega), Nat.add_sub_cancel_left, hzero, if_pos hj, BitVec.getLsbD_zero] at hcode
  rw [BitVec.getElem_extractLsb', BitVec.ofNat_eq_ofNat, BitVec.getElem_zero]
  exact hcode

/-- At its respond a command holds no critical section and PHASE is IDLE (R32, R146). -/
theorem runningOk_respond {st : Status} {rd : Byte} (h : runningOk s) (hc : s.ctrl = .respond st rd) :
    s.phase = .idle ∧ s.csHeld = none := by
  unfold runningOk at h
  split at h
  · obtain ⟨-, hph, hheld⟩ := h
    rw [hc] at hph hheld
    exact ⟨of_decide_eq_true hph, hheld⟩
  · exact h.2

theorem Inv.after_respond (h : Inv s) (hr : Running s) {st : Status} {rd : Byte} (hc : s.ctrl = .respond st rd) (n : Nat) :
    Inv (respond n st rd s) := by
  obtain ⟨hph, hheld⟩ := runningOk_respond (h.running hr.2 hr.1) hc
  exact ⟨h.cfg, h.buf, h.t0, respWord_reserved st rd, fun _ => ⟨rfl, hph, hheld, hr.1⟩, nofun, fun _ => ⟨rfl, hph, hheld⟩⟩

/-- The state after reset, with what RST leaves of the run (R45, R230). -/
theorem Inv.after_rst (h : Inv s) (hr : s.refused = false) : Inv (rst s) := by
  obtain ⟨hcfg, href, hbuf, -⟩ := rst_keeps s
  obtain ⟨hbusy, -, hph, ht0, hheld, hresp, hctrl⟩ := rst_clears s
  exact {
    cfg := hcfg ▸ h.cfg
    buf := hbuf ▸ h.buf
    t0 := ht0 ▸ Nat.two_pow_pos _
    resp := hresp ▸ rfl
    idle := fun _ => ⟨hctrl, hph, hheld, href.trans hr⟩
    running := fun hb => absurd (hbusy.symm.trans hb) (by decide)
    refused := fun _ => ⟨hctrl, hph, hheld⟩ }

/-- A word that is no command is accepted (R82). -/
theorem Inv.after_acceptIllegal (h : Inv s) (hr : Ready s) {w : Word} {e : DecodeError} (hw : decode w = .error e) :
    Inv ((latchCommand w s).goto (.respond .illegal 0)) := by
  obtain ⟨-, hph, hheld, -⟩ := h.idle hr.2
  refine h.of_running rfl h.buf h.t0 rfl ⟨hr.1, rfl⟩ ?_
  unfold runningOk
  rw [show decode ((latchCommand w s).goto (.respond .illegal 0)).cmd = .error e from hw]
  exact ⟨rfl, hph, hheld⟩

theorem firstOf_goesOn (i : Instr) (s : State) : GoesOn s (firstOf i s) := by
  cases i <;> exact .of_writes ..

/-- What a command reaches in its accept step is a position of its own (R37, R140). -/
theorem firstOf_position {i : Instr} (hrange : busInRange s.cfg.nBus i = true) (hph : s.phase = .idle)
    (hheld : s.csHeld = none) : AtPosition i (firstOf i s) := by
  have hph' : decide (s.phase = .idle) = true := decide_eq_true hph
  cases i with
  | init => exact ⟨rfl, hph', hheld⟩
  | setDelay b d => exact ⟨by simp [firstOf, ctrlOk, hrange], hph', hheld⟩
  | probe => exact ⟨hrange, hph', hheld⟩
  | write => exact ⟨hrange, hph', hheld⟩
  | read => exact ⟨hrange, hph', hheld⟩
  | readSeq => exact ⟨hrange, hph', hheld⟩
  | _ => exact ⟨ctrlOk_call.mpr ⟨by simp [sites], rfl, nofun, hrange⟩, hph', hheld⟩

theorem takeBuffer_wf (i : Instr) (data : List Byte) (h : Memory.wf s.buf = true) :
    Memory.wf (takeBuffer i data s).buf = true := by
  rw [takeBuffer_buf]
  split
  · exact wf_ofBytes ..
  · exact h

theorem Inv.after_accept (h : Inv s) (hr : Ready s) (i : Instr) : Inv (accept i (firstOf i) s) := by
  obtain ⟨-, hph, hheld, -⟩ := h.idle hr.2
  rcases accept_cases i (firstOf i) s with ⟨hrange, heq⟩ | ⟨hrange, -, heq⟩ | ⟨hrange, -, heq⟩ <;> rw [heq]
  · refine h.of_running rfl h.buf h.t0 rfl ⟨hr.1, rfl⟩ ((runningOk_iff (decode_encode i)).mpr ⟨?_, ?_, ?_⟩)
    · simp [ctrlOk, latchCommand, hrange]
    · exact decide_eq_true hph
    · exact hheld
  · exact ⟨h.cfg, h.buf, h.t0, h.resp, nofun, nofun, fun _ => ⟨rfl, hph, hheld⟩⟩
  · have hg := firstOf_goesOn i (takeBuffer i s.presentedData (latchCommand (encode i) s))
    have hcmd := hg.cmd.trans (takeBuffer_cmd ..)
    refine h.of_running (hg.cfg.trans (takeBuffer_cfg ..)) ?_ ?_ (hg.resp.trans (takeBuffer_resp ..)) ⟨?_, ?_⟩
      ((runningOk_iff (hcmd ▸ decode_encode i)).mpr (firstOf_position ?_ ?_ ?_))
    · rw [hg.buf]
      exact takeBuffer_wf _ _ h.buf
    · rw [hg.t0, takeBuffer_t0]
      exact h.t0
    · exact hg.refused.trans ((takeBuffer_refused ..).trans hr.1)
    · exact hg.busy.trans (takeBuffer_busy ..)
    · rw [takeBuffer_cfg]
      exact hrange
    · exact (takeBuffer_phase ..).trans hph
    · exact (takeBuffer_csHeld ..).trans hheld

/-- An event of a running command. -/
theorem Inv.after_event {b : BusIx} {i : Instr} (h : Inv s) (hr : Running s) (hd : decode s.cmd = .ok i)
    (hf : EventFrame b s t) (hpos : AtPosition i t) : Inv t := by
  refine h.of_running hf.cfg ?_ (hf.t0 h.t0) hf.resp ⟨hf.refused.trans hr.1, hf.busy.trans hr.2⟩
    ((runningOk_iff (hf.cmd ▸ hd)).mpr hpos)
  rw [hf.buf]
  split
  · exact wf_write h.buf
  · exact h.buf

/-- A step of the running command, or the accept of a command, keeps the invariant. -/
theorem Inv.after_exec {i : Instr} (h : Inv s) (hr : s.refused = false) (hd : s.busy = true → decode s.cmd = .ok i)
    (he : exec i s = .next t) : Inv t := by
  cases hb : s.busy with
  | false =>
    rw [exec_ready i ⟨hr, hb⟩] at he
    cases he
    exact h.after_accept ⟨hr, hb⟩ i
  | true =>
    have hrun : Running s := ⟨hr, hb⟩
    by_cases hi : sites i = []
    · obtain ⟨st, rd, v, hc, rfl⟩ := exec_configure_respond hi hrun he
      exact (h.setBuses v).after_respond hrun hc 0
    by_cases hresp : ∃ st rd, s.ctrl = .respond st rd
    · obtain ⟨st, rd, hc⟩ := hresp
      rw [exec_respond hi hrun hc] at he
      cases he
      exact h.after_respond hrun hc _
    · have hf := (exec_running_frame hi hrun he).resolve_left fun ⟨st, rd, _, hc, _⟩ => hresp ⟨st, rd, hc⟩
      have hpos := (runningOk_iff (hd hb)).mp (h.running hb hr)
      exact h.after_event hrun (hd hb) hf
        (exec_running_position hi hrun hpos (fun st rd hc => hresp ⟨st, rd, hc⟩) he)

/-- A step on a word that is no command keeps the invariant (R82). -/
theorem Inv.after_runIllegal {w : Word} {e : DecodeError} (h : Inv s) (hw : decode w = .error e)
    (ht : runIllegal w s = .next t) : Inv t := by
  rcases runIllegal_next ht with ⟨hr, ⟨hb, rfl⟩ | ⟨hb, st, rd, hc, rfl⟩⟩
  · exact h.after_acceptIllegal ⟨hr, hb⟩ hw
  · exact h.after_respond ⟨hr, hb⟩ hc 0

end

/-- The state after reset meets the invariant for parameters within their bounds (R45, R46). -/
theorem inv_resetOf {c : Config} (hc : c.wf) : Inv (State.resetOf c) :=
  ⟨hc, rfl, Nat.two_pow_pos _, show (0x0000 : BitVec 16).extractLsb' 2 6 = 0 by decide, fun _ => ⟨rfl, rfl, rfl, rfl⟩,
   nofun, nofun⟩

theorem lineInv_resetOf (c : Config) : LineInv (State.resetOf c) := fun h => nomatch h.2

/-- Settles O38: no command runs after reset, and every field has its reset value. -/
theorem resetMeetsTheInvariants : Obligations.ResetMeetsTheInvariants :=
  ⟨fun c hc => ⟨inv_resetOf hc, lineInv_resetOf c⟩, inv_resetOf (by decide), lineInv_resetOf _⟩

theorem currentWord_of_busy {s : State} {w : Word} (h : s.currentWord = some w) (hb : s.busy = true) : s.cmd = w := by
  simpa [State.currentWord, hb] using h

/-- Settles O39, by the kinds of step: RST, nothing, a step of the current command, of a word that is no command. -/
theorem stepKeepsTheInvariant : Obligations.StepKeepsTheInvariant := by
  intro s t h hstep
  obtain ⟨hr, ⟨-, rfl⟩ | ⟨-, -, rfl⟩ | ⟨-, w, i, hw, hi, he⟩ | ⟨-, w, e, -, he, ht⟩⟩ := stepWith_next hstep
  · exact h.after_rst hr
  · exact h.after_hostWaits
  · exact h.after_hostWaits.after_exec hr (fun hb => (currentWord_of_busy hw hb).symm ▸ hi) he
  · exact h.after_hostWaits.after_runIllegal he ht

end Sys2Proof.Machine
end

section
/-! PROOFS. A step of the machine: which command it runs, the state after reset, and the steps of RST and of the host
(O7, O8, O11, O13, O14, O15, O49). -/

namespace Sys2Proof.Machine

/-! ## The command of a step -/

section
variable {s t : State} {w : Word} {i : Instr}

theorem currentWord_running (hb : s.busy = true) : s.currentWord = some s.cmd := by simp [State.currentWord, hb]

theorem currentWord_ready (hb : s.busy = false) : s.currentWord = s.presented := by simp [State.currentWord, hb]

theorem step_command (hr : s.refused = false) (hd : s.rstDue = false) (hw : s.currentWord = some w)
    (hi : decode w = .ok i) : step s = exec i s.hostWaits := by
  simp [step, stepWith, hr, hd, hw, hi]

/-- Settles O7: the current word is CMD while a command runs and the presented word else. -/
theorem stepRunsTheDecodedCommand : Obligations.StepRunsTheDecodedCommand := by
  intro s w i hr hd hi
  constructor
  · rintro hb rfl
    exact step_command hr hd (currentWord_running hb) hi
  · intro hb hp
    rw [step_command hr hd ((currentWord_ready hb).trans hp) hi, hostWaits_of_presented hp]

theorem tableWord_toNat (w : Word) : tableWord 64 w.toNat = w := by
  rw [tableWord, Nat.mod_eq_of_lt w.isLt, BitVec.ofNat_toNat, BitVec.setWidth_eq]

/-- Settles O8: the placed word is the presented one, and the decoder reads the command back from it. -/
theorem fetchWordIsTheNextStepsCommand : Obligations.FetchWordIsTheNextStepsCommand := by
  intro s i
  rw [State.withFetchWord, tableWord_toNat]
  exact (stepRunsTheDecodedCommand (s.present (encode i)) (encode i) i rfl rfl (decode_encode i)).2 rfl rfl

/-- Settles O14: with no current word a step is the host's alone. -/
theorem nothingPresentedNothingHappens : Obligations.NothingPresentedNothingHappens := by
  intro s ⟨hr, hb⟩ hd hp
  have hw : s.currentWord = none := (currentWord_ready hb).trans hp
  simp [step, stepWith, hr, hd, hw, State.hostWaits]

/-! ## Reset -/

theorem bus_resetOf (c : Config) (b : BusIx) : (State.resetOf c).bus b = Bus.reset := by
  simp [State.bus, State.resetOf]

/-- Settles O13: every bus is at its reset value, and the other fields are written in `State.resetOf`. -/
theorem resetStateValues : Obligations.ResetStateValues := by
  refine fun c => ⟨rfl, rfl, rfl, rfl, rfl, rfl, fun b => ?_⟩
  rw [bus_resetOf]
  exact ⟨rfl, rfl, rfl, rfl⟩

/-- On a bus that is not in use RST makes the latches unknown (R230). -/
theorem bus_rst_notInUse {b : BusIx} (h : s.busInUse ≠ some b) : (rst s).bus b = Bus.reset := by
  rw [bus_rst, if_neg h]

theorem rst_delay (s : State) (b : BusIx) : ((rst s).bus b).bitDelayUs = 0 := by
  rw [bus_rst]
  split <;> rfl

theorem busInUse_ready (hb : s.busy = false) : s.busInUse = none := by simp [State.busInUse, hb]

theorem step_rst (hr : s.refused = false) (hd : s.rstDue = true) : step s = .next (rst s) := by
  simp [step, stepWith, hr, hd]

/-- Settles O11: the step is RST's, whose latches are unknown but on the bus in use. -/
theorem resetInputClearsTheBlock : Obligations.ResetInputClearsTheBlock := by
  intro s hr hd
  obtain ⟨hcfg, href, -, -, htrace, -⟩ := rst_keeps s
  obtain ⟨hbusy, -, hphase, -, hheld, hresp, hctrl⟩ := rst_clears s
  have hlatches : ∀ b, s.busInUse ≠ some b →
      ((rst s).bus b).sclOut = none ∧ ((rst s).bus b).sdaDir = none ∧ ((rst s).bus b).sdaOut = none := by
    intro b hb
    rw [bus_rst_notInUse hb]
    exact ⟨rfl, rfl, rfl⟩
  exact ⟨rst s, step_rst hr hd, hbusy, hphase, hheld, hresp, hctrl, href.trans hr, htrace, hcfg, rst_delay s, hlatches,
    fun hb b => hlatches b (by simp [busInUse_ready hb])⟩

/-! ## The host while a command runs -/

theorem presented_congr (h : t.host = s.host) : t.presented = s.presented := by
  unfold State.presented
  rw [h]

/-- A running command's step leaves the host's moves and CMD alone (R31). -/
theorem exec_running_host (hr : Running s) (h : exec i s = .next t) : t.host = s.host ∧ t.cmd = s.cmd := by
  by_cases hi : sites i = []
  · obtain ⟨st, rd, v, -, rfl⟩ := exec_configure_respond hi hr h
    exact ⟨rfl, rfl⟩
  · rcases exec_running_frame hi hr h with ⟨st, rd, n, -, rfl⟩ | hf
    · exact ⟨rfl, rfl⟩
    · exact ⟨hf.host, hf.cmd⟩

/-- Settles O15: the step is the running command's, which takes no move of the host. -/
theorem commandWaitsWhileBusy : Obligations.CommandWaitsWhileBusy := by
  intro s t w hb hp hstep
  suffices h : t.host = s.host ∧ t.cmd = s.cmd from ⟨(presented_congr h.1).trans hp, h⟩
  obtain ⟨hr, ⟨hd, -⟩ | ⟨-, hw, -⟩ | ⟨-, _, i, -, -, he⟩ | ⟨-, _, e, -, -, he⟩⟩ := stepWith_next hstep
  · exact absurd ((rstDue_of_presented hp).symm.trans hd) nofun
  · exact absurd ((currentWord_running hb).symm.trans hw) nofun
  · rw [hostWaits_of_presented hp] at he
    exact exec_running_host ⟨hr, hb⟩ he
  · rw [hostWaits_of_presented hp] at he
    obtain ⟨-, ⟨hb', -⟩ | ⟨-, st, rd, -, rfl⟩⟩ := runIllegal_next he
    · exact absurd (hb.symm.trans hb') nofun
    · exact ⟨rfl, rfl⟩

end

/-- Settles O49: `lineEvent` and `sampleEvent` written out. -/
theorem lineEventUpdatesOneLatch : Obligations.LineEventUpdatesOneLatch :=
  fun _ _ => ⟨fun _ => rfl, fun _ => rfl, fun _ => rfl, rfl, rfl⟩

end Sys2Proof.Machine
end

section
/-! PROOFS. What a step can do to the parameters, RESP, the delays and the trace (O16, O17, O18, O45). -/

namespace Sys2Proof.Machine

/-- What every step keeps that is neither RST nor a respond: the parameters, RESP, the delays; and it adds at most one event to
the trace (R37). -/
structure Progress (s t : State) : Prop where
  cfg : t.cfg = s.cfg
  resp : t.resp = s.resp
  delay : ∀ b, (t.bus b).bitDelayUs = (s.bus b).bitDelayUs
  trace : t.trace = s.trace ∨ ∃ e, t.trace = e :: s.trace

/-- The per-bus state that the respond step of a command writes: only the configuration commands change it (R180, R181). -/
def busesAfter (i : Instr) (s : State) : Vector Bus 16 :=
  match i with
  | .init => (clearDelays s).buses
  | .setDelay b d => (setBitDelay b d s).buses
  | _ => s.buses

section
variable {s t u : State} {i : Instr} {site : Site} {b : BusIx}

/-! ## An event of a running command -/

theorem mem_sites_of_flowOf (h : flowOf i site s = some t) : site ∈ sites i := by
  cases i <;> cases site <;> simp_all [sites, flowOf, probeFlow, writeFlow, readFlow, readSeqFlow, respondAfter]

theorem flowOf_trace (h : flowOf i site s = some t) : t.trace = s.trace := by
  obtain ⟨t', ht', htrace⟩ := flowOf_answers (mem_sites_of_flowOf h) s
  rw [h] at ht'
  cases ht'
  exact htrace

theorem readNext_trace (n : BitVec 16) (s : State) : (readNext n s).trace = s.trace := by
  unfold readNext
  split <;> rfl

theorem primStep_trace_le (a : CallArgs) (p : Pos) (s : State) :
    (primStep a p s).1.trace = s.trace ∨ ∃ e, (primStep a p s).1.trace = e :: s.trace := by
  rcases primStep_trace a p s with ⟨t, hw, hp⟩ | ⟨e, -, he⟩
  · obtain ⟨n, ws, -, rfl⟩ := collaboratorWait_some (holdWait_some hw).2
    exact .inl (by rw [hp])
  · exact .inr ⟨e, he⟩

theorem Progress.of_primitive (hu : Untouched b s u) (htr : u.trace = s.trace ∨ ∃ e, u.trace = e :: s.trace)
    (hg : GoesOn u t) (ht : t.trace = u.trace) : Progress s t :=
  ⟨hg.cfg.trans hu.cfg, hg.resp.trans hu.resp, fun c => (congrArg _ (bus_congr hg.buses c)).trans (hu.delay c), ht ▸ htr⟩

theorem Progress.of_goesOn {cs : Option BusIx} {m : Memory} (hg : GoesOn { s with csHeld := cs, buf := m } t)
    (htr : t.trace = s.trace ∨ ∃ e, t.trace = e :: s.trace) : Progress s t :=
  ⟨hg.cfg, hg.resp, fun c => congrArg _ (bus_congr (s := s) hg.buses c), htr⟩

theorem csEnterStep_progress (b : BusIx) (s : State) : Progress s (csEnterStep b s) := by
  unfold csEnterStep
  split
  · rename_i u hu
    obtain ⟨n, ws, -, rfl⟩ := collaboratorWait_some hu
    exact .of_goesOn (.of_writes ..) (.inl rfl)
  · exact .of_goesOn (cs := some b) (.of_writes ..) (.inr ⟨_, rfl⟩)

theorem csExitStep_progress (b : BusIx) (st : Status) (s : State) : Progress s (csExitStep b st s) :=
  .of_goesOn (cs := none) (.of_writes ..) (.inr ⟨_, rfl⟩)

theorem bufRdStep_progress {n : BitVec 16} (h : bufRdStep n s = some t) : Progress s t := by
  unfold bufRdStep at h
  split at h <;> cases h
  exact .of_goesOn (.of_writes ..) (.inr ⟨_, rfl⟩)

theorem bufWrStep_progress {n : BitVec 16} (h : bufWrStep n s = some t) : Progress s t := by
  unfold bufWrStep at h
  split at h <;> cases h
  exact .of_goesOn ((GoesOn.of_writes ..).trans (readNext_goesOn ..)) (.inr ⟨_, readNext_trace ..⟩)

theorem callStep_progress {a : CallArgs} {p : Pos} (h : callStep a (flowOf i) site p s = some t) : Progress s t := by
  have hu := primStep_untouched a p s
  have htr := primStep_trace_le a p s
  unfold callStep at h
  split at h <;> rename_i hp <;> rw [hp] at hu htr
  · cases h
    exact .of_primitive hu htr ((phaseInside_goesOn ..).trans (.of_writes ..)) (phaseInside_trace ..)
  · exact .of_primitive hu htr ((phaseInside_goesOn ..).trans (flowOf_goesOn h))
      ((flowOf_trace h).trans (phaseInside_trace ..))

/-! ## The accept, the respond, and a step of any kind -/

theorem firstOf_trace (i : Instr) (s : State) : (firstOf i s).trace = s.trace := by cases i <;> rfl

/-- An accept is no event and writes neither RESP nor the per-bus state (R37). -/
theorem accept_progress (i : Instr) (s : State) : Progress s (accept i (firstOf i) s) := by
  rcases accept_cases i (firstOf i) s with ⟨-, heq⟩ | ⟨-, -, heq⟩ | ⟨-, -, heq⟩ <;> rw [heq]
  · exact ⟨rfl, rfl, fun _ => rfl, .inl rfl⟩
  · exact ⟨rfl, rfl, fun _ => rfl, .inl rfl⟩
  · have hg := firstOf_goesOn i (takeBuffer i s.presentedData (latchCommand (encode i) s))
    refine ⟨hg.cfg.trans (takeBuffer_cfg ..), hg.resp.trans (takeBuffer_resp ..), fun b => ?_, .inl ?_⟩
    · rw [bus_congr hg.buses, bus_takeBuffer, bus_latchCommand]
    · exact (firstOf_trace ..).trans (takeBuffer_trace ..)

/-- The step of a running command without events is its respond, with its assignment (log entry 9). -/
theorem runConfigure_running {effect : State → State} (he : effect s = { s with buses := busesAfter i s })
    (hr : Running s) (h : runConfigure i effect s = .next t) :
    ∃ st rd v, t = respond 0 st rd { s with buses := v } ∧ (v = s.buses ∨ v = busesAfter i s) := by
  obtain ⟨-, ⟨hb, -⟩ | ⟨-, rd, -, rfl⟩ | ⟨-, st, rd, -, -, rfl⟩⟩ := runConfigure_next h
  · exact absurd (hr.2.symm.trans hb) nofun
  · exact ⟨.ok, rd, _, by rw [he], .inr rfl⟩
  · exact ⟨st, rd, s.buses, rfl, .inl rfl⟩

/-- A step of a running command is its respond or an event (R37). -/
theorem exec_running_progress (hr : Running s) (h : exec i s = .next t) :
    Progress s t ∨
      ∃ n st rd v, t = respond n st rd { s with buses := v } ∧ (v = s.buses ∨ v = busesAfter i s) := by
  by_cases hi : sites i = []
  · cases i with
    | init => exact .inr ⟨0, runConfigure_running rfl hr h⟩
    | setDelay => exact .inr ⟨0, runConfigure_running rfl hr h⟩
    | _ => cases hi
  rw [exec_running hi hr] at h
  rcases runBusy_next h with ⟨-, rfl⟩ | ⟨_, _, -, h⟩ | ⟨-, h⟩ | ⟨-, h⟩ | ⟨_, -, rfl⟩ | ⟨st, rd, -, rfl⟩
  · exact .inl (csEnterStep_progress ..)
  · exact .inl (callStep_progress h)
  · exact .inl (bufRdStep_progress h)
  · exact .inl (bufWrStep_progress h)
  · exact .inl (csExitStep_progress ..)
  · exact .inr ⟨_, st, rd, s.buses, rfl, .inl rfl⟩

theorem progress_hostWaits (h : Progress s.hostWaits t) : Progress s t := ⟨h.cfg, h.resp, h.delay, h.trace⟩

/-- A step is RST, or keeps what `Progress` says, or is the respond of the command that runs, which may write the per-bus
state. -/
theorem step_next_cases (h : step s = .next t) :
    (s.rstDue = true ∧ t = rst s) ∨ Progress s t ∨
    (s.busy = true ∧ ∃ n st rd v, t = respond n st rd { s.hostWaits with buses := v } ∧
      (v = s.buses ∨ ∃ w i, s.currentWord = some w ∧ decode w = .ok i ∧ v = busesAfter i s.hostWaits)) := by
  obtain ⟨hr, ⟨hd, rfl⟩ | ⟨-, -, rfl⟩ | ⟨-, w, i, hw, hi, he⟩ | ⟨-, w, e, -, -, he⟩⟩ := stepWith_next h
  · exact .inl ⟨hd, rfl⟩
  · exact .inr (.inl ⟨rfl, rfl, fun _ => rfl, .inl rfl⟩)
  · cases hb : s.busy with
    | false =>
      rw [exec_ready (s := s.hostWaits) i ⟨hr, hb⟩] at he
      cases he
      exact .inr (.inl (progress_hostWaits (accept_progress ..)))
    | true =>
      rcases exec_running_progress (s := s.hostWaits) ⟨hr, hb⟩ he with hp | ⟨n, st, rd, v, rfl, hv⟩
      · exact .inr (.inl (progress_hostWaits hp))
      · exact .inr (.inr ⟨rfl, n, st, rd, v, rfl, hv.imp id fun hv => ⟨w, i, hw, hi, hv⟩⟩)
  · obtain ⟨-, ⟨-, rfl⟩ | ⟨hb, st, rd, -, rfl⟩⟩ := runIllegal_next he
    · exact .inr (.inl ⟨rfl, rfl, fun _ => rfl, .inl rfl⟩)
    · exact .inr (.inr ⟨hb, 0, st, rd, s.buses, rfl, .inl rfl⟩)

end

/-! ## The statements about a step of any kind -/

/-- Settles O16: RST adds nothing, a respond its response, every other step at most its event. -/
theorem atMostOneEventAStep : Obligations.AtMostOneEventAStep := by
  intro s t h
  rcases step_next_cases h with ⟨-, rfl⟩ | hp | ⟨-, n, st, rd, v, rfl, -⟩
  · obtain ⟨-, -, -, -, htrace, -⟩ := rst_keeps s
    exact .inl htrace
  · exact hp.trace
  · exact .inr ⟨.resp (respWord st rd), rfl⟩

/-- Settles O17: no step but RST and a respond writes RESP, and a respond lowers BUSY. -/
theorem onlyRespondAndResetWriteResp : Obligations.OnlyRespondAndResetWriteResp := by
  intro s t h
  rcases step_next_cases h with ⟨hd, rfl⟩ | hp | ⟨hb, n, st, rd, v, rfl, -⟩
  · obtain ⟨-, -, -, -, -, hresp, -⟩ := rst_clears s
    exact .inr (.inl ⟨hd, hresp⟩)
  · exact .inl hp.resp
  · exact .inr (.inr ⟨st, rd, rfl, rfl, hb, rfl⟩)

/-- Settles O18: RST takes the parameters over, a respond does not write them. -/
theorem parametersNeverChange : Obligations.ParametersNeverChange := by
  intro s t h
  rcases step_next_cases h with ⟨-, rfl⟩ | hp | ⟨-, n, st, rd, v, rfl, -⟩
  · exact (rst_keeps s).1
  · exact hp.cfg
  · rfl

/-- A delay that a respond step changes is changed by INIT, or by a SET_DELAY of that bus, to its value (R180, R181). -/
theorem busesAfter_delay {i : Instr} {s : State} {b : BusIx}
    (h : (State.bus { s with buses := busesAfter i s } b).bitDelayUs ≠ (s.bus b).bitDelayUs) :
    i = .init ∨ ∃ d, i = .setDelay b d ∧ (State.bus { s with buses := busesAfter i s } b).bitDelayUs = d := by
  cases i with
  | init => exact .inl rfl
  | setDelay c d =>
    have heq : { s with buses := busesAfter (.setDelay c d) s } = s.setBus c { s.bus c with bitDelayUs := d } := rfl
    rw [heq] at h ⊢
    by_cases hc : b = c
    · subst hc
      exact .inr ⟨d, rfl, by simp⟩
    · exact absurd (by rw [bus_setBus_other s _ hc]) h
  | _ => exact absurd rfl h

/-- Settles O45: the step is RST, or the respond of a command that decodes to INIT or to a SET_DELAY of the bus. -/
theorem onlyConfigurationWritesDelays : Obligations.OnlyConfigurationWritesDelays := by
  intro s t b h hne
  rcases step_next_cases h with ⟨hd, -⟩ | hp | ⟨-, n, st, rd, v, rfl, rfl | ⟨w, i, hw, hi, rfl⟩⟩
  · exact .inl hd
  · exact absurd (hp.delay b) hne
  · exact absurd rfl hne
  · exact .inr ⟨w, i, hw, hi, busesAfter_delay hne⟩

end Sys2Proof.Machine
end

section
/-! PROOFS. No step faults from a state that meets the invariant (O40). -/

namespace Sys2Proof.Machine

section
variable {i : Instr} {s : State}

/-- From one of its positions inside a primitive a command goes on (R22). -/
theorem callStep_answers (h : AtPosition i s) {site : Site} {p : Pos} {a : CallArgs} (hc : s.ctrl = .call site p) :
    ∃ t, callStep a (flowOf i) site p s = some t := by
  obtain ⟨hctrl, -, -⟩ := h
  rw [hc] at hctrl
  obtain ⟨hsite, -⟩ := ctrlOk_call.mp hctrl
  unfold callStep
  split
  · exact ⟨_, rfl⟩
  · exact (flowOf_answers hsite _).imp fun _ ht => ht.1

theorem bufRdStep_answers {n : BitVec 16} (h : s.byteIdx.toNat < n.toNat) : ∃ t, bufRdStep n s = some t := by
  simp [bufRdStep, h]

theorem bufWrStep_answers {n : BitVec 16} (h : s.byteIdx.toNat < n.toNat) : ∃ t, bufWrStep n s = some t := by
  simp [bufWrStep, h]

/-- A running command that stands at one of its positions has a next state (R22, R38). -/
theorem runBusy_answers (h : AtPosition i s) : ∃ t, runBusy (argsOf i s.byteIdx) (flowOf i) s = .next t := by
  have hctrl := h.1
  unfold runBusy
  split <;> rename_i hc <;> rw [hc] at hctrl
  · cases hctrl
  · exact ⟨_, rfl⟩
  · obtain ⟨t, ht⟩ := callStep_answers (a := argsOf i s.byteIdx) h hc
    exact ⟨t, by rw [ht, orFault]⟩
  · simp only [ctrlOk, Bool.and_eq_true, decide_eq_true_eq] at hctrl
    obtain ⟨⟨-, hk⟩, -⟩ := hctrl
    obtain ⟨t, ht⟩ := bufRdStep_answers (s := s) ((argsOf_len i s.byteIdx).symm ▸ hk)
    exact ⟨t, by rw [ht, orFault]⟩
  · simp only [ctrlOk, Bool.and_eq_true, decide_eq_true_eq] at hctrl
    obtain ⟨⟨-, hk⟩, -⟩ := hctrl
    obtain ⟨t, ht⟩ := bufWrStep_answers (s := s) ((argsOf_len i s.byteIdx).symm ▸ hk)
    exact ⟨t, by rw [ht, orFault]⟩
  · exact ⟨_, rfl⟩
  · exact ⟨_, rfl⟩

/-- A command without events has no position but its respond (R180, R181). -/
theorem ctrl_of_configure (hi : sites i = []) (h : AtPosition i s) : ∃ st rd, s.ctrl = .respond st rd := by
  obtain ⟨hctrl, -, -⟩ := h
  cases i <;> cases hi
  all_goals
    cases hc : s.ctrl with
    | respond st rd => exact ⟨st, rd, rfl⟩
    | _ => simp [hc, ctrlOk, sites, Instr.isTransaction, Instr.address, readsBuffer, writesBuffer] at hctrl

theorem runConfigure_answers {effect : State → State} (hr : Running s) {st : Status} {rd : Byte}
    (hc : s.ctrl = .respond st rd) : ∃ t, runConfigure i effect s = .next t := by
  cases st <;> simp [runConfigure, hr, hc]

theorem exec_answers_of_configure (hi : sites i = []) (hr : Running s) {st : Status} {rd : Byte}
    (hc : s.ctrl = .respond st rd) : ∃ t, exec i s = .next t := by
  cases i with
  | init => exact runConfigure_answers hr hc
  | setDelay => exact runConfigure_answers hr hc
  | _ => cases hi

/-- A command has a next state when it is accepted and at each of its positions (R38). -/
theorem exec_answers (hr : s.refused = false) (hpos : s.busy = true → AtPosition i s) : ∃ t, exec i s = .next t := by
  cases hb : s.busy with
  | false => exact ⟨_, exec_ready i ⟨hr, hb⟩⟩
  | true =>
    by_cases hi : sites i = []
    · obtain ⟨st, rd, hc⟩ := ctrl_of_configure hi (hpos hb)
      exact exec_answers_of_configure hi ⟨hr, hb⟩ hc
    · rw [exec_running hi ⟨hr, hb⟩]
      exact runBusy_answers (hpos hb)

/-- A word that is no command is answered (R82). -/
theorem runIllegal_answers {w : Word} (hr : s.refused = false) (hc : s.busy = true → s.ctrl = .respond .illegal 0) :
    ∃ t, runIllegal w s = .next t := by
  cases hb : s.busy with
  | false => simp [runIllegal, hr, hb]
  | true => simp [runIllegal, hr, hb, hc hb]

theorem runningOk_error {e : DecodeError} (h : runningOk s) (hd : decode s.cmd = .error e) :
    s.ctrl = .respond .illegal 0 := by
  unfold runningOk at h
  rw [hd] at h
  exact h.1

/-- Under the invariant every step from a state that is not refused has a next state (R38). -/
theorem step_answers (h : Inv s) (hr : s.refused = false) : ∃ t, step s = .next t := by
  cases hd : s.rstDue with
  | true => exact ⟨_, step_rst hr hd⟩
  | false =>
    have hcmd : ∀ w, s.currentWord = some w → s.busy = true → s.cmd = w ∧ runningOk s.hostWaits :=
      fun w hw hb => ⟨currentWord_of_busy hw hb, h.running hb hr⟩
    simp only [step, stepWith, hr, hd, Bool.false_eq_true, if_false]
    split
    · exact ⟨_, rfl⟩
    · rename_i w hw
      split
      · rename_i i hi
        refine exec_answers hr fun hb => ?_
        obtain ⟨rfl, hrun⟩ := hcmd w hw hb
        exact (runningOk_iff hi).mp hrun
      · rename_i e he
        refine runIllegal_answers hr fun hb => ?_
        obtain ⟨rfl, hrun⟩ := hcmd w hw hb
        exact runningOk_error hrun he

end

/-- Settles O40: a refused state's step is refused, every other one has a next state. -/
theorem noFaultUnderTheInvariant : Obligations.NoFaultUnderTheInvariant := by
  intro s f h hf
  cases hr : s.refused with
  | true => simp [step, stepWith, hr] at hf
  | false =>
    obtain ⟨t, ht⟩ := step_answers h hr
    rw [ht] at hf
    cases hf

end Sys2Proof.Machine
end

section
/-! PROOFS. A command on one bus neither reads nor writes another bus's state (O44). -/

namespace Sys2Proof.Machine

/-- The same change of the next state, if there is one. -/
def mapNext (f : State → State) (o : Host.Outcome State Fault Refusal) : Host.Outcome State Fault Refusal :=
  match o with
  | .next t => .next (f t)
  | .fault r => .fault r
  | .refused r => .refused r

section
variable {a : CallArgs} {b c : BusIx} (s : State) (x : Bus)

theorem setBus_ite (p : Prop) [Decidable p] (t : State) :
    (if p then s else t).setBus c x = if p then s.setBus c x else t.setBus c x := by
  split <;> rfl

theorem pair_setBus_ite (p : Prop) [Decidable p] (r r' : State × Option Pos) :
    ((if p then r else r').1.setBus c x, (if p then r else r').2) =
      if p then (r.1.setBus c x, r.2) else (r'.1.setBus c x, r'.2) := by
  split <;> rfl

/-! ## Another bus in a primitive -/

theorem lineEvent_setBus (h : c ≠ b) (op : LineOp) :
    lineEvent b op (s.setBus c x) = (lineEvent b op s).setBus c x := by
  cases op <;> simp only [lineEvent, bus_setBus_other s x h.symm]
  case hold => rfl
  all_goals
    rw [setBus_comm s _ _ h.symm]
    rfl

theorem afterSeg_setBus (t : Tail) :
    afterSeg a t (s.setBus c x) = ((afterSeg a t s).1.setBus c x, (afterSeg a t s).2) := by
  cases t
  case sendBit =>
    simp only [afterSeg]
    rw [pair_setBus_ite]
    rfl
  case readBit =>
    simp only [afterSeg]
    rw [pair_setBus_ite]
    rfl
  all_goals rfl

theorem segStep_setBus (h : c ≠ a.bus) (op : LineOp) (rest : List LineOp) (t : Tail) :
    segStep a op rest t (s.setBus c x) = ((segStep a op rest t s).1.setBus c x, (segStep a op rest t s).2) := by
  cases rest <;> simp only [segStep, lineEvent_setBus s x h, afterSeg_setBus]

theorem collaboratorWait_setBus : collaboratorWait (s.setBus c x) = (collaboratorWait s).map (State.setBus · c x) := by
  simp only [collaboratorWait, setBus_env]
  split <;> rfl

theorem holdWait_setBus (h : c ≠ b) : holdWait b (s.setBus c x) = (holdWait b s).map (State.setBus · c x) := by
  simp only [holdWait, bus_setBus_other s x h.symm, collaboratorWait_setBus]
  split <;> rfl

theorem primStep_setBus (h : c ≠ a.bus) (p : Pos) :
    primStep a p (s.setBus c x) = ((primStep a p s).1.setBus c x, (primStep a p s).2) := by
  cases p with
  | seg op rest t =>
    cases op with
    | hold =>
      simp only [primStep, holdWait_setBus s x h]
      cases holdWait a.bus s with
      | some u => rfl
      | none => exact segStep_setBus (collaboratorDone s) x h .hold rest t
    | _ => exact segStep_setBus s x h _ rest t
  | _ => rfl

/-! ## Another bus in a command's own part -/

theorem writeNext_setBus (n : BitVec 16) : writeNext n (s.setBus c x) = (writeNext n s).setBus c x := by
  unfold writeNext
  rw [setBus_ite]
  rfl

theorem readNext_setBus (n : BitVec 16) : readNext n (s.setBus c x) = (readNext n s).setBus c x := by
  unfold readNext
  rw [setBus_ite]
  rfl

theorem abort_setBus : abort (s.setBus c x) = (abort s).setBus c x := by
  unfold abort
  rw [setBus_ite]
  rfl

theorem unlessAborted_setBus {next : State → State} (h : next (s.setBus c x) = (next s).setBus c x) :
    unlessAborted next (s.setBus c x) = (unlessAborted next s).setBus c x := by
  simp only [unlessAborted, setBus_ackOk, h, abort_setBus]
  rw [setBus_ite]

theorem phaseInside_setBus (site : Site) : phaseInside site (s.setBus c x) = (phaseInside site s).setBus c x := by
  cases site <;> rfl

section
variable (a8 reg : Byte) (n : BitVec 16) (site : Site)

theorem probeFlow_setBus :
    probeFlow a8 site (s.setBus c x) = (probeFlow a8 site s).map (State.setBus · c x) := by
  cases site
  case waitAddrW =>
    simp only [probeFlow]
    rw [apply_ite (Option.map _)]
    rfl
  all_goals rfl

theorem writeFlow_setBus :
    writeFlow a8 reg n site (s.setBus c x) = (writeFlow a8 reg n site s).map (State.setBus · c x) := by
  cases site
  case waitAddrW => exact congrArg some (unlessAborted_setBus s x rfl)
  case waitReg => exact congrArg some (unlessAborted_setBus s x (by rw [← writeNext_setBus]; rfl))
  case waitData => exact congrArg some (unlessAborted_setBus s x (by rw [← writeNext_setBus]; rfl))
  all_goals rfl

theorem readFlow_setBus :
    readFlow a8 reg n site (s.setBus c x) = (readFlow a8 reg n site s).map (State.setBus · c x) := by
  cases site
  case waitAddrW => exact congrArg some (unlessAborted_setBus s x rfl)
  case waitReg => exact congrArg some (unlessAborted_setBus s x rfl)
  case waitAddrR => exact congrArg some (unlessAborted_setBus s x (by rw [← readNext_setBus]; rfl))
  all_goals rfl

theorem readSeqFlow_setBus :
    readSeqFlow a8 n site (s.setBus c x) = (readSeqFlow a8 n site s).map (State.setBus · c x) := by
  cases site
  case waitAddrR => exact congrArg some (unlessAborted_setBus s x (by rw [← readNext_setBus]; rfl))
  all_goals rfl

end

theorem flowOf_setBus (i : Instr) (site : Site) :
    flowOf i site (s.setBus c x) = (flowOf i site s).map (State.setBus · c x) := by
  cases i with
  | init => rfl
  | setDelay => rfl
  | probe => exact probeFlow_setBus ..
  | write => exact writeFlow_setBus ..
  | read => exact readFlow_setBus ..
  | readSeq => exact readSeqFlow_setBus ..
  | _ => cases site <;> rfl

theorem callStep_setBus (h : c ≠ a.bus) (i : Instr) (site : Site) (p : Pos) :
    callStep a (flowOf i) site p (s.setBus c x) = (callStep a (flowOf i) site p s).map (State.setBus · c x) := by
  simp only [callStep, primStep_setBus s x h]
  rcases primStep a p s with ⟨u, _ | q⟩
  · simp only [phaseInside_setBus, flowOf_setBus]
  · simp only [phaseInside_setBus]
    rfl

theorem csEnterStep_setBus : csEnterStep b (s.setBus c x) = (csEnterStep b s).setBus c x := by
  simp only [csEnterStep, collaboratorWait_setBus]
  cases collaboratorWait s <;> rfl

theorem bufRdStep_setBus (n : BitVec 16) :
    bufRdStep n (s.setBus c x) = (bufRdStep n s).map (State.setBus · c x) := by
  unfold bufRdStep
  rw [apply_ite (Option.map _)]
  rfl

theorem bufWrStep_setBus (n : BitVec 16) :
    bufWrStep n (s.setBus c x) = (bufWrStep n s).map (State.setBus · c x) := by
  unfold bufWrStep
  rw [apply_ite (Option.map _), Option.map_some, ← readNext_setBus]
  rfl

theorem orFault_map (f : Fault) (g : State → State) (r : Option State) :
    orFault f (r.map g) = mapNext g (orFault f r) := by
  cases r <;> rfl

theorem runBusy_setBus (h : c ≠ a.bus) (i : Instr) :
    runBusy a (flowOf i) (s.setBus c x) = mapNext (State.setBus · c x) (runBusy a (flowOf i) s) := by
  unfold runBusy
  rw [setBus_ctrl]
  split
  · rfl
  · rw [csEnterStep_setBus]; rfl
  · rw [callStep_setBus s x h, orFault_map]
  · rw [bufRdStep_setBus, orFault_map]
  · rw [bufWrStep_setBus, orFault_map]
  · rfl
  · rfl

/-! ## Another bus in a step of a command -/

theorem takeBuffer_setBus (i : Instr) (data : List Byte) :
    takeBuffer i data (s.setBus c x) = (takeBuffer i data s).setBus c x := by
  unfold takeBuffer
  rw [setBus_ite]
  rfl

theorem firstOf_setBus (i : Instr) : firstOf i (s.setBus c x) = (firstOf i s).setBus c x := by cases i <;> rfl

theorem accept_setBus (i : Instr) :
    accept i (firstOf i) (s.setBus c x) = (accept i (firstOf i) s).setBus c x := by
  have hfirst : firstOf i (takeBuffer i s.presentedData ((latchCommand (encode i) s).setBus c x)) =
      (firstOf i (takeBuffer i s.presentedData (latchCommand (encode i) s))).setBus c x := by
    rw [takeBuffer_setBus, firstOf_setBus]
  unfold accept
  rw [setBus_ite, setBus_ite, ← hfirst]
  rfl

theorem exec_refused (i : Instr) {s : State} (h : s.refused = true) : exec i s = .refused .addressDirectionBit := by
  cases i <;> exact if_pos h

theorem setBitDelay_setBus (h : c ≠ b) (d : BitVec 32) :
    setBitDelay b d (s.setBus c x) = (setBitDelay b d s).setBus c x := by
  simp only [setBitDelay, bus_setBus_other s x h.symm]
  rw [setBus_comm s _ _ h.symm]

theorem runConfigure_running_setBus {i : Instr} {effect : State → State} {s : State} (hr : Running s)
    (he : effect (s.setBus c x) = (effect s).setBus c x) :
    runConfigure i effect (s.setBus c x) = mapNext (State.setBus · c x) (runConfigure i effect s) := by
  simp only [runConfigure, setBus_refused, setBus_busy, setBus_ctrl, hr.1, hr.2, he]
  simp only [Bool.false_eq_true, if_false, if_true]
  split <;> rfl

theorem exec_setBus {i : Instr} (hi : i ≠ .init) (h : c ≠ i.bus) :
    exec i (s.setBus c x) = mapNext (State.setBus · c x) (exec i s) := by
  cases hr : s.refused with
  | true => rw [exec_refused i hr, exec_refused i (s := s.setBus c x) hr]; rfl
  | false =>
    cases hb : s.busy with
    | false =>
      rw [exec_ready i ⟨hr, hb⟩, exec_ready i (s := s.setBus c x) ⟨hr, hb⟩, accept_setBus]
      rfl
    | true =>
      have hrun : Running s := ⟨hr, hb⟩
      by_cases hs : sites i = []
      · cases i with
        | init => exact absurd rfl hi
        | setDelay b d => exact runConfigure_running_setBus x hrun (setBitDelay_setBus s x h d)
        | _ => cases hs
      · rw [exec_running hs hrun, exec_running hs (s := s.setBus c x) hrun]
        exact runBusy_setBus s x (by rwa [argsOf_bus]) i

end

/-- Settles O44: every operation of a command on bus b commutes with a change of another bus's state. -/
theorem otherBusesAreIndependent : Obligations.OtherBusesAreIndependent := by
  intro i s c x hi hc
  rw [exec_setBus s x hi hc]
  cases exec i s <;> rfl

end Sys2Proof.Machine
end

section
/-! PROOFS. Primitives that return: a straight piece's events and latches, start and stop, send_byte, read_byte. -/

namespace Sys2Proof.Machine

/-! ## The events and the latches of a straight piece -/

theorem lineEvent_bus (b : BusIx) (op : LineOp) (s : State) : (lineEvent b op s).bus b = latchAfter op (s.bus b) := by
  cases op <;> simp [lineEvent, latchAfter]

theorem lineEvents_bus (b : BusIx) (ops : List LineOp) (s : State) :
    (lineEvents b ops s).bus b = latchesAfter ops (s.bus b) := by
  induction ops generalizing s with
  | nil => rfl
  | cons op ops ih =>
    have h := (ih (lineEvent b op s)).trans (congrArg (latchesAfter ops) (lineEvent_bus b op s))
    cases op with
    | hold => exact ih _
    | _ => exact h

/-- A HOLD's event shows the bus's delay, which no line event changes (R10). -/
theorem lineOpEvent_congr {b : BusIx} {s t : State} (h : (t.bus b).bitDelayUs = (s.bus b).bitDelayUs) (op : LineOp) :
    lineOpEvent b op t = lineOpEvent b op s := by
  cases op <;> simp [lineOpEvent, h]

theorem lineEvents_trace (b : BusIx) (ops : List LineOp) (s : State) :
    (lineEvents b ops s).trace = (ops.map fun op => lineOpEvent b op s).reverse ++ s.trace := by
  induction ops generalizing s with
  | nil => rfl
  | cons op ops ih =>
    have h : ∀ t : State, (t.bus b).bitDelayUs = (s.bus b).bitDelayUs → t.trace = lineOpEvent b op s :: s.trace →
        (lineEvents b ops t).trace = ((op :: ops).map fun op => lineOpEvent b op s).reverse ++ s.trace := by
      intro t hd ht
      have hev : (fun op => lineOpEvent b op t) = fun op => lineOpEvent b op s := funext (lineOpEvent_congr hd)
      rw [ih, ht, hev]
      simp
    cases op with
    | hold => exact h _ rfl rfl
    | _ => exact h _ ((lineEvent_untouched b _ s).delay b) (lineEvent_trace ..)

/-! ## What a called primitive leaves alone -/

/-- As `Untouched`, but for the control point: what a primitive that runs from state `s` to state `t` leaves alone. -/
def CallFrame (b : BusIx) (s t : State) : Prop := Untouched b (s.goto t.ctrl) t

section
variable {b : BusIx} {s t u : State}

theorem Untouched.goto (h : Untouched b s t) (c : Ctrl) : Untouched b (s.goto c) (t.goto c) :=
  ⟨h.cfg, h.busy, h.cmd, h.phase, h.byteIdx, h.csHeld, h.resp, h.refused, rfl, h.buf, h.done, h.host, h.delay, h.otherBuses⟩

theorem Untouched.callFrame (h : Untouched b s t) (c : Ctrl) : CallFrame b s (t.goto c) := h.goto c

theorem CallFrame.trans (h : CallFrame b s t) (k : CallFrame b t u) : CallFrame b s u := (h.goto u.ctrl).trans k

theorem CallFrame.call (h : CallFrame b s t) (site : Site) (p : Pos) : CallFrame b s (call site p t) :=
  h.trans ((Untouched.refl b t).callFrame _)

theorem CallFrame.running (h : CallFrame b s t) (hs : Running s) : Running t :=
  ⟨h.refused.trans hs.1, h.busy.trans hs.2⟩

theorem Untouched.setBitCnt (b : BusIx) (n : BitVec 3) (s : State) : Untouched b s (s.setBitCnt n) :=
  .datapath b s s.shift n s.t0 s.ackOk s.trace s.env

theorem readBits_untouched (b : BusIx) (n : Nat) (s : State) : Untouched b s (readBits b n s) := by
  induction n generalizing s with
  | zero => exact .refl b s
  | succ n ih => exact (readBit_untouched b s).trans (ih _)

end

/-! ## Primitives that return -/

section
variable {i : Instr} {s : State} {site : Site}

/-- A straight piece that returns: start, stop, and the acknowledge pulse (R101, R102, R106, R107). -/
theorem piece_returns {op : LineOp} {rest : List LineOp} (hi : sites i ≠ []) (h : Running s)
    (hc : s.ctrl = .call site (.seg op rest .ret)) (hp : site = .readData → s.phase = .dataPhase) :
    ∃ k c, execFor i k s =
      orFault .noControlPoint (flowOf i site ((lineEvents i.bus (op :: rest) s).goto c)) := by
  obtain ⟨k, c, hk⟩ := piece_runs hi h hc hp
  have hphase := (lineEvents_untouched i.bus (op :: rest) s).phase
  refine ⟨k, c, ?_⟩
  rw [hk, pieceEnd_ret, phaseInside_eq (by exact fun e => hphase.trans (hp e))]

/-- send_byte returns (R103). -/
theorem send_returns (hi : sites i ≠ []) (h : Running s) (hc : s.ctrl = .call site sendPos) (hp : site ≠ .readData) :
    ∃ k u, execFor i k s = orFault .noControlPoint (flowOf i site u) ∧ CallFrame i.bus s u := by
  obtain ⟨k, c, hk⟩ := send_runs hi h hc hp
  exact ⟨k, _, hk, ((lineEvents_untouched i.bus _ s).trans (.setBitCnt i.bus 0 _)).callFrame c⟩

/-- read_byte's first event, with which PHASE becomes DATA_PHASE in a data loop (R104, R146). -/
theorem read_begins (hi : sites i ≠ []) (h : Running s) (hc : s.ctrl = .call site readPos) :
    exec i s = .next (call site (.seg (.dir .inp) [] .readLoop) (phaseInside site (lineEvent i.bus (.sda true) s))) := by
  rw [exec_call hi h hc, callStep]
  simp only [readPos, primStep, segStep, argsOf_bus]
  rfl

theorem phaseInside_lineEvent (b : BusIx) (op : LineOp) (site : Site) (s : State) :
    phaseInside site (lineEvent b op s) = lineEvent b op (phaseInside site s) := by
  cases site <;> cases op <;> rfl

theorem pieceEnd_readLoop (i : Instr) (site : Site) (s : State) :
    pieceEnd i site .readLoop s = .next (call site readBitPos (phaseInside site (s.setBitCnt 7))) := rfl

/-- read_byte's loop runs to the acknowledge pulse, which returns (R104). -/
theorem readLoop_returns (hi : sites i ≠ []) (h : Running s) (hb : s.bitCnt = 7) (hc : s.ctrl = .call site readBitPos)
    (hp : site = .readData → s.phase = .dataPhase) :
    ∃ k u, execFor i k s = orFault .noControlPoint (flowOf i site u) ∧ CallFrame i.bus s u := by
  obtain ⟨k, hk⟩ := readBits_run (n := 7) hi h (by decide) hb hc hp
  have hu : Untouched i.bus s ((readBits i.bus 8 s).setBitCnt 0) := (readBits_untouched i.bus 8 s).trans (.setBitCnt ..)
  generalize (readBits i.bus 8 s).setBitCnt 0 = u at hk hu
  have hf := hu.callFrame (.call site (pulsePos (!(argsOf i s.byteIdx).sendAck)))
  obtain ⟨k', c, hk'⟩ := piece_returns hi (hf.running h) rfl (fun e => hf.phase.trans (hp e))
  exact ⟨k + k', _, (execFor_add hk k').trans hk', hf.trans ((lineEvents_untouched ..).callFrame c)⟩

/-- After its first event read_byte runs to its return (R104). -/
theorem read_returns_from_release (hi : sites i ≠ []) (h : Running s)
    (hc : s.ctrl = .call site (.seg (.dir .inp) [] .readLoop)) (hp : site = .readData → s.phase = .dataPhase) :
    ∃ k u, execFor i k s = orFault .noControlPoint (flowOf i site u) ∧ CallFrame i.bus s u := by
  obtain ⟨k, c, hk⟩ := piece_runs hi h hc hp
  have hu : Untouched i.bus s (State.setBitCnt 7 (lineEvents i.bus [.dir .inp] s)) :=
    (lineEvents_untouched ..).trans (.setBitCnt ..)
  rw [pieceEnd_readLoop, phaseInside_eq (by exact fun e => hu.phase.trans (hp e))] at hk
  have hf := hu.callFrame (.call site readBitPos)
  obtain ⟨k', u, hk', hu'⟩ := readLoop_returns hi (hf.running h) rfl rfl (fun e => hf.phase.trans (hp e))
  exact ⟨k + k', u, (execFor_add hk k').trans hk', hf.trans hu'⟩

/-- read_byte returns, with PHASE at DATA_PHASE in a data loop (R104, R146). -/
theorem read_returns (hi : sites i ≠ []) (h : Running s) (hc : s.ctrl = .call site readPos) :
    ∃ k u, execFor i k s = orFault .noControlPoint (flowOf i site u) ∧ CallFrame i.bus (phaseInside site s) u := by
  have hbegin := read_begins hi h hc
  rw [phaseInside_lineEvent] at hbegin
  have hf := (lineEvent_untouched i.bus (.sda true) (phaseInside site s)).callFrame
    (.call site (.seg (.dir .inp) [] .readLoop))
  have hg := phaseInside_goesOn site s
  obtain ⟨k, u, hk, hu⟩ := read_returns_from_release hi
    (hf.running ⟨hg.refused.trans h.1, hg.busy.trans h.2⟩) rfl (by rintro rfl; rfl)
  exact ⟨k + 1, u, (execFor_succ hbegin).trans hk, hf.trans hu⟩

end
end Sys2Proof.Machine
end

section
/-! PROOFS. wait_ack ends, whatever the slave and the tick source do within the laws (R105, R209). -/

namespace Sys2Proof.Machine

/-! ## The elapsed time -/

/-- Read from an unwrapped counter, the elapsed time is the counter's increase modulo `2^TICK_W` (R205). -/
theorem elapsed_counter {w u0 u : Nat} (h : u0 ≤ u) : elapsed w (u % 2 ^ w) (u0 % 2 ^ w) = (u - u0) % 2 ^ w := by
  have h0 : u0 % 2 ^ w < 2 ^ w := Nat.mod_lt _ (Nat.two_pow_pos w)
  have hsum : u % 2 ^ w + 2 ^ w - u0 % 2 ^ w + u0 % 2 ^ w = u % 2 ^ w + 2 ^ w := by omega
  refine Nat.ModEq.add_right_cancel' u0 ?_
  calc u % 2 ^ w + 2 ^ w - u0 % 2 ^ w + u0
      ≡ u % 2 ^ w + 2 ^ w - u0 % 2 ^ w + u0 % 2 ^ w [MOD 2 ^ w] := (Nat.mod_modEq u0 _).symm.add_left _
    _ = u % 2 ^ w + 2 ^ w := hsum
    _ ≡ u % 2 ^ w [MOD 2 ^ w] := Nat.add_modEq_right
    _ ≡ u [MOD 2 ^ w] := Nat.mod_modEq u _
    _ = u - u0 + u0 := (Nat.sub_add_cancel h).symm

/-- Between T0's TICK at `u0` and the timeout `lim`: the counter is at `u`, with no time check yet or the last one short. -/
def ShortOf (lim u0 u : Nat) : Prop := u0 ≤ u ∧ (u = u0 ∨ u < u0 + lim)

/-- Under law 2 no time check that is short of the timeout has missed it by a wrap (R205, R209). -/
theorem ShortOf.next {m lim u0 u u' : Nat} (h : ShortOf lim u0 u) (hlim : lim ≤ m) (hle : u ≤ u') (hlaw : u' ≤ u + (m - lim))
    (hshort : (u' - u0) % m < lim) : u0 ≤ u' ∧ u' < u0 + lim := by
  obtain ⟨h0, hu⟩ := h
  have hlt : u' - u0 < m := by omega
  rw [Nat.mod_eq_of_lt hlt] at hshort
  omega

/-! ## The answers -/

theorem nextSample_congr {e e' : Env} (h : e'.samples = e.samples) (hn : e'.sampleNo = e.sampleNo) :
    (nextSample e').1 = (nextSample e).1 ∧ (nextSample e').2.samples = (nextSample e).2.samples ∧
      (nextSample e').2.sampleNo = (nextSample e).2.sampleNo := by
  unfold nextSample
  rw [h]
  split <;> simp [hn]

/-- The SAMPLE answers do not depend on the tick source or the waits. -/
theorem drawSamples_congr {e e' : Env} (n : Nat) (h : e'.samples = e.samples) (hn : e'.sampleNo = e.sampleNo) :
    (drawSamples n e').1 = (drawSamples n e).1 := by
  induction n generalizing e e' with
  | zero => rfl
  | succ n ih =>
    obtain ⟨hv, hs, hno⟩ := nextSample_congr h hn
    simp only [drawSamples, hv, ih hs hno]

/-- For how many TICKs the counter may at most stand still before it moves (R209 law 3). -/
def patience (e : Env) : Nat := e.tickSteps.length + e.tickStall

/-- The next TICK moves the counter, or brings its next move nearer (R209 law 3). -/
theorem nextTickStep_moves (e : Env) : 0 < (nextTickStep e).1 ∨ patience (nextTickStep e).2 < patience e := by
  unfold nextTickStep
  split
  · exact .inr (by simp [patience, *])
  · split
    · exact .inr (by simp [patience, *])
    · exact .inl (Nat.succ_pos _)

/-- A TICK with a limit moves the counter by at most the limit, or brings its next move nearer (R209). -/
theorem tickEvent_limit {m : Nat} (hm : 0 < m) (s : State) :
    ∃ u, tickEvent (some m) s = (u % 2 ^ s.cfg.tickW,
        State.emit { s with env := { (nextTickStep s.env).2 with tickNow := u } } (.tick (u % 2 ^ s.cfg.tickW))) ∧
      s.env.tickNow ≤ u ∧ u ≤ s.env.tickNow + m ∧
      (s.env.tickNow < u ∨ patience (nextTickStep s.env).2 < patience s.env) := by
  obtain ⟨-, -, -, hnow⟩ := nextTickStep_rest s.env
  refine ⟨s.env.tickNow + min (nextTickStep s.env).1 m, by simp only [tickEvent, hnow], by omega, by omega, ?_⟩
  exact (nextTickStep_moves s.env).imp (by omega) id

theorem argsOf_timeout (i : Instr) (k : BitVec 16) : (argsOf i k).timeout = i.timeout := by cases i <;> rfl

/-! ## A time check -/

/-- What a time check of command `i` that answers `τ` does to the state, but for the control point (R105, R209). -/
structure TimeCheck (i : Instr) (s v : State) (τ : Nat) : Prop where
  frame : CallFrame i.bus s v
  buses : v.buses = s.buses
  t0 : v.t0 = s.t0
  samples : v.env.samples = s.env.samples
  sampleNo : v.env.sampleNo = s.env.sampleNo
  answer : τ = v.env.tickNow % 2 ^ s.cfg.tickW
  grows : s.env.tickNow ≤ v.env.tickNow
  law2 : v.env.tickNow ≤ s.env.tickNow + (2 ^ s.cfg.tickW - i.timeout.toNat)
  moves : s.env.tickNow < v.env.tickNow ∨ patience v.env < patience s.env
  trace : v.trace = .tick τ :: s.trace

section
variable {i : Instr} {s : State} {site : Site}

theorem timeout_lt_of_wf (hw : 16 ≤ s.cfg.tickW) (timeout : BitVec 16) : timeout.toNat < 2 ^ s.cfg.tickW :=
  lt_of_lt_of_le timeout.isLt (Nat.pow_le_pow_right (by decide) hw)

theorem timeCheck_step (hi : sites i ≠ []) (hp : site ≠ .readData) (h : Running s) (hc : s.ctrl = .call site .check)
    (hw : 16 ≤ s.cfg.tickW) :
    ∃ v τ, TimeCheck i s v τ ∧ exec i s = .next
      (call site (if i.timeout.toNat ≤ elapsed s.cfg.tickW τ s.t0 then stopPos .timedOut else .poll) v) := by
  have hlt := timeout_lt_of_wf hw i.timeout
  obtain ⟨u, hu, hle, hlaw, hmoves⟩ := tickEvent_limit (m := maxTickStep s.cfg.tickW i.timeout) (Nat.sub_pos_of_lt hlt) s
  obtain ⟨hsamples, hno, -, -⟩ := nextTickStep_rest s.env
  have hstep := check_step hi h hc hp
  rw [argsOf_timeout, hu] at hstep
  simp only [timeoutReached, decide_eq_true_eq] at hstep
  refine ⟨_, _, ?_, hstep⟩
  exact ⟨.datapath i.bus s s.shift s.bitCnt s.t0 s.ackOk _ _, rfl, rfl, hsamples, hno, rfl, hle, hlaw, hmoves, rfl⟩

end

/-! ## Polling -/

/-- From state `s` on wait_ack's polls have come to an acknowledge in state `u`, after time checks that answered `τs` (R105). -/
structure PollsAcked (i : Instr) (s u : State) (τs : List Nat) : Prop where
  samples : (drawSamples (τs.length + 1) s.env).1 = List.replicate τs.length true ++ [false]
  early : ∀ τ ∈ τs, elapsed s.cfg.tickW τ s.t0 < i.timeout.toNat
  trace : u.trace = (pollEvents i.bus τs ++ [Event.sample i.bus false]).reverse ++ s.trace

/-- From state `s` on wait_ack's polls have seen no acknowledge up to the timeout, which the last of the time checks' answers
`τs` reaches, in state `u` (R105). -/
structure PollsTimedOut (i : Instr) (s u : State) (τs : List Nat) : Prop where
  samples : (drawSamples τs.length s.env).1 = List.replicate τs.length true
  last : ∃ us τ, τs = us ++ [τ] ∧ (∀ u ∈ us, elapsed s.cfg.tickW u s.t0 < i.timeout.toNat) ∧
    i.timeout.toNat ≤ elapsed s.cfg.tickW τ s.t0
  trace : u.trace = (pollEvents i.bus τs).reverse ++ s.trace

/-- One poll that sees no acknowledge and its time check, which answers `τ`: what they do to the state, but for the control
point (R105, R209). -/
structure PollRound (i : Instr) (s v : State) (τ : Nat) : Prop where
  frame : CallFrame i.bus s v
  sample : (nextSample s.env).1 = true
  buses : v.buses = s.buses
  t0 : v.t0 = s.t0
  samples : v.env.samples = (nextSample s.env).2.samples
  sampleNo : v.env.sampleNo = (nextSample s.env).2.sampleNo
  answer : τ = v.env.tickNow % 2 ^ s.cfg.tickW
  grows : s.env.tickNow ≤ v.env.tickNow
  law2 : v.env.tickNow ≤ s.env.tickNow + (2 ^ s.cfg.tickW - i.timeout.toNat)
  moves : s.env.tickNow < v.env.tickNow ∨ patience v.env < patience s.env
  trace : v.trace = .tick τ :: .sample i.bus true :: s.trace

section
variable {i : Instr} {s v u : State} {τ : Nat} {τs : List Nat}

theorem PollRound.drawSamples (h : PollRound i s v τ) (n : Nat) :
    (drawSamples (n + 1) s.env).1 = true :: (Machine.drawSamples n v.env).1 := by
  rw [Machine.drawSamples, h.sample, drawSamples_congr n h.samples h.sampleNo]

theorem PollsAcked.cons (h : PollsAcked i v u τs) (hr : PollRound i s v τ)
    (hτ : elapsed s.cfg.tickW τ s.t0 < i.timeout.toNat) : PollsAcked i s u (τ :: τs) where
  samples := by rw [List.length_cons, hr.drawSamples, h.samples]; rfl
  early := by
    have he := h.early
    rw [hr.frame.cfg, hr.t0] at he
    exact List.forall_mem_cons.mpr ⟨hτ, he⟩
  trace := by rw [h.trace, hr.trace]; simp [pollEvents]

theorem PollsTimedOut.cons (h : PollsTimedOut i v u τs) (hr : PollRound i s v τ)
    (hτ : elapsed s.cfg.tickW τ s.t0 < i.timeout.toNat) : PollsTimedOut i s u (τ :: τs) where
  samples := by rw [List.length_cons, hr.drawSamples, h.samples]; rfl
  last := by
    obtain ⟨us, τ', rfl, hus, hτ'⟩ := h.last
    rw [hr.frame.cfg, hr.t0] at hus hτ'
    exact ⟨τ :: us, τ', rfl, List.forall_mem_cons.mpr ⟨hτ, hus⟩, hτ'⟩
  trace := by rw [h.trace, hr.trace]; simp [pollEvents]

theorem PollsAcked.first (hs : (nextSample s.env).1 = false) (hu : u.trace = .sample i.bus false :: s.trace) :
    PollsAcked i s u [] :=
  ⟨by simp [Machine.drawSamples, hs], nofun, hu⟩

theorem PollRound.timedOut (hr : PollRound i s v τ) (hτ : i.timeout.toNat ≤ elapsed s.cfg.tickW τ s.t0) :
    PollsTimedOut i s v [τ] :=
  ⟨hr.drawSamples 0, ⟨[], τ, rfl, nofun, hτ⟩, hr.trace⟩

theorem pollRound_runs {site : Site} (hi : sites i ≠ []) (hp : site ≠ .readData) (h : Running s)
    (hc : s.ctrl = .call site .poll) (hw : 16 ≤ s.cfg.tickW) (hs : (nextSample s.env).1 = true) :
    ∃ v τ, PollRound i s v τ ∧ execFor i 2 s = .next
      (call site (if i.timeout.toNat ≤ elapsed s.cfg.tickW τ s.t0 then stopPos .timedOut else .poll) v) := by
  have hpoll := poll_step hi h hc hp
  rw [hs] at hpoll
  obtain ⟨v, τ, hv, hcheck⟩ := timeCheck_step (s := call site .check (sampleEvent i.bus s).2) hi hp h rfl hw
  obtain ⟨hnow, hsteps, -, hstall, -⟩ := nextSample_rest s.env
  have hpat : patience (nextSample s.env).2 = patience s.env := by simp only [patience, hsteps, hstall]
  refine ⟨v, τ, ?_, (execFor_succ hpoll).trans (execFor_one hcheck)⟩
  exact {
    frame := ((sampleEvent_untouched i.bus i.bus s).callFrame _).trans hv.frame
    sample := hs
    buses := hv.buses
    t0 := hv.t0
    samples := hv.samples
    sampleNo := hv.sampleNo
    answer := hv.answer
    grows := hnow ▸ hv.grows
    law2 := hnow ▸ hv.law2
    moves := hnow ▸ hpat ▸ hv.moves
    trace := by rw [hv.trace, call_trace, sampleEvent_eq, hs]; rfl }

theorem PollRound.call (hr : PollRound i s v τ) (site : Site) (p : Pos) : PollRound i s (call site p v) τ :=
  { hr with frame := hr.frame.call site p }

/-- A time check that is short of the timeout leaves the counter short of it (R205, R209). -/
theorem PollRound.shortOf {u0 : Nat} (hr : PollRound i s v τ) (hw : 16 ≤ s.cfg.tickW) (ht0 : s.t0 = u0 % 2 ^ s.cfg.tickW)
    (hs : ShortOf i.timeout.toNat u0 s.env.tickNow) (hτ : elapsed s.cfg.tickW τ s.t0 < i.timeout.toNat) :
    u0 ≤ v.env.tickNow ∧ v.env.tickNow < u0 + i.timeout.toNat := by
  rw [hr.answer, ht0, elapsed_counter (hs.1.trans hr.grows)] at hτ
  exact hs.next (timeout_lt_of_wf hw i.timeout).le hr.grows hr.law2 hτ

end

/-- wait_ack's polls, called from `site`, come from state `s` to an acknowledge or to the stop after the timeout. -/
def PollsEnd (i : Instr) (site : Site) (s : State) : Prop :=
  ∃ k τs v, CallFrame i.bus s v ∧ v.buses = s.buses ∧ v.t0 = s.t0 ∧
    ((execFor i k s = .next (call site (.seg (.scl false) [] .acked) v) ∧ PollsAcked i s v τs) ∨
      (execFor i k s = .next (call site (stopPos .timedOut) v) ∧ PollsTimedOut i s v τs))

/-- wait_ack's polls end: each round brings the counter nearer to the timeout, or its next move nearer (R105, R209). -/
theorem polls_end {i : Instr} {site : Site} (u0 : Nat) (s : State) (hi : sites i ≠ []) (hp : site ≠ .readData)
    (h : Running s) (hc : s.ctrl = .call site .poll) (hw : 16 ≤ s.cfg.tickW) (ht0 : s.t0 = u0 % 2 ^ s.cfg.tickW)
    (hshort : ShortOf i.timeout.toNat u0 s.env.tickNow) : PollsEnd i site s := by
  cases hs : (nextSample s.env).1 with
  | false =>
    have hpoll := poll_step hi h hc hp
    rw [hs] at hpoll
    exact ⟨1, [], (sampleEvent i.bus s).2, (sampleEvent_untouched i.bus i.bus s).callFrame s.ctrl, rfl, rfl,
      .inl ⟨execFor_one hpoll, .first hs (by rw [sampleEvent_eq, hs]; rfl)⟩⟩
  | true =>
    obtain ⟨v, τ, hr, hround⟩ := pollRound_runs hi hp h hc hw hs
    by_cases hτ : i.timeout.toNat ≤ elapsed s.cfg.tickW τ s.t0
    · rw [if_pos hτ] at hround
      exact ⟨2, [τ], v, hr.frame, hr.buses, hr.t0, .inr ⟨hround, hr.timedOut hτ⟩⟩
    · rw [if_neg hτ] at hround
      rw [not_le] at hτ
      have hnext := hr.shortOf hw ht0 hshort hτ
      have hdec : u0 + i.timeout.toNat - v.env.tickNow < u0 + i.timeout.toNat - s.env.tickNow ∨
          u0 + i.timeout.toNat - v.env.tickNow = u0 + i.timeout.toNat - s.env.tickNow ∧
            patience v.env < patience s.env := by
        have hgrows := hr.grows
        rcases hr.moves with hm | hm <;> omega
      obtain ⟨k, τs, u, hu, hbuses, hut0, hend⟩ := polls_end u0 (call site .poll v) hi hp (hr.frame.running h) rfl
        (hr.frame.cfg ▸ hw) (hr.t0.trans (hr.frame.cfg ▸ ht0)) ⟨hnext.1, .inr hnext.2⟩
      refine ⟨2 + k, τ :: τs, u, hr.frame.trans hu, hbuses.trans hr.buses, hut0.trans hr.t0, ?_⟩
      rw [execFor_add hround]
      exact hend.imp (And.imp_right (·.cons (hr.call ..) hτ)) (And.imp_right (·.cons (hr.call ..) hτ))
termination_by (u0 + i.timeout.toNat - s.env.tickNow, patience s.env)
decreasing_by exact Prod.lex_iff.mpr hdec

/-! ## wait_ack from its call to its return -/

/-- The line events of a stop (R102). -/
def stopOps : List LineOp := [.scl false, .hold, .dir .out, .sda false, .hold, .scl true, .hold, .sda true, .hold]

/-- A stop leaves its bus idle-high (R102, R28). -/
theorem latchesAfter_stopOps (x : Bus) : (latchesAfter stopOps x).idleHigh := ⟨rfl, rfl, rfl⟩

/-- wait_ack, called in state `s`, has returned success in state `u`, after time checks that answered `τs` (R105). -/
structure WaitAcked (i : Instr) (s u : State) (τs : List Nat) : Prop where
  ackOk : u.ackOk = true
  samples : (drawSamples (τs.length + 1) s.env).1 = List.replicate τs.length true ++ [false]
  early : ∀ τ ∈ τs, elapsed s.cfg.tickW τ u.t0 < i.timeout.toNat
  trace : u.trace = (waitOkAfter i.bus u.t0 τs).reverse ++ s.trace

/-- wait_ack, called in state `s`, has returned failure in state `u`, at the last of the time checks that answered `τs`, with its
bus idle-high (R105). -/
structure WaitTimedOut (i : Instr) (s u : State) (τs : List Nat) : Prop where
  ackOk : u.ackOk = false
  idleHigh : (u.bus i.bus).idleHigh
  samples : (drawSamples τs.length s.env).1 = List.replicate τs.length true
  last : ∃ us τ, τs = us ++ [τ] ∧ (∀ u' ∈ us, elapsed s.cfg.tickW u' u.t0 < i.timeout.toNat) ∧
    i.timeout.toNat ≤ elapsed s.cfg.tickW τ u.t0
  trace : u.trace = (waitFailEvents i.bus (s.bus i.bus).bitDelayUs u.t0 τs).reverse ++ s.trace

section
variable {i : Instr} {s : State} {site : Site}

/-- wait_ack up to its first poll: the line is released and T0 is taken (R105). -/
theorem wait_begins (hi : sites i ≠ []) (hp : site ≠ .readData) (h : Running s) (hc : s.ctrl = .call site waitPos) :
    ∃ k v, execFor i k s = .next (call site .poll v) ∧ CallFrame i.bus s v ∧ v.t0 = v.env.tickNow % 2 ^ s.cfg.tickW ∧
      v.env.samples = s.env.samples ∧ v.env.sampleNo = s.env.sampleNo ∧
      v.trace = (waitHead i.bus v.t0).reverse ++ s.trace := by
  obtain ⟨k, c, hk⟩ := piece_runs hi h hc (fun e => absurd e hp)
  have hu := lineEvents_untouched i.bus [.dir .inp, .sda true, .scl true] s
  have hr := lineEvents_running i.bus [.dir .inp, .sda true, .scl true] h
  have htrace := lineEvents_trace i.bus [.dir .inp, .sda true, .scl true] s
  have henv : (lineEvents i.bus [.dir .inp, .sda true, .scl true] s).env = s.env := rfl
  generalize lineEvents i.bus [.dir .inp, .sda true, .scl true] s = u at hk hu hr htrace henv
  rw [pieceEnd_waitBegin, phaseInside_eq (fun e => absurd e hp)] at hk
  have htick := tickT0_step (s := call site .tickT0 (u.goto c)) hi hr rfl hp
  obtain ⟨n, hval, hstate, -⟩ := tickEvent_eq none (call site .tickT0 (u.goto c))
  obtain ⟨hsamples, hno, -⟩ := nextTickStep_rest u.env
  rw [hval, hstate] at htick
  refine ⟨k + 1, _, (execFor_add hk 1).trans (execFor_one htick), ?_, congrArg (n % 2 ^ ·.tickW) hu.cfg, ?_, ?_, ?_⟩
  · exact (hu.callFrame _).trans (.datapath i.bus (call site .tickT0 (u.goto c)) u.shift u.bitCnt _ u.ackOk _ _)
  · exact hsamples.trans (congrArg Env.samples henv)
  · exact hno.trans (congrArg Env.sampleNo henv)
  · exact congrArg (_ :: ·) htrace

theorem acked_returns (hi : sites i ≠ []) (hp : site ≠ .readData) (h : Running s)
    (hc : s.ctrl = .call site (.seg (.scl false) [] .acked)) :
    ∃ k u, execFor i k s = orFault .noControlPoint (flowOf i site u) ∧ CallFrame i.bus s u ∧ u.ackOk = true ∧
      u.t0 = s.t0 ∧ u.trace = .scl i.bus false :: s.trace := by
  obtain ⟨k, c, hk⟩ := piece_runs hi h hc (fun e => absurd e hp)
  rw [pieceEnd_acked, phaseInside_eq (fun e => absurd e hp)] at hk
  have hf := (lineEvents_untouched i.bus [.scl false] s).callFrame c
  exact ⟨k, _, hk, hf.trans (.datapath i.bus _ s.shift s.bitCnt s.t0 true _ _), rfl, rfl, rfl⟩

theorem timedOut_returns (hi : sites i ≠ []) (hp : site ≠ .readData) (h : Running s)
    (hc : s.ctrl = .call site (stopPos .timedOut)) :
    ∃ k u, execFor i k s = orFault .noControlPoint (flowOf i site u) ∧ CallFrame i.bus s u ∧ u.ackOk = false ∧
      u.t0 = s.t0 ∧ (u.bus i.bus).idleHigh ∧
      u.trace = (stopEvents i.bus (s.bus i.bus).bitDelayUs).reverse ++ s.trace := by
  obtain ⟨k, c, hk⟩ := piece_runs hi h hc (fun e => absurd e hp)
  rw [pieceEnd_timedOut, phaseInside_eq (fun e => absurd e hp)] at hk
  have hf := (lineEvents_untouched i.bus stopOps s).callFrame c
  obtain ⟨hshift, hbitCnt, ht0, -⟩ := lineEvents_keeps i.bus stopOps s
  have hbus := lineEvents_bus i.bus stopOps s
  have htrace := lineEvents_trace i.bus stopOps s
  change execFor i k s = orFault _ (flowOf i site { (lineEvents i.bus stopOps s).goto c with ackOk := false }) at hk
  generalize lineEvents i.bus stopOps s = u at hk hf ht0 hbus htrace
  refine ⟨k, _, hk, hf.trans (.datapath i.bus _ u.shift u.bitCnt u.t0 false u.trace u.env), rfl, ht0, ?_, htrace⟩
  have hidle := latchesAfter_stopOps (s.bus i.bus)
  rwa [← hbus] at hidle

/-- wait_ack returns, whatever the samples and the ticks (R105, R209). -/
theorem wait_returns (hi : sites i ≠ []) (hp : site ≠ .readData) (h : Running s) (hc : s.ctrl = .call site waitPos)
    (hw : 16 ≤ s.cfg.tickW) :
    ∃ k u τs, execFor i k s = orFault .noControlPoint (flowOf i site u) ∧ CallFrame i.bus s u ∧
      (WaitAcked i s u τs ∨ WaitTimedOut i s u τs) := by
  obtain ⟨k1, v, h1, hv, hvt0, hvs, hvn, hvtrace⟩ := wait_begins hi hp h hc
  obtain ⟨k2, τs, w, hw2, -, hwt0, hend⟩ := polls_end v.env.tickNow (call site .poll v) hi hp (hv.running h) rfl
    (hv.cfg ▸ hw) (hv.cfg ▸ hvt0) ⟨le_rfl, .inl rfl⟩
  have hvw : CallFrame i.bus s w := (hv.call site .poll).trans hw2
  have hdraw : ∀ n, (drawSamples n v.env).1 = (drawSamples n s.env).1 := fun n => drawSamples_congr n hvs hvn
  have hcfg := hv.cfg
  rcases hend with ⟨h2, hpolls⟩ | ⟨h2, hpolls⟩
  · obtain ⟨k3, u, h3, hu, hack, hut0, hutrace⟩ := acked_returns
      (s := call site (.seg (.scl false) [] .acked) w) hi hp (hvw.running h) rfl
    have ht0 : u.t0 = v.t0 := hut0.trans hwt0
    refine ⟨k1 + (k2 + k3), u, τs, by rw [execFor_add h1, execFor_add h2, h3], (hvw.call site _).trans hu, .inl ?_⟩
    exact {
      ackOk := hack
      samples := (hdraw _).symm.trans hpolls.samples
      early := by rw [ht0]; exact hcfg ▸ hpolls.early
      trace := by rw [hutrace, call_trace, hpolls.trace, call_trace, hvtrace, ht0]; simp [waitOkAfter] }
  · obtain ⟨k3, u, h3, hu, hack, hut0, hidle, hutrace⟩ := timedOut_returns
      (s := call site (stopPos .timedOut) w) hi hp (hvw.running h) rfl
    have ht0 : u.t0 = v.t0 := hut0.trans hwt0
    have hdelay := hvw.delay i.bus
    refine ⟨k1 + (k2 + k3), u, τs, by rw [execFor_add h1, execFor_add h2, h3], (hvw.call site _).trans hu, .inr ?_⟩
    exact {
      ackOk := hack
      idleHigh := hidle
      samples := (hdraw _).symm.trans hpolls.samples
      last := by rw [ht0]; exact hcfg ▸ hpolls.last
      trace := by
        rw [hutrace, bus_call, hdelay, call_trace, hpolls.trace, call_trace, hvtrace, ht0]
        simp [waitFailEvents] }

end
end Sys2Proof.Machine
end

section
/-! PROOFS. A command from its accept to its respond (R37, R39): what holds while it runs; WAIT_ACK (O27). -/

namespace Sys2Proof.Machine

/-- Command `i`, accepted in state `s`, runs in state `t`, and what no command touches is untouched. -/
structure InProgress (i : Instr) (s t : State) : Prop where
  running : Running t
  cmd : t.cmd = encode i
  cfg : t.cfg = s.cfg
  done : t.done = s.done
  host : t.host = s.hostAfterAccept
  delay : (t.bus i.bus).bitDelayUs = (s.bus i.bus).bitDelayUs
  otherBuses : ∀ c, c ≠ i.bus → t.bus c = s.bus c
  emptyBuf : hasBuffer i = true → bufferLen i = 0 → t.buf = []

section
variable {i : Instr} {s t u : State} {st : Status} {rd : Byte}

theorem InProgress.of_frame (h : InProgress i s t) (hf : CallFrame i.bus t u) : InProgress i s u where
  running := hf.running h.running
  cmd := hf.cmd.trans h.cmd
  cfg := hf.cfg.trans h.cfg
  done := hf.done.trans h.done
  host := hf.host.trans h.host
  delay := (hf.delay _).trans h.delay
  otherBuses c hc := (hf.otherBuses c hc).trans (h.otherBuses c hc)
  emptyBuf hb hl := hf.buf.trans (h.emptyBuf hb hl)

theorem InProgress.goto (h : InProgress i s t) (c : Ctrl) : InProgress i s (t.goto c) :=
  h.of_frame ((Untouched.refl i.bus t).callFrame c)

/-- The engine's own steps keep it: they write CS_HELD, and the buffer of a command that has bytes in it. -/
theorem InProgress.of_goesOn {cs : Option BusIx} {m : Memory} (h : InProgress i s t)
    (hg : GoesOn { t with csHeld := cs, buf := m } u) (hm : bufferLen i = 0 → m = t.buf) : InProgress i s u where
  running := ⟨hg.refused.trans h.running.1, hg.busy.trans h.running.2⟩
  cmd := hg.cmd.trans h.cmd
  cfg := hg.cfg.trans h.cfg
  done := hg.done.trans h.done
  host := hg.host.trans h.host
  delay := (congrArg _ (bus_congr (s := t) hg.buses i.bus)).trans h.delay
  otherBuses c hc := (bus_congr (s := t) hg.buses c).trans (h.otherBuses c hc)
  emptyBuf hb hl := (hg.buf.trans (hm hl)).trans (h.emptyBuf hb hl)

/-! ## The accept -/

theorem busInRange_of_busExists (h : i.busExists s.cfg = true) : busInRange s.cfg.nBus i = true := by
  cases i <;> simp_all [Instr.busExists, busInRange]

theorem directionBitSet_of_clear (h : i.directionClear = true) : directionBitSet i = false := by
  cases ha : i.address <;> simp_all [Instr.directionClear, directionBitSet]

/-- The state after the accept of an admitted command. -/
def acceptedState (i : Instr) (s : State) : State :=
  firstOf i (takeBuffer i s.presentedData (latchCommand (encode i) s))

/-- An admitted command is accepted (R87). -/
theorem exec_admitted (hr : Ready s) (hb : i.busExists s.cfg = true) (hd : i.directionClear = true) :
    exec i s = .next (acceptedState i s) :=
  exec_accept hr (busInRange_of_busExists hb) (directionBitSet_of_clear hd)

theorem acceptedState_inProgress (hr : Ready s) : InProgress i s (acceptedState i s) := by
  have hg := firstOf_goesOn i (takeBuffer i s.presentedData (latchCommand (encode i) s))
  have hbus : ∀ c, (acceptedState i s).bus c = s.bus c := fun c => by
    rw [acceptedState, bus_congr hg.buses, bus_takeBuffer, bus_latchCommand]
  exact {
    running := ⟨hg.refused.trans ((takeBuffer_refused ..).trans hr.1), hg.busy.trans (takeBuffer_busy ..)⟩
    cmd := hg.cmd.trans (takeBuffer_cmd ..)
    cfg := hg.cfg.trans (takeBuffer_cfg ..)
    done := hg.done.trans (takeBuffer_done ..)
    host := hg.host.trans (takeBuffer_host ..)
    delay := congrArg _ (hbus _)
    otherBuses := fun c _ => hbus c
    emptyBuf := fun hb hl => by rw [acceptedState, hg.buf, takeBuffer_buf, if_pos hb, hl]; rfl }

/-! ## The respond -/

theorem InProgress.exec_respond (h : InProgress i s t) (hi : sites i ≠ []) (hc : t.ctrl = .respond st rd) :
    exec i t = .next (respond (bufferLen i) st rd t) := by
  rw [Machine.exec_respond hi h.running hc, argsOf_len]

theorem bufferLen_of_noBuffer (h : hasBuffer i = false) : bufferLen i = 0 := by
  cases i <;> simp_all [hasBuffer, bufferLen]

/-- The buffer of the completed command (R215): its own, or none. -/
theorem InProgress.doneBuffer (h : InProgress i s t) (hst : st ≠ .illegal) :
    doneBuffer (bufferLen i) st t = if hasBuffer i then t.buf else [] := by
  cases hb : hasBuffer i with
  | false => simp [Machine.doneBuffer, bufferLen_of_noBuffer hb]
  | true =>
    by_cases hl : bufferLen i = 0
    · simp [Machine.doneBuffer, hl, h.emptyBuf hb hl]
    · simp [Machine.doneBuffer, hst, hl]

/-- With its respond the command is done. -/
theorem InProgress.commandDone (h : InProgress i s t) (hst : st ≠ .illegal) :
    CommandDone i st rd s (respond (bufferLen i) st rd t) where
  busy := rfl
  refused := h.running.1
  ctrl := rfl
  cmd := h.cmd
  resp := rfl
  done := by
    simp only [respond, h.cmd, h.done, h.doneBuffer hst]
  host := h.host
  cfg := h.cfg
  delay := h.delay
  otherBuses := h.otherBuses

end

/-! ## WAIT_ACK -/

/-- When wait_ack has returned in state `u`, WAIT_ACK responds what ACKOK says (R105). -/
theorem waitAck_responds {b : BusIx} {timeout : BitVec 16} {s u v : State} {k : Nat}
    (h : InProgress (.waitAck b timeout) s u)
    (hk : execFor (.waitAck b timeout) k v = orFault .noControlPoint (flowOf (.waitAck b timeout) .command u)) :
    execFor (.waitAck b timeout) (k + 1) v =
      .next (respond 0 (waitStatus u.ackOk) 0 (u.goto (.respond (waitStatus u.ackOk) 0))) := by
  have hstep := execFor_one ((h.goto (.respond (waitStatus u.ackOk) 0)).exec_respond nofun rfl)
  exact (execFor_add hk 1).trans hstep

/-- Settles O27: wait_ack returns, and WAIT_ACK responds what it returned. -/
theorem waitAckAlwaysResponds : Obligations.WaitAckAlwaysResponds := by
  intro b timeout s hr hb ⟨_, _, hwidth⟩
  have hin := acceptedState_inProgress (i := .waitAck b timeout) hr
  have haccept := exec_admitted (i := .waitAck b timeout) hr (decide_eq_true hb) rfl
  obtain ⟨k, u, τs, hk, hu, hend⟩ := wait_returns (i := .waitAck b timeout) (site := .command) nofun nofun hin.running rfl
    hwidth
  have huin := hin.of_frame hu
  have hrun := waitAck_responds huin hk
  have hdone := (huin.goto (.respond (waitStatus u.ackOk) 0)).commandDone (st := waitStatus u.ackOk) (rd := 0)
    (by cases u.ackOk <;> decide)
  refine ⟨_, haccept, k + 1, _, τs, hrun, ?_⟩
  rcases hend with hw | hw
  · rw [hw.ackOk] at hdone ⊢
    exact .inl ⟨hdone, hw.ackOk, hw.samples, hw.early, congrArg (_ :: ·) hw.trace⟩
  · rw [hw.ackOk] at hdone ⊢
    exact .inr ⟨hdone, hw.ackOk, hw.idleHigh, hw.samples, hw.last, congrArg (_ :: ·) hw.trace⟩

end Sys2Proof.Machine
end

section
/-! PROOFS. Every admitted transaction comes to its respond with its bus idle-high (O56). -/

namespace Sys2Proof.Machine

/-- From state `t` on command `i`, accepted in state `s`, comes to its respond, OK or FAIL, with its bus idle-high, PHASE IDLE and
no section held (R147, R153). -/
def EndsIdleHigh (i : Instr) (s t : State) : Prop :=
  ∃ k u, execFor i k t = .next u ∧ (CommandDone i .ok 0 s u ∨ CommandDone i .fail 0 s u) ∧
    (u.bus i.bus).idleHigh ∧ u.phase = .idle ∧ u.csHeld = none

/-- When a primitive called from `site` has returned in state `u`, the command goes on to such an end. -/
def GoesOnToEnd (i : Instr) (s : State) (site : Site) (u : State) : Prop :=
  ∃ v, flowOf i site u = some v ∧ EndsIdleHigh i s v

section
variable {i : Instr} {s t u : State} {site : Site} {k : Nat}

theorem InProgress.setPhase (h : InProgress i s t) (p : Phase) : InProgress i s (t.setPhase p) :=
  h.of_goesOn (cs := t.csHeld) (m := t.buf) (.of_writes ..) fun _ => rfl

theorem InProgress.setByteIdx (h : InProgress i s t) (n : BitVec 16) : InProgress i s { t with byteIdx := n } :=
  h.of_goesOn (cs := t.csHeld) (m := t.buf) (.of_writes ..) fun _ => rfl

theorem InProgress.callSend (h : InProgress i s t) (site : Site) (v : Byte) : InProgress i s (callSend site v t) :=
  h.of_goesOn (cs := t.csHeld) (m := t.buf) (.of_writes ..) fun _ => rfl

theorem EndsIdleHigh.of_run (hk : execFor i k t = .next u) (h : EndsIdleHigh i s u) : EndsIdleHigh i s t := by
  obtain ⟨k', v, hk', hv⟩ := h
  exact ⟨k + k', v, (execFor_add hk k').trans hk', hv⟩

theorem EndsIdleHigh.of_step (he : exec i t = .next u) (h : EndsIdleHigh i s u) : EndsIdleHigh i s t :=
  .of_run (execFor_one he) h

theorem EndsIdleHigh.of_return (hk : execFor i k t = orFault .noControlPoint (flowOf i site u))
    (h : GoesOnToEnd i s site u) : EndsIdleHigh i s t := by
  obtain ⟨v, hv, hend⟩ := h
  rw [hv] at hk
  exact .of_run hk hend

/-! ## Leaving the transaction -/

section
variable (hi : Instr.isTransaction i = true)
include hi

/-- CS_EXIT, then the respond (R140). -/
theorem endsIdleHigh_leave (h : InProgress i s t) (hb : (t.bus i.bus).idleHigh) {st : Status} (hst : st = .ok ∨ st = .fail) :
    EndsIdleHigh i s (leave st t) := by
  have hne := sites_ne_nil_of_isTransaction hi
  have hleave : InProgress i s (leave st t) := h.goto (.csExit st)
  have hexit : InProgress i s (csExitStep i.bus st (leave st t)) :=
    hleave.of_goesOn (cs := none) (m := t.buf) (.of_writes ..) fun _ => rfl
  have hstep : exec i (leave st t) = .next (csExitStep i.bus st (leave st t)) := by
    rw [exec_running hne hleave.running, ← argsOf_bus i t.byteIdx]
    rfl
  refine .of_step hstep ⟨1, _, execFor_one (hexit.exec_respond hne rfl), ?_, hb, rfl, rfl⟩
  rcases hst with rfl | rfl
  · exact .inl (hexit.commandDone nofun)
  · exact .inr (hexit.commandDone nofun)

/-- A stop leaves the bus idle-high, whatever called it (R102). -/
theorem endsIdleHigh_stop (h : InProgress i s t) (hs : site ≠ .readData)
    (hflow : ∀ u, InProgress i s u → (u.bus i.bus).idleHigh → GoesOnToEnd i s site u) :
    EndsIdleHigh i s (call site (stopPos .ret) t) := by
  obtain ⟨k, c, hk⟩ := piece_returns (sites_ne_nil_of_isTransaction hi) (h.goto (.call site (stopPos .ret))).running rfl
    fun e => absurd e hs
  refine .of_return hk (hflow _ ((h.goto _).of_frame ((lineEvents_untouched ..).callFrame c)) ?_)
  have hidle := latchesAfter_stopOps (t.bus i.bus)
  rwa [← bus_call site (stopPos .ret), ← lineEvents_bus] at hidle

theorem flowOf_closeStop (u : State) : flowOf i .closeStop u = some (closeOk u) := by
  cases i <;> simp_all [Instr.isTransaction, Instr.address, flowOf, probeFlow, writeFlow, readFlow, readSeqFlow]

theorem flowOf_abortStop (u : State) : flowOf i .abortStop u = some (leave .fail u) := by
  cases i <;> simp_all [Instr.isTransaction, Instr.address, flowOf, probeFlow, writeFlow, readFlow, readSeqFlow]

/-- The closing stop, then OK (R140). -/
theorem endsIdleHigh_closeStop (h : InProgress i s t) : EndsIdleHigh i s (call .closeStop (stopPos .ret) t) :=
  endsIdleHigh_stop hi h nofun fun u hu hb =>
    ⟨closeOk u, flowOf_closeStop hi u, endsIdleHigh_leave hi (hu.setPhase .stopped) hb (.inl rfl)⟩

/-- The stop after a failed wait_ack, then FAIL (R141, R145). -/
theorem endsIdleHigh_abortStop (h : InProgress i s t) : EndsIdleHigh i s (call .abortStop (stopPos .ret) t) :=
  endsIdleHigh_stop hi h nofun fun u hu hb =>
    ⟨leave .fail u, flowOf_abortStop hi u, endsIdleHigh_leave hi hu hb (.inr rfl)⟩

/-- After a failed wait_ack, which has stopped the bus itself (R105, R145). -/
theorem endsIdleHigh_abort (h : InProgress i s t) (hb : (t.bus i.bus).idleHigh) : EndsIdleHigh i s (abort t) := by
  unfold abort
  split
  · exact endsIdleHigh_abortStop hi (h.setPhase .aborted)
  · exact endsIdleHigh_leave hi (h.setPhase .aborted) hb (.inr rfl)

/-! ## The calls of a transaction -/

theorem endsIdleHigh_send (h : InProgress i s t) (hc : t.ctrl = .call site sendPos) (hs : site ≠ .readData)
    (hnext : ∀ u, CallFrame i.bus t u → GoesOnToEnd i s site u) : EndsIdleHigh i s t := by
  obtain ⟨k, u, hk, hu⟩ := send_returns (sites_ne_nil_of_isTransaction hi) h.running hc hs
  exact .of_return hk (hnext u hu)

theorem endsIdleHigh_start (h : InProgress i s t) (hc : t.ctrl = .call site startPos) (hs : site ≠ .readData)
    (hnext : ∀ u, CallFrame i.bus t u → GoesOnToEnd i s site u) : EndsIdleHigh i s t := by
  obtain ⟨k, c, hk⟩ := piece_returns (sites_ne_nil_of_isTransaction hi) h.running hc fun e => absurd e hs
  exact .of_return hk (hnext _ ((lineEvents_untouched ..).callFrame c))

/-- A wait_ack of a transaction: acknowledged, or timed out with the bus idle-high (R105). -/
theorem endsIdleHigh_wait (h : InProgress i s t) (hw : 16 ≤ s.cfg.tickW) (hc : t.ctrl = .call site waitPos)
    (hs : site ≠ .readData)
    (hnext : ∀ u, CallFrame i.bus t u → (u.ackOk = false → (u.bus i.bus).idleHigh) → GoesOnToEnd i s site u) :
    EndsIdleHigh i s t := by
  obtain ⟨k, u, τs, hk, hu, hend⟩ := wait_returns (sites_ne_nil_of_isTransaction hi) hs h.running hc (h.cfg ▸ hw)
  refine .of_return hk (hnext u hu fun hack => ?_)
  rcases hend with hend | hend
  · exact absurd (hend.ackOk.symm.trans hack) nofun
  · exact hend.idleHigh

/-- A wait_ack after which the engine goes on or aborts (R145). -/
theorem endsIdleHigh_waitOrAbort {next : State → State} (h : InProgress i s t) (hw : 16 ≤ s.cfg.tickW)
    (hc : t.ctrl = .call site waitPos) (hs : site ≠ .readData)
    (hflow : ∀ u, flowOf i site u = some (unlessAborted next u))
    (hnext : ∀ u, CallFrame i.bus t u → EndsIdleHigh i s (next u)) : EndsIdleHigh i s t := by
  refine endsIdleHigh_wait hi h hw hc hs fun u hu hidle => ⟨_, hflow u, ?_⟩
  unfold unlessAborted
  split
  · exact hnext u hu
  · rename_i hack
    exact endsIdleHigh_abort hi (h.of_frame hu) (hidle (by simpa using hack))

/-- A byte that is sent and awaited: send_byte, then wait_ack (R103, R105). -/
theorem endsIdleHigh_sendAndWait {waitSite : Site} {next : State → State} {v : Byte} (h : InProgress i s t)
    (hw : 16 ≤ s.cfg.tickW) (hs : site ≠ .readData) (hs' : waitSite ≠ .readData)
    (hsend : ∀ u, flowOf i site u = some (call waitSite waitPos u))
    (hflow : ∀ u, flowOf i waitSite u = some (unlessAborted next u))
    (hnext : ∀ u, InProgress i s u → u.byteIdx = t.byteIdx → EndsIdleHigh i s (next u)) :
    EndsIdleHigh i s (callSend site v t) := by
  refine endsIdleHigh_send hi (h.callSend site v) rfl hs fun u hu => ⟨_, hsend u, ?_⟩
  have hcall := hu.call waitSite waitPos
  refine endsIdleHigh_waitOrAbort hi ((h.callSend site v).of_frame hcall) hw rfl hs' hflow fun u' hu' => ?_
  exact hnext u' (((h.callSend site v).of_frame hcall).of_frame hu') (hu'.byteIdx.trans hcall.byteIdx)

/-- From CS_ENTER to the first address byte (R140, R211). -/
theorem endsIdleHigh_open {v : Byte} (h : InProgress i s t) (hc : t.ctrl = .csEnter)
    (hflow : ∀ u, flowOf i .openStart u = some (sendAddress site v u))
    (hnext : ∀ u, InProgress i s u → EndsIdleHigh i s (callSend site v u)) : EndsIdleHigh i s t := by
  obtain ⟨k, hk⟩ := enter_runs (sites_ne_nil_of_isTransaction hi) h.running hc
  have hopen : InProgress i s
      (call .openStart startPos (State.emit { collaboratorDone t with csHeld := some i.bus } (.csEnter i.bus))) :=
    h.of_goesOn (cs := some i.bus) (m := t.buf) (.of_writes ..) fun _ => rfl
  refine .of_run hk (endsIdleHigh_start hi hopen rfl nofun fun u hu => ⟨_, hflow u, ?_⟩)
  exact hnext _ ((hopen.of_frame hu).setPhase .started)

/-! ## The loops over BYTEIDX -/

theorem exec_bufRd (ht : Running t) (hc : t.ctrl = .bufRd) (hk : t.byteIdx.toNat < bufferLen i) :
    exec i t = .next (callSend .sendData (Memory.read t.buf t.byteIdx.toNat)
      ((t.emit (.bufRd t.byteIdx (Memory.read t.buf t.byteIdx.toNat))).setPhase .dataPhase)) := by
  rw [exec_running (sites_ne_nil_of_isTransaction hi) ht, runBusy, hc]
  simp only [bufRdStep, argsOf_len, if_pos hk, orFault]

theorem exec_bufWr {n : BitVec 16} (ht : Running t) (hc : t.ctrl = .bufWr) (hn : bufferLen i = n.toNat)
    (hk : t.byteIdx.toNat < n.toNat) :
    exec i t = .next (readNext n { State.emit { t with buf := Memory.write t.buf t.byteIdx.toNat t.shift }
      (.bufWr t.byteIdx t.shift) with byteIdx := t.byteIdx + 1 }) := by
  have hlen : (argsOf i t.byteIdx).len = n := BitVec.eq_of_toNat_eq ((argsOf_len ..).trans hn)
  rw [exec_running (sites_ne_nil_of_isTransaction hi) ht, runBusy, hc]
  simp only [bufWrStep, hlen, if_pos hk, orFault]
  rfl

end

theorem toNat_succ {k n : BitVec 16} (h : k.toNat < n.toNat) : (k + 1).toNat = k.toNat + 1 := by
  have hn := n.isLt
  rw [BitVec.toNat_add_of_lt (by simp; omega)]
  rfl

theorem lt_of_le_of_ne_toNat {k n : BitVec 16} (h : k.toNat ≤ n.toNat) (hne : k ≠ n) : k.toNat < n.toNat :=
  lt_of_le_of_ne h fun e => hne (BitVec.eq_of_toNat_eq e)

/-- WRITE's data loop ends (R142): BYTEIDX comes to LEN, or a wait_ack fails. -/
theorem endsIdleHigh_writeNext {b : BusIx} {a8 reg : Byte} {n timeout : BitVec 16} (hw : 16 ≤ s.cfg.tickW) (t : State)
    (h : InProgress (.write b a8 reg n timeout) s t) (hk : t.byteIdx.toNat ≤ n.toNat) :
    EndsIdleHigh (.write b a8 reg n timeout) s (writeNext n t) := by
  unfold writeNext
  split
  · exact endsIdleHigh_closeStop rfl h
  · rename_i hne
    have hlt := lt_of_le_of_ne_toNat hk hne
    have hread : InProgress (.write b a8 reg n timeout) s
        (((t.goto .bufRd).emit (.bufRd t.byteIdx (Memory.read t.buf t.byteIdx.toNat))).setPhase .dataPhase) :=
      h.of_goesOn (cs := t.csHeld) (m := t.buf) (.of_writes ..) fun _ => rfl
    refine .of_step (exec_bufRd rfl (h.goto .bufRd).running rfl hlt) ?_
    refine endsIdleHigh_sendAndWait (waitSite := .waitData) rfl hread hw nofun nofun (fun _ => rfl) (fun _ => rfl)
      fun u hu hidx => ?_
    have hidx' : u.byteIdx = t.byteIdx := hidx
    have hsucc : (u.byteIdx + 1).toNat = t.byteIdx.toNat + 1 := by rw [hidx', toNat_succ hlt]
    have hdec : n.toNat - (u.byteIdx + 1).toNat < n.toNat - t.byteIdx.toNat := by omega
    exact endsIdleHigh_writeNext hw { u with byteIdx := u.byteIdx + 1 } (hu.setByteIdx _) (hsucc.trans_le hlt)
termination_by n.toNat - t.byteIdx.toNat
decreasing_by exact hdec

theorem flowOf_readData (hw : writesBuffer i = true) (u : State) : flowOf i .readData u = some (u.goto .bufWr) := by
  cases i <;> simp_all [writesBuffer, flowOf, readFlow, readSeqFlow]

/-- The data loop of READ and READ_SEQ ends: BYTEIDX comes to LEN (R143, R144). -/
theorem endsIdleHigh_readNext {n : BitVec 16} (hi : writesBuffer i = true) (hn : bufferLen i = n.toNat) (t : State)
    (h : InProgress i s t) (hk : t.byteIdx.toNat ≤ n.toNat) : EndsIdleHigh i s (readNext n t) := by
  have htr := isTransaction_of_mem_sites (readData_mem_sites hi) nofun
  unfold readNext
  split
  · exact endsIdleHigh_closeStop htr h
  · rename_i hne
    have hlt := lt_of_le_of_ne_toNat hk hne
    obtain ⟨k, u, hrun, hu⟩ := read_returns (sites_ne_nil_of_isTransaction htr) (h.goto (.call .readData readPos)).running rfl
    have hin : InProgress i s u := ((h.goto (.call .readData readPos)).setPhase .dataPhase).of_frame hu
    have hidx : u.byteIdx = t.byteIdx := hu.byteIdx
    refine .of_return hrun ⟨_, flowOf_readData hi u, ?_⟩
    refine .of_step (exec_bufWr htr (hin.goto .bufWr).running rfl hn (hidx ▸ hlt)) ?_
    have hnext : InProgress i s { State.emit { u.goto .bufWr with buf := Memory.write u.buf u.byteIdx.toNat u.shift }
        (.bufWr u.byteIdx u.shift) with byteIdx := u.byteIdx + 1 } :=
      hin.of_goesOn (cs := u.csHeld) (m := Memory.write u.buf u.byteIdx.toNat u.shift) (.of_writes ..) (by omega)
    have hsucc : (u.byteIdx + 1).toNat = t.byteIdx.toNat + 1 := by rw [hidx, toNat_succ hlt]
    have hdec : n.toNat - (u.byteIdx + 1).toNat < n.toNat - t.byteIdx.toNat := by omega
    exact endsIdleHigh_readNext hi hn _ hnext (hsucc.trans_le hlt)
termination_by n.toNat - t.byteIdx.toNat
decreasing_by exact hdec

/-! ## The four transactions -/

section
variable {b : BusIx} {a8 reg : Byte} {n timeout : BitVec 16}

theorem probe_ends (hw : 16 ≤ s.cfg.tickW) (h : InProgress (.probe b a8 timeout) s t) (hc : t.ctrl = .csEnter) :
    EndsIdleHigh (.probe b a8 timeout) s t := by
  refine endsIdleHigh_open rfl h hc (fun _ => rfl) fun u hu => ?_
  refine endsIdleHigh_send rfl (hu.callSend .sendAddrW _) rfl nofun fun u' hu' => ⟨_, rfl, ?_⟩
  have hcall := ((hu.callSend .sendAddrW _).of_frame hu').goto (.call .waitAddrW waitPos)
  refine endsIdleHigh_wait rfl hcall hw rfl nofun fun v hv _ => ?_
  have hv' := hcall.of_frame hv
  cases hack : v.ackOk with
  | true => exact ⟨_, by simp only [flowOf, probeFlow, hack, if_true],
      endsIdleHigh_closeStop rfl (hv'.setPhase .addressSent)⟩
  | false =>
    exact ⟨_, by simp only [flowOf, probeFlow, hack, Bool.false_eq_true, if_false],
      endsIdleHigh_abortStop rfl (hv'.setPhase .aborted)⟩

theorem write_ends (hw : 16 ≤ s.cfg.tickW) (h : InProgress (.write b a8 reg n timeout) s t) (hc : t.ctrl = .csEnter) :
    EndsIdleHigh (.write b a8 reg n timeout) s t := by
  refine endsIdleHigh_open rfl h hc (fun _ => rfl) fun u hu => ?_
  refine endsIdleHigh_sendAndWait (waitSite := .waitAddrW) rfl hu hw nofun nofun (fun _ => rfl) (fun _ => rfl)
    fun v hv _ => ?_
  refine endsIdleHigh_sendAndWait (waitSite := .waitReg) rfl (hv.setPhase _) hw nofun nofun (fun _ => rfl) (fun _ => rfl)
    fun x hx _ => ?_
  exact endsIdleHigh_writeNext hw _ ((hx.setPhase _).setByteIdx 0) (Nat.zero_le _)

theorem read_ends (hw : 16 ≤ s.cfg.tickW) (h : InProgress (.read b a8 reg n timeout) s t) (hc : t.ctrl = .csEnter) :
    EndsIdleHigh (.read b a8 reg n timeout) s t := by
  refine endsIdleHigh_open rfl h hc (fun _ => rfl) fun u hu => ?_
  refine endsIdleHigh_sendAndWait (waitSite := .waitAddrW) rfl hu hw nofun nofun (fun _ => rfl) (fun _ => rfl)
    fun v hv _ => ?_
  refine endsIdleHigh_sendAndWait (waitSite := .waitReg) rfl (hv.setPhase _) hw nofun nofun (fun _ => rfl) (fun _ => rfl)
    fun x hx _ => ?_
  have hstart := (hx.setPhase .registerSent).goto (.call .repeatStart startPos)
  refine endsIdleHigh_start rfl hstart rfl nofun fun y hy => ⟨_, rfl, ?_⟩
  refine endsIdleHigh_sendAndWait (waitSite := .waitAddrR) rfl ((hstart.of_frame hy).setPhase _) hw nofun nofun
    (fun _ => rfl) (fun _ => rfl) fun z hz _ => ?_
  exact endsIdleHigh_readNext rfl rfl _ ((hz.setPhase _).setByteIdx 0) (Nat.zero_le _)

theorem readSeq_ends (hw : 16 ≤ s.cfg.tickW) (h : InProgress (.readSeq b a8 n timeout) s t) (hc : t.ctrl = .csEnter) :
    EndsIdleHigh (.readSeq b a8 n timeout) s t := by
  refine endsIdleHigh_open rfl h hc (fun _ => rfl) fun u hu => ?_
  refine endsIdleHigh_sendAndWait (waitSite := .waitAddrR) rfl hu hw nofun nofun (fun _ => rfl) (fun _ => rfl)
    fun v hv _ => ?_
  exact endsIdleHigh_readNext rfl rfl _ ((hv.setPhase _).setByteIdx 0) (Nat.zero_le _)

end

/-- Every transaction ends from its CS_ENTER on (R38, R147). -/
theorem transaction_ends (hi : Instr.isTransaction i = true) (hw : 16 ≤ s.cfg.tickW) (h : InProgress i s t)
    (hc : t.ctrl = .csEnter) : EndsIdleHigh i s t := by
  cases i with
  | probe => exact probe_ends hw h hc
  | write => exact write_ends hw h hc
  | read => exact read_ends hw h hc
  | readSeq => exact readSeq_ends hw h hc
  | _ => cases hi

theorem firstOf_transaction (hi : Instr.isTransaction i = true) (s : State) : firstOf i s = s.goto .csEnter := by
  cases i <;> simp_all [Instr.isTransaction, Instr.address, firstOf]

end

/-- Settles O56: the accept leads to CS_ENTER, from where each transaction comes to its respond. -/
theorem transactionsAlwaysRespond : Obligations.TransactionsAlwaysRespond := by
  intro i s hi hr ⟨_, _, hwidth⟩ hb hd
  refine ⟨acceptedState i s, exec_admitted hr hb hd, ?_⟩
  refine transaction_ends hi hwidth (acceptedState_inProgress hr) ?_
  rw [acceptedState, firstOf_transaction hi, goto_ctrl]

end Sys2Proof.Machine
end

section
/-! PROOFS. The command word and the response word, as bytes, come back whole (O6). -/

namespace Sys2Proof

section
variable {n : Nat} (w : BitVec n)

/-- The last byte of a word, at its place, is all the word holds from there on. -/
theorem topByte_shiftLeft {k : Nat} (h : n ≤ k + 8) : (w.extractLsb' k 8).setWidth n <<< k = w >>> k <<< k := by
  ext j hj
  by_cases hk : j < k
  · simp [hk]
  · have h8 : j - k < 8 := by omega
    simp [hk, h8]

/-- One more byte at its place extends, by that byte, what a word holds from some place on. -/
theorem highBits_or_byte (k : Nat) :
    w >>> (k + 8) <<< (k + 8) ||| (w.extractLsb' k 8).setWidth n <<< k = w >>> k <<< k := by
  ext j hj
  by_cases hk : j < k
  · have hk8 : j < k + 8 := by omega
    simp [hk, hk8]
  by_cases h8 : j < k + 8
  · have hjk : j - k < 8 := by omega
    simp [hk, h8, hjk]
  · have hjk : ¬ j - k < 8 := by omega
    have hadd : k + 8 + (j - (k + 8)) = k + (j - k) := by omega
    simp [hk, h8, hjk, hadd]

/-- The first byte, which stands unshifted, makes the word whole. -/
theorem highBits_or_lowByte : w >>> 8 <<< 8 ||| (w.extractLsb' 0 8).setWidth n = w := by
  simpa using highBits_or_byte w 0

end

/-- The eight bytes of a command word give it back (R57). -/
theorem wordOfBytes_bytesOfWord (w : Word) : wordOfBytes (bytesOfWord w) = some w := by
  rw [bytesOfWord, wordOfBytes, topByte_shiftLeft w (by decide), highBits_or_byte w 48, highBits_or_byte w 40,
    highBits_or_byte w 32, highBits_or_byte w 24, highBits_or_byte w 16, highBits_or_byte w 8, highBits_or_lowByte]

end Sys2Proof

namespace Sys2Proof.Machine

/-- The two bytes of a response word give it back (R57). -/
theorem respOfBytes_bytesOfResp (r : BitVec 16) : respOfBytes (bytesOfResp r) = some r := by
  rw [bytesOfResp, respOfBytes, topByte_shiftLeft r (by decide), highBits_or_lowByte]

/-- Settles O6: each word comes back whole from its bytes, and its byte k is its bits from 8k on by definition. -/
theorem wordBytesGoLeastSignificantFirst : Obligations.WordBytesGoLeastSignificantFirst :=
  ⟨fun w => ⟨wordOfBytes_bytesOfWord w, rfl⟩, fun r => ⟨respOfBytes_bytesOfResp r, rfl⟩⟩

end Sys2Proof.Machine
end

section
/-! PROOFS. The command word: which opcode it selects, what the decoder refuses, that no bit of it is dropped, and the
address bytes and the response word it leads to (O1 to O5, O50, O53). -/

namespace Sys2Proof

/-- Settles O1: a command's operands are read where `layout` put them, and no mask covers a bit its command uses. -/
theorem encodeThenDecodeGivesTheCommand : Obligations.EncodeThenDecodeGivesTheCommand := decode_encode

/-! ## The decoder's answer -/

section
variable {w mask : Word} {op : BitVec 4} {i : Instr}

/-- The opcodes with a mask are the opcodes of commands (R78, R79). -/
theorem fromFields_isSome (w : Word) : (fromFields w).isSome = (maskOf (opField w)).isSome := by
  unfold fromFields maskOf
  split <;> rfl

theorem fromFields_of_mask (hm : maskOf (opField w) = some mask) : ∃ i, fromFields w = some i := by
  rw [← Option.isSome_iff_exists, fromFields_isSome, hm, Option.isSome_some]

theorem opcode_of_fromFields (h : fromFields w = some i) : opcode i = opField w := by
  unfold fromFields at h
  split at h <;> cases h <;> exact BitVec.eq_of_toNat_eq (Eq.symm ‹_›)

/-- Every mask covers OP (R78). -/
theorem opField_mask (h : maskOf op = some mask) : opField mask = 0xF := by
  unfold maskOf at h
  split at h <;> cases h <;> rfl

/-- A word that agrees with an opcode's MATCH under its MASK holds that opcode. -/
theorem opField_of_match (hm : maskOf op = some mask) (hw : w &&& mask = matchOf op) : opField w = op := by
  calc opField w = opField w &&& opField mask := by rw [opField_mask hm]; exact BitVec.and_allOnes.symm
    _ = opField (w &&& mask) := BitVec.extractLsb'_and.symm
    _ = op := by rw [hw, ← layout_eq_matchOf, opField_layout]

theorem decode_of_noMask (h : maskOf (opField w) = none) : decode w = .error .reservedOpcode := by
  simp [decode, h]

theorem decode_eq_ok_iff :
    decode w = .ok i ↔
      ∃ mask, maskOf (opField w) = some mask ∧ fromFields w = some i ∧ w &&& mask = matchOf (opField w) := by
  unfold decode
  cases maskOf (opField w) with
  | none => simp
  | some mask =>
    cases fromFields w with
    | none => simp
    | some j => by_cases hw : w &&& mask = matchOf (opField w) <;> simp [hw]

theorem decode_of_unusedBit (hm : maskOf (opField w) = some mask) (hw : w &&& mask ≠ matchOf (opField w)) :
    decode w = .error .mustBeZero := by
  obtain ⟨i, hi⟩ := fromFields_of_mask hm
  simp [decode, hm, hi, hw]

/-- A word decodes to a command of an opcode exactly when it agrees with the opcode's MATCH under its MASK (R78). -/
theorem selects_iff (hm : maskOf op = some mask) :
    (∃ i, decode w = .ok i ∧ opcode i = op) ↔ w &&& mask = matchOf op := by
  constructor
  · rintro ⟨i, hd, rfl⟩
    obtain ⟨mask', hm', hi, hw⟩ := decode_eq_ok_iff.mp hd
    rw [← opcode_of_fromFields hi] at hm' hw
    rw [hm] at hm'
    cases hm'
    exact hw
  · intro hw
    obtain rfl := opField_of_match hm hw
    obtain ⟨i, hi⟩ := fromFields_of_mask hm
    exact ⟨i, decode_eq_ok_iff.mpr ⟨mask, hm, hi, hw⟩, opcode_of_fromFields hi⟩

end

/-- A table whose rows are opcodes with the model's MATCH and MASK selects as the decoder does, by one row at most. -/
theorem rows_select {table : List (BitVec 4 × Word × Word)}
    (hrows : ∀ row ∈ table, maskOf row.1 = some row.2.2 ∧ matchOf row.1 = row.2.1) (w : Word) :
    (∀ row ∈ table, (∃ i, decode w = .ok i ∧ opcode i = row.1) ↔ w &&& row.2.2 = row.2.1) ∧
    (∀ r1 ∈ table, ∀ r2 ∈ table, w &&& r1.2.2 = r1.2.1 → w &&& r2.2.2 = r2.2.1 → r1 = r2) := by
  constructor
  · intro row hrow
    obtain ⟨hmask, hmatch⟩ := hrows row hrow
    rw [selects_iff hmask, hmatch]
  · intro r1 hr1 r2 hr2 hw1 hw2
    obtain ⟨hmask1, hmatch1⟩ := hrows r1 hr1
    obtain ⟨hmask2, hmatch2⟩ := hrows r2 hr2
    have hop : r1.1 = r2.1 :=
      (opField_of_match hmask1 (hw1.trans hmatch1.symm)).symm.trans (opField_of_match hmask2 (hw2.trans hmatch2.symm))
    have hmask : r1.2.2 = r2.2.2 := Option.some.inj (hmask1.symm.trans ((congrArg maskOf hop).trans hmask2))
    have hmatch : r1.2.1 = r2.2.1 := hmatch1.symm.trans ((congrArg matchOf hop).trans hmatch2)
    exact Prod.ext hop (Prod.ext hmatch hmask)

/-- Settles O3: the table's rows are the model's masks, each of which covers OP. -/
theorem wordSelectsOpcodeByMaskAndMatch : Obligations.WordSelectsOpcodeByMaskAndMatch := by
  refine rows_select ?_
  simp only [List.forall_mem_cons, List.not_mem_nil, false_imp_iff, implies_true, and_true]
  decide

/-- Settles O4: the reserved opcodes have no mask, every other has one and a command. -/
theorem reservedAndUnusedBitsAreRefusedByName : Obligations.ReservedAndUnusedBitsAreRefusedByName := by
  refine fun w => ⟨fun h => decode_of_noMask ?_, fun mask => decode_of_unusedBit⟩
  rcases h with h | h | h <;> rw [h] <;> rfl

/-- Settles O5: each example is evaluated. -/
theorem specExampleWordsDecode : Obligations.SpecExampleWordsDecode := by
  unfold Obligations.SpecExampleWordsDecode
  decide

/-! ## A decodable word is its command's -/

/-- What is left of a word under a laid-out pattern is laid out from what is left of its fields. -/
theorem and_layout (w : Word) (h : BitVec 32) (k : Bool) (r a : Byte) (b o : BitVec 4) :
    w &&& layout h k r a b o =
      layout (delayField w &&& h) (ackField w && k) (regField w &&& r) (a8Field w &&& a) (busField w &&& b)
        (opField w &&& o) := by
  apply BitVec.eq_of_getLsbD_eq
  intro j hj
  rw [BitVec.getLsbD_and, layout_getLsbD _ _ _ _ _ _ _ hj, layout_getLsbD _ _ _ _ _ _ _ hj]
  simp only [delayField, ackField, regField, a8Field, busField, opField, BitVec.getLsbD_and, BitVec.getLsbD_extractLsb']
  split_ifs <;> simp (disch := omega) [decide_eq_true]
  subst j
  rfl

theorem layout_or_matchOf (h : BitVec 32) (k : Bool) (r a : Byte) (b op : BitVec 4) :
    layout h k r a b 0 ||| matchOf op = layout h k r a b op := by
  simp [layout, matchOf]

theorem delayField_and_timeoutMask (w : Word) : delayField w &&& 0xFFFF0000 = timeoutLen (timeoutField w) 0 := by
  rw [← timeoutLen_halves (delayField w &&& 0xFFFF0000), BitVec.extractLsb'_and, BitVec.extractLsb'_and,
    ← timeoutField_eq, show (0xFFFF0000 : BitVec 32).extractLsb' 16 16 = BitVec.allOnes 16 by decide, BitVec.and_allOnes,
    show (0xFFFF0000 : BitVec 32).extractLsb' 0 16 = 0 by decide, BitVec.ofNat_eq_ofNat, BitVec.and_zero]

section
variable {w : Word} {op : BitVec 4} {i : Instr} {h h' : BitVec 32} {k k' : Bool} {r r' a a' : Byte}

/-- A decodable word is laid out from the bits its opcode uses: all that MASK leaves out, and OP (R78, R80). -/
theorem layout_of_usedBits (hd : decode w = .ok i) (ho : opField w = op)
    (hm : maskOf op = some (~~~layout h k r a (BitVec.allOnes 4) 0)) (hh : delayField w &&& h = h')
    (hk : (ackField w && k) = k') (hr : regField w &&& r = r') (ha : a8Field w &&& a = a') :
    layout h' k' r' a' (busField w) op = w := by
  obtain ⟨mask, hmask, -, hw⟩ := decode_eq_ok_iff.mp hd
  rw [ho] at hmask hw
  obtain rfl := Option.some.inj (hmask.symm.trans hm)
  have hused := and_layout w h k r a (BitVec.allOnes 4) 0
  rw [hh, hk, hr, ha, BitVec.and_allOnes, show opField w &&& 0 = 0 from BitVec.and_zero] at hused
  rw [← layout_or_matchOf, ← hused, ← hw, ← BitVec.and_or_distrib_left, BitVec.or_not_self, BitVec.and_allOnes]

/-- The same for a row of R78's table whose mask leaves only BUS free. -/
theorem layout_of_usedBus (hd : decode w = .ok i) (ho : opField w = op)
    (hm : maskOf op = some (~~~layout 0 false 0 0 (BitVec.allOnes 4) 0)) : layout 0 false 0 0 (busField w) op = w :=
  layout_of_usedBits hd ho hm BitVec.and_zero (Bool.and_false _) BitVec.and_zero BitVec.and_zero

end

/-- Settles O2, opcode by opcode: the command's word holds the bits the opcode uses, and MASK has every other bit. -/
theorem decodedWordIsTheCommandsWord : Obligations.DecodedWordIsTheCommandsWord := by
  intro w i hd
  obtain ⟨mask, hm, hf, hw⟩ := decode_eq_ok_iff.mp hd
  have ho : opField w = opcode i := (opcode_of_fromFields hf).symm
  have htl : delayField w &&& BitVec.allOnes 32 = timeoutLen (timeoutField w) (lenField w) :=
    BitVec.and_allOnes.trans (delayField_eq w)
  rw [fromFields, ho] at hf
  cases i with
  | init =>
    rw [ho] at hm hw
    obtain rfl := Option.some.inj hm
    calc encode .init = matchOf 0x1 := layout_eq_matchOf _
      _ = w := hw.symm.trans BitVec.and_allOnes
  | setDelay b d =>
    cases hf
    exact layout_of_usedBits (op := 0x2) (k := false) (r := 0) (a := 0) hd ho (by decide) BitVec.and_allOnes
      (Bool.and_false _) BitVec.and_zero BitVec.and_zero
  | probe b a t =>
    cases hf
    exact layout_of_usedBits (op := 0x3) (k := false) (r := 0) hd ho (by decide) (delayField_and_timeoutMask w)
      (Bool.and_false _) BitVec.and_zero BitVec.and_allOnes
  | write b a r n t =>
    cases hf
    exact layout_of_usedBits (op := 0x4) (k := false) hd ho (by decide) htl (Bool.and_false _) BitVec.and_allOnes
      BitVec.and_allOnes
  | read b a r n t =>
    cases hf
    exact layout_of_usedBits (op := 0x5) (k := false) hd ho (by decide) htl (Bool.and_false _) BitVec.and_allOnes
      BitVec.and_allOnes
  | readSeq b a n t =>
    cases hf
    exact layout_of_usedBits (op := 0x6) (k := false) (r := 0) hd ho (by decide) htl (Bool.and_false _) BitVec.and_zero
      BitVec.and_allOnes
  | start b =>
    cases hf
    exact layout_of_usedBus (op := 0x8) hd ho (by decide)
  | stop b =>
    cases hf
    exact layout_of_usedBus (op := 0x9) hd ho (by decide)
  | sendByte b v =>
    cases hf
    exact layout_of_usedBits (op := 0xA) (h := 0) (k := false) (r := 0) hd ho (by decide) BitVec.and_zero
      (Bool.and_false _) BitVec.and_zero BitVec.and_allOnes
  | readByte b k =>
    cases hf
    exact layout_of_usedBits (op := 0xB) (h := 0) (r := 0) (a := 0) hd ho (by decide) BitVec.and_zero
      (Bool.and_true _) BitVec.and_zero BitVec.and_zero
  | waitAck b t =>
    cases hf
    exact layout_of_usedBits (op := 0xC) (k := false) (r := 0) (a := 0) hd ho (by decide) (delayField_and_timeoutMask w)
      (Bool.and_false _) BitVec.and_zero BitVec.and_zero
  | ack b =>
    cases hf
    exact layout_of_usedBus (op := 0xD) hd ho (by decide)
  | nack b =>
    cases hf
    exact layout_of_usedBus (op := 0xE) hd ho (by decide)

end Sys2Proof

namespace Sys2Proof.Machine

/-! ## The address bytes (R84) -/

/-- An address byte is its 7-bit address and its direction bit. -/
theorem address_append_direction (a8 : Byte) : a8.extractLsb' 1 7 ++ a8.extractLsb' 0 1 = a8 :=
  (BitVec.extractLsb'_append_extractLsb'_eq_extractLsb' rfl).trans BitVec.extractLsb'_eq_self

theorem addrR_eq_or (a8 : Byte) : addrR a8 = a8 ||| 0x01 := by
  have hbit : ∀ d : BitVec 1, d ||| 1#1 = 1#1 := by decide
  calc addrR a8 = (a8.extractLsb' 1 7 ||| 0#7) ++ (a8.extractLsb' 0 1 ||| 1#1) := by rw [BitVec.or_zero, hbit, addrR]
    _ = a8 ||| 0x01 := by rw [← BitVec.or_append, address_append_direction]; rfl

theorem addrW_eq_and (a8 : Byte) : addrW a8 = a8 &&& 0xFE := by
  calc addrW a8 = (a8.extractLsb' 1 7 &&& BitVec.allOnes 7) ++ (a8.extractLsb' 0 1 &&& 0#1) := by
        rw [BitVec.and_allOnes, BitVec.and_zero, addrW]
    _ = a8 &&& 0xFE := by rw [← BitVec.and_append, address_append_direction]; rfl

theorem addrW_of_directionClear {a8 : Byte} (h : a8.getLsbD 0 = false) : addrW a8 = a8 := by
  have hbit : a8.extractLsb' 0 1 = 0#1 := by
    ext j hj
    obtain rfl : j = 0 := by omega
    simpa using h
  rw [addrW, ← hbit, address_append_direction]

/-- Settles O50: an address byte is its 7-bit address followed by the direction bit. -/
theorem addressBytesSetTheDirectionBit : Obligations.AddressBytesSetTheDirectionBit :=
  fun a8 => ⟨addrR_eq_or a8, addrW_eq_and a8, addrW_of_directionClear, BitVec.extractLsb'_append_eq_left,
    BitVec.extractLsb'_append_eq_left⟩

/-! ## The response word (R76) -/

theorem respStatus_respWord (st : Status) (rd : Byte) : respStatus (respWord st rd) = st.code :=
  BitVec.extractLsb'_append_eq_right

theorem respRdata_respWord (st : Status) (rd : Byte) : respRdata (respWord st rd) = rd := by
  rw [respRdata, respWord, BitVec.extractLsb'_append_eq_of_le (by decide)]
  exact BitVec.extractLsb'_append_eq_left

/-- Settles O53: the fields are the parts `respWord` joins; the codes are written in `Status.code`, NONE is 0 at reset. -/
theorem responseWordFields : Obligations.ResponseWordFields := fun st rd =>
  ⟨respStatus_respWord st rd, respRdata_respWord st rd, respWord_reserved st rd, rfl, rfl, rfl, rfl⟩

end Sys2Proof.Machine
end

section
/-! PROOFS. A word that is no command, or whose bus does not exist, is accepted and answered ILLEGAL in the next step
(O9). -/

namespace Sys2Proof.Machine

section
variable {s : State} {w : Word} {i : Instr}

/-- A step on a word that is no command, once no RST is due (R82). -/
theorem step_noCommand (hr : s.refused = false) (hd : s.rstDue = false) (hw : s.currentWord = some w) {e : DecodeError}
    (he : decode w = .error e) : step s = runIllegal w s.hostWaits := by
  simp [step, stepWith, hr, hd, hw, he]

theorem busInRange_eq_busExists (c : Config) (i : Instr) : busInRange c.nBus i = i.busExists c := by
  cases i <;> simp [busInRange, Instr.busExists]

/-- The accept of a command whose bus does not exist (R81, R82). -/
theorem exec_of_noBus (hr : Ready s) (hb : i.busExists s.cfg = false) :
    exec i s = .next ((latchCommand (encode i) s).goto (.respond .illegal 0)) := by
  have hrange : busInRange s.cfg.nBus i = false := (busInRange_eq_busExists ..).trans hb
  rw [exec_ready i hr, accept, hrange]
  rfl

/-- A word that is no command, or whose bus does not exist, is accepted with ILLEGAL to respond (R82, R195). -/
theorem step_acceptsIllegal (hr : Ready s) (hp : s.presented = some w)
    (hill : ∀ i, decode w = .ok i → i.busExists s.cfg = false) :
    step s = .next ((latchCommand w s).goto (.respond .illegal 0)) := by
  have hd := rstDue_of_presented hp
  have hw : s.currentWord = some w := (currentWord_ready hr.2).trans hp
  cases hdec : decode w with
  | ok i =>
    rw [step_command hr.1 hd hw hdec, hostWaits_of_presented hp, exec_of_noBus hr (hill i hdec),
      decodedWordIsTheCommandsWord w i hdec]
  | error e =>
    rw [step_noCommand hr.1 hd hw hdec, hostWaits_of_presented hp]
    simp [runIllegal, hr]

/-- A command about to respond ILLEGAL does so, with no assignment of its own (R82). -/
theorem exec_respondsIllegal (hr : Running s) {rd : Byte} (hc : s.ctrl = .respond .illegal rd) :
    ∃ n, exec i s = .next (respond n .illegal rd s) := by
  by_cases hi : sites i = []
  · refine ⟨0, ?_⟩
    cases i with
    | init => simp [exec, execInit, runConfigure, hr, hc]
    | setDelay => simp [exec, execSetDelay, runConfigure, hr, hc]
    | _ => cases hi
  · exact ⟨_, exec_respond hi hr hc⟩

/-- Whatever the word in CMD is, a step about to respond ILLEGAL does so when no RST is due (R82). -/
theorem step_respondsIllegal (hr : Running s) (hd : s.rstDue = false) {rd : Byte} (hc : s.ctrl = .respond .illegal rd) :
    ∃ n, step s = .next (respond n .illegal rd s.hostWaits) := by
  have hw := currentWord_running hr.2
  cases hdec : decode s.cmd with
  | ok i =>
    rw [step_command hr.1 hd hw hdec]
    exact exec_respondsIllegal (s := s.hostWaits) hr hc
  | error e =>
    rw [step_noCommand hr.1 hd hw hdec]
    exact ⟨0, by simp [runIllegal, hr, hc]⟩

end

/-- Settles O9: the accept writes CMD and BUSY, the respond RESP and BUSY. -/
theorem illegalWordRespondsIllegal : Obligations.IllegalWordRespondsIllegal := by
  intro s w hr hp hill
  refine ⟨_, step_acceptsIllegal hr hp hill, rfl, rfl, hr.1, rfl, rfl, rfl, rfl, rfl, rfl, rfl, rfl, rfl, rfl, rfl, rfl,
    rfl, fun hd => ?_⟩
  have hrun : Running ((latchCommand w s).goto (.respond .illegal 0)) := ⟨hr.1, rfl⟩
  obtain ⟨n, hstep⟩ := step_respondsIllegal hrun hd rfl
  exact ⟨_, hstep, rfl, rfl, rfl, rfl, hr.1, rfl, rfl, rfl, rfl, rfl, rfl, rfl, rfl, rfl, rfl, rfl⟩

end Sys2Proof.Machine
end

section
/-! PROOFS. The line invariant: every kind of step keeps it (O41). -/

namespace Sys2Proof.Machine

/-! ## The lines at a position inside a primitive -/

/-- What the line invariant says of a bus in state `x` at position `p` of the primitive called from `site`. -/
structure LinesFit (site : Site) (p : Pos) (x : Bus) : Prop where
  straight : p.straight = true
  fits : site.fits p = true
  input : p.input = true → x.sdaDir = some .inp
  stops : stopsIdleHigh site p x

theorem linesOk_call_iff {b : BusIx} {site : Site} {p : Pos} {s : State} :
    linesOk b (call site p s) ↔ LinesFit site p (s.bus b) :=
  ⟨fun ⟨hstraight, hfits, hinput, hstops⟩ => ⟨hstraight, hfits, hinput, hstops⟩,
   fun h => ⟨h.straight, h.fits, h.input, h.stops⟩⟩

section
variable {site : Site} {op : LineOp} {rest : List LineOp} {tail : Tail} {x : Bus}

/-- A primitive begins with its data line not yet input, and only a stop has to leave the bus idle-high. -/
theorem LinesFit.of_opening (x : Bus)
    (hp : ((Pos.seg op rest tail).straight && site.fits (.seg op rest tail) && !(Pos.seg op rest tail).input) = true)
    (hs : ¬ (tail = .timedOut ∨ site = .closeStop ∨ site = .abortStop)) : LinesFit site (.seg op rest tail) x := by
  simp only [Bool.and_eq_true, Bool.not_eq_true'] at hp
  obtain ⟨⟨hstraight, hfits⟩, hinput⟩ := hp
  exact ⟨hstraight, hfits, fun h => absurd (hinput.symm.trans h) nofun, fun h => absurd h hs⟩

/-- A stop leaves the bus idle-high from whatever its lines were (R102). -/
theorem LinesFit.of_stop (x : Bus) (hs : site.fits (stopPos tail) = true) (ht : tail = .ret ∨ tail = .timedOut) :
    LinesFit site (stopPos tail) x := by
  rcases ht with rfl | rfl <;> exact ⟨rfl, hs, nofun, fun _ => latchesAfter_stopOps x⟩

/-- A piece that leads to a SAMPLE has the data line input after each of its events, the opening of a read_byte after its last
(R104, R105, R239). -/
theorem LinesFit.input_after (h : LinesFit site (.seg op rest tail) x)
    (ht : tail = .waitBegin ∨ tail = .readSample ∨ tail = .readBit ∨ tail = .readLoop ∧ rest = []) :
    (latchAfter op x).sdaDir = some .inp := by
  obtain ⟨hstraight, -, hinput, -⟩ := h
  rcases ht with rfl | rfl | rfl | ⟨rfl, rfl⟩
  · simp only [Pos.straight, Bool.and_eq_true, Bool.or_eq_true, beq_iff_eq] at hstraight
    obtain ⟨(rfl | rfl) | rfl, -⟩ := hstraight
    · rfl
    · exact hinput rfl
    · exact hinput rfl
  · have hin := hinput rfl
    simp only [Pos.straight, List.all_cons, Bool.and_eq_true, Bool.or_eq_true, beq_iff_eq] at hstraight
    rcases hstraight with ⟨(rfl | rfl) | rfl, -⟩ <;> exact hin
  · simp only [Pos.straight, Bool.and_eq_true, decide_eq_true_eq] at hstraight
    obtain ⟨rfl, -⟩ := hstraight
    exact hinput rfl
  · obtain rfl : op = .dir .inp := by simpa [Pos.straight, Pos.opensRead] using hstraight
    rfl

/-- From one event of a piece to the next. -/
theorem LinesFit.next_event {op' : LineOp} (h : LinesFit site (.seg op (op' :: rest) tail) x) :
    LinesFit site (.seg op' rest tail) (latchAfter op x) where
  straight := by
    have hstraight := h.straight
    cases tail
    case waitBegin =>
      simp only [Pos.straight, List.all_cons, Bool.and_eq_true, Bool.or_eq_true, beq_iff_eq] at hstraight ⊢
      obtain ⟨-, hop', hrest⟩ := hstraight
      exact ⟨hop'.imp_left .inr, hrest⟩
    all_goals simp_all [Pos.straight, Pos.opensRead]
  fits := by
    have hfits := h.fits
    cases site <;> exact hfits
  input hin := by
    refine h.input_after ?_
    cases tail <;> simp_all [Pos.input]
  stops := h.stops

/-- The positions of wait_ack's polling are at home at the same places: at all but a stop's (R105). -/
theorem Site.fits_polling (hp : site.fits .poll = true) :
    site.fits .tickT0 = true ∧ site.fits .check = true ∧ site.fits (.seg (.scl false) [] .acked) = true ∧
      site.fits (stopPos .timedOut) = true := by
  cases site <;> simp_all [Site.fits, stopPos]

theorem Site.fits_poll {p : Pos} (hp : site.fits p = true)
    (h : p = .tickT0 ∨ p = .check ∨ ∃ op, p = .seg op [] .waitBegin) : site.fits .poll = true := by
  rcases h with rfl | rfl | ⟨op, rfl⟩ <;> cases site <;> simp_all [Site.fits]

/-- Where a byte is sent or received is no place of a wait_ack or of a stop. -/
theorem Site.fits_all {p : Pos} (hp : site.fits p = true)
    (h : p = .sample ∨ ∃ op t, p = .seg op [] t ∧
      (t = .sendLoop ∨ t = .sendBit ∨ t = .readLoop ∨ t = .readSample ∨ t = .readBit)) (q : Pos) : site.fits q = true := by
  rcases h with rfl | ⟨op, t, rfl, rfl | rfl | rfl | rfl | rfl⟩ <;> cases site <;> simp_all [Site.fits]

/-- At a place that is no stop's the positions of a stop are the only ones with a claim on the bus's last state. -/
theorem LinesFit.of_fits {q : Pos} (hq : q.straight = true) (hfits : site.fits q = true)
    (hpoll : site.fits .poll = true) (ht : ∀ op rest, q ≠ .seg op rest .timedOut)
    (hin : q.input = true → x.sdaDir = some .inp) : LinesFit site q x := by
  refine ⟨hq, hfits, hin, ?_⟩
  cases q with
  | seg op rest t =>
    rintro (rfl | rfl | rfl)
    · exact absurd rfl (ht op rest)
    · cases hpoll
    · cases hpoll
  | _ => trivial

end

/-! ## A step inside a primitive -/

section
variable {a : CallArgs} {site : Site} {op : LineOp} {rest : List LineOp} {t : Tail} {s u : State} {p q : Pos} {x : Bus}

theorem afterSeg_buses (a : CallArgs) (t : Tail) (s : State) : (afterSeg a t s).1.buses = s.buses := by
  cases t
  case sendBit => simp only [afterSeg]; split <;> rfl
  case readBit => simp only [afterSeg]; split <;> rfl
  all_goals rfl

/-- The position after the last event of a piece that does not return. -/
theorem afterSeg_some (h : afterSeg a t s = (u, some q)) :
    ((t = .sendLoop ∨ t = .sendBit) ∧ ∃ v, q = sendBitPos v) ∨ ((t = .readLoop ∨ t = .readBit) ∧ q = readBitPos) ∨
    (t = .readSample ∧ q = .sample) ∨ (t = .readBit ∧ ∃ v, q = pulsePos v) ∨ (t = .waitBegin ∧ q = .tickT0) := by
  cases t <;> simp only [afterSeg] at h <;> (try split at h) <;> cases h
  case sendLoop => exact .inl ⟨.inl rfl, _, rfl⟩
  case sendBit => exact .inl ⟨.inr rfl, _, rfl⟩
  case readLoop => exact .inr (.inl ⟨.inl rfl, rfl⟩)
  case readSample => exact .inr (.inr (.inl ⟨rfl, rfl⟩))
  case readBit.isTrue =>
    refine .inr (.inr (.inr (.inl ⟨rfl, !a.sendAck, ?_⟩)))
    cases a.sendAck <;> rfl
  case readBit.isFalse => exact .inr (.inl ⟨.inr rfl, rfl⟩)
  case waitBegin => exact .inr (.inr (.inr (.inr ⟨rfl, rfl⟩)))

/-- How a primitive returns after the last event of a piece. -/
theorem afterSeg_none (h : afterSeg a t s = (u, none)) :
    t = .ret ∨ t = .sendBit ∨ (t = .acked ∧ u.ackOk = true) ∨ t = .timedOut := by
  cases t <;> simp only [afterSeg] at h <;> (try split at h) <;> cases h
  case ret => exact .inl rfl
  case sendBit => exact .inr (.inl rfl)
  case acked => exact .inr (.inr (.inl ⟨rfl, rfl⟩))
  case timedOut => exact .inr (.inr (.inr rfl))

/-- From the last event of a piece to what stands after it. -/
theorem LinesFit.after_piece (h : LinesFit site (.seg op [] t) x) (hq : afterSeg a t s = (u, some q)) :
    LinesFit site q (latchAfter op x) := by
  rcases afterSeg_some hq with ⟨ht, v, rfl⟩ | ⟨ht, rfl⟩ | ⟨rfl, rfl⟩ | ⟨rfl, v, rfl⟩ | ⟨rfl, rfl⟩
  · have hall := Site.fits_all h.fits (.inr ⟨_, _, rfl, by tauto⟩)
    exact .of_fits rfl (hall _) (hall _) nofun nofun
  · have hall := Site.fits_all h.fits (.inr ⟨_, _, rfl, by tauto⟩)
    exact .of_fits rfl (hall _) (hall _) nofun fun _ => h.input_after (by tauto)
  · have hall := Site.fits_all h.fits (.inr ⟨_, _, rfl, by tauto⟩)
    exact .of_fits rfl (hall _) (hall _) nofun fun _ => h.input_after (by tauto)
  · have hall := Site.fits_all h.fits (.inr ⟨_, _, rfl, by tauto⟩)
    exact .of_fits rfl (hall _) (hall _) nofun nofun
  · have hpoll := Site.fits_poll h.fits (.inr (.inr ⟨_, rfl⟩))
    exact ⟨rfl, (Site.fits_polling hpoll).1, fun _ => h.input_after (by tauto), trivial⟩

/-- A piece's event changes the bus's latches as R24 says, whatever is done after it. -/
theorem segStep_bus (a : CallArgs) (op : LineOp) (rest : List LineOp) (t : Tail) (s : State) :
    (segStep a op rest t s).1.bus a.bus = latchAfter op (s.bus a.bus) := by
  cases rest with
  | nil => exact (bus_congr (afterSeg_buses ..) _).trans (lineEvent_bus ..)
  | cons op' rest' => exact lineEvent_bus ..

theorem LinesFit.segStep (h : LinesFit site (.seg op rest t) (s.bus a.bus))
    (hq : segStep a op rest t s = (u, some q)) : LinesFit site q (u.bus a.bus) := by
  have hbus := segStep_bus a op rest t s
  rw [hq] at hbus
  rw [hbus]
  cases rest with
  | nil => exact h.after_piece hq
  | cons op' rest' =>
    cases hq
    exact h.next_event

/-- The steps that take an answer touch no line; where they lead (R104, R105). -/
theorem primStep_answer (h : primStep a p s = (u, some q)) (hp : ∀ op rest t, p ≠ .seg op rest t) :
    u.buses = s.buses ∧
      ((p = .sample ∧ q = .seg .hold [] .readBit) ∨ (p = .tickT0 ∧ q = .poll) ∨
       (p = .poll ∧ (q = .seg (.scl false) [] .acked ∨ q = .check)) ∨
       (p = .check ∧ (q = stopPos .timedOut ∨ q = .poll))) := by
  cases p with
  | seg op rest t => exact absurd rfl (hp op rest t)
  | sample => exact (Prod.mk.inj h).imp (by rintro rfl; rfl) fun hq => .inl ⟨rfl, (Option.some.inj hq).symm⟩
  | tickT0 => exact (Prod.mk.inj h).imp (by rintro rfl; rfl) fun hq => .inr (.inl ⟨rfl, (Option.some.inj hq).symm⟩)
  | poll =>
    refine (Prod.mk.inj h).imp (by rintro rfl; rfl) fun hq => .inr (.inr (.inl ⟨rfl, ?_⟩))
    exact Option.some.inj hq ▸ ite_eq_or_eq ..
  | check =>
    refine (Prod.mk.inj h).imp (by rintro rfl; rfl) fun hq => .inr (.inr (.inr ⟨rfl, ?_⟩))
    exact Option.some.inj hq ▸ ite_eq_or_eq ..

theorem LinesFit.after_answer (h : LinesFit site p (s.bus a.bus)) (hp : ∀ op rest t, p ≠ .seg op rest t)
    (hq : Machine.primStep a p s = (u, some q)) : LinesFit site q (u.bus a.bus) := by
  obtain ⟨hbuses, hcases⟩ := primStep_answer hq hp
  rw [bus_congr hbuses]
  have hin := h.input
  rcases hcases with ⟨rfl, rfl⟩ | ⟨rfl, rfl⟩ | ⟨rfl, hnext⟩ | ⟨rfl, hnext⟩
  · have hall := Site.fits_all h.fits (.inl rfl)
    exact .of_fits rfl (hall _) (hall _) nofun fun _ => hin rfl
  · exact ⟨rfl, Site.fits_poll h.fits (.inl rfl), fun _ => hin rfl, trivial⟩
  · obtain ⟨-, hcheck, hacked, -⟩ := Site.fits_polling h.fits
    rcases hnext with rfl | rfl
    · exact .of_fits rfl hacked h.fits nofun nofun
    · exact ⟨rfl, hcheck, fun _ => hin rfl, trivial⟩
  · have hpoll := Site.fits_poll h.fits (.inr (.inl rfl))
    obtain ⟨-, -, -, hstop⟩ := Site.fits_polling hpoll
    rcases hnext with rfl | rfl
    · exact .of_stop _ hstop (.inr rfl)
    · exact ⟨rfl, hpoll, fun _ => hin rfl, trivial⟩

/-- A step inside a primitive that does not return keeps what the line invariant says (R239, R102). -/
theorem LinesFit.primStep (h : LinesFit site p (s.bus a.bus)) (hq : primStep a p s = (u, some q)) :
    LinesFit site q (u.bus a.bus) := by
  cases p with
  | seg op rest t =>
    cases op with
    | hold =>
      simp only [Machine.primStep] at hq
      split at hq
      · rename_i v hw
        cases hq
        obtain ⟨n, ws, -, rfl⟩ := collaboratorWait_some (holdWait_some hw).2
        exact h
      · exact LinesFit.segStep (s := collaboratorDone s) h hq
    | _ => exact h.segStep hq
  | _ => exact h.after_answer nofun hq

/-! ## After a primitive returns -/

/-- What the line invariant says when the primitive called from `site` has returned with its bus in state `x`: a stop leaves it
idle-high, and so does a wait_ack that failed (R102, R105). -/
structure Returned (site : Site) (ackOk : Bool) (x : Bus) : Prop where
  stopped : site = .closeStop ∨ site = .abortStop → x.idleHigh
  failed : site = .waitAddrW ∨ site = .waitReg ∨ site = .waitAddrR ∨ site = .waitData → ackOk = false → x.idleHigh

theorem segStep_returns (h : segStep a op rest t s = (u, none)) :
    rest = [] ∧ u.bus a.bus = latchAfter op (s.bus a.bus) ∧
      (t = .ret ∨ t = .sendBit ∨ (t = .acked ∧ u.ackOk = true) ∨ t = .timedOut) := by
  have hbus := segStep_bus a op rest t s
  rw [h] at hbus
  cases rest with
  | nil => exact ⟨rfl, hbus, afterSeg_none h⟩
  | cons op' rest' => cases h

/-- A primitive returns with an event, the last of a piece. -/
theorem primStep_returns (h : Machine.primStep a p s = (u, none)) :
    ∃ op t, p = .seg op [] t ∧ u.bus a.bus = latchAfter op (s.bus a.bus) ∧
      (t = .ret ∨ t = .sendBit ∨ (t = .acked ∧ u.ackOk = true) ∨ t = .timedOut) := by
  cases p with
  | seg op rest t =>
    cases op with
    | hold =>
      simp only [Machine.primStep] at h
      split at h
      · cases h
      · obtain ⟨rfl, hbus, ht⟩ := segStep_returns h
        exact ⟨.hold, t, rfl, hbus, ht⟩
    | _ =>
      obtain ⟨rfl, hbus, ht⟩ := segStep_returns h
      exact ⟨_, t, rfl, hbus, ht⟩
  | _ => cases h

theorem LinesFit.returned (h : LinesFit site p (s.bus a.bus)) (hq : Machine.primStep a p s = (u, none)) :
    Returned site u.ackOk (u.bus a.bus) := by
  obtain ⟨op, t, rfl, hbus, ht⟩ := primStep_returns hq
  obtain ⟨-, hfits, -, hstops⟩ := h
  rw [hbus]
  refine ⟨fun hsite => hstops (.inr hsite), fun hsite hack => hstops (.inl ?_)⟩
  rcases ht with rfl | rfl | ⟨rfl, hok⟩ | rfl
  · rcases hsite with rfl | rfl | rfl | rfl <;> cases hfits
  · rcases hsite with rfl | rfl | rfl | rfl <;> cases hfits
  · exact absurd (hok.symm.trans hack) nofun
  · rfl

end

section
variable {b : BusIx} {site : Site} {s t : State} {a8 reg : Byte} {n : BitVec 16}

/-- A primitive that is no stop is called with the lines in any state. -/
theorem linesOk_call {op : LineOp} {rest : List LineOp} {tail : Tail} (b : BusIx) (s : State)
    (hp : ((Pos.seg op rest tail).straight && site.fits (.seg op rest tail) && !(Pos.seg op rest tail).input) = true)
    (hs : ¬ (tail = .timedOut ∨ site = .closeStop ∨ site = .abortStop)) :
    linesOk b (call site (.seg op rest tail) s) :=
  linesOk_call_iff.mpr (.of_opening _ hp hs)

/-- A stop is called with the lines in any state (R102). -/
theorem linesOk_callStop (b : BusIx) (s : State) (hs : site = .closeStop ∨ site = .abortStop) :
    linesOk b (call site (stopPos .ret) s) :=
  linesOk_call_iff.mpr (.of_stop _ (by rcases hs with rfl | rfl <;> rfl) (.inl rfl))

theorem linesOk_abort (h : (s.bus b).idleHigh) : linesOk b (abort s) := by
  unfold abort
  split
  · exact linesOk_callStop b _ (.inr rfl)
  · exact h

theorem Returned.unlessAborted {next : State → State} (h : Returned site s.ackOk (s.bus b))
    (hs : site = .waitAddrW ∨ site = .waitReg ∨ site = .waitAddrR ∨ site = .waitData) (hn : linesOk b (next s)) :
    linesOk b (unlessAborted next s) := by
  unfold Machine.unlessAborted
  split
  · exact hn
  · rename_i hack
    exact linesOk_abort (h.failed hs (by simpa using hack))

theorem linesOk_writeNext (b : BusIx) (n : BitVec 16) (s : State) : linesOk b (writeNext n s) := by
  unfold writeNext
  split
  · exact linesOk_callStop b s (.inl rfl)
  · trivial

theorem linesOk_readNext (b : BusIx) (n : BitVec 16) (s : State) : linesOk b (readNext n s) := by
  unfold readNext
  split
  · exact linesOk_callStop b s (.inl rfl)
  · exact linesOk_call b _ rfl (by decide)

theorem probeFlow_linesOk (h : Returned site s.ackOk (s.bus b)) (hf : probeFlow a8 site s = some t) : linesOk b t := by
  cases site
  case waitAddrW =>
    simp only [probeFlow] at hf
    split at hf <;> cases hf
    · exact linesOk_callStop b _ (.inl rfl)
    · exact linesOk_callStop b _ (.inr rfl)
  all_goals cases hf
  case openStart => exact linesOk_call b _ rfl (by decide)
  case sendAddrW => exact linesOk_call b _ rfl (by decide)
  case closeStop => exact h.stopped (.inl rfl)
  case abortStop => exact h.stopped (.inr rfl)

theorem writeFlow_linesOk (h : Returned site s.ackOk (s.bus b)) (hf : writeFlow a8 reg n site s = some t) :
    linesOk b t := by
  cases site <;> cases hf
  case waitAddrW => exact h.unlessAborted (by decide) (linesOk_call b _ rfl (by decide))
  case waitReg => exact h.unlessAborted (by decide) (linesOk_writeNext ..)
  case waitData => exact h.unlessAborted (by decide) (linesOk_writeNext ..)
  case closeStop => exact h.stopped (.inl rfl)
  case abortStop => exact h.stopped (.inr rfl)
  all_goals exact linesOk_call b _ rfl (by decide)

theorem readFlow_linesOk (h : Returned site s.ackOk (s.bus b)) (hf : readFlow a8 reg n site s = some t) :
    linesOk b t := by
  cases site <;> cases hf
  case waitAddrW => exact h.unlessAborted (by decide) (linesOk_call b _ rfl (by decide))
  case waitReg => exact h.unlessAborted (by decide) (linesOk_call b _ rfl (by decide))
  case waitAddrR => exact h.unlessAborted (by decide) (linesOk_readNext ..)
  case readData => trivial
  case closeStop => exact h.stopped (.inl rfl)
  case abortStop => exact h.stopped (.inr rfl)
  all_goals exact linesOk_call b _ rfl (by decide)

theorem readSeqFlow_linesOk (h : Returned site s.ackOk (s.bus b)) (hf : readSeqFlow a8 n site s = some t) :
    linesOk b t := by
  cases site <;> cases hf
  case waitAddrR => exact h.unlessAborted (by decide) (linesOk_readNext ..)
  case readData => trivial
  case closeStop => exact h.stopped (.inl rfl)
  case abortStop => exact h.stopped (.inr rfl)
  all_goals exact linesOk_call b _ rfl (by decide)

theorem flowOf_linesOk {i : Instr} (h : Returned site s.ackOk (s.bus b)) (hf : flowOf i site s = some t) :
    linesOk b t := by
  cases i with
  | probe => exact probeFlow_linesOk h hf
  | write => exact writeFlow_linesOk h hf
  | read => exact readFlow_linesOk h hf
  | readSeq => exact readSeqFlow_linesOk h hf
  | _ =>
    obtain ⟨-, st, rd, rfl, -⟩ := primitiveFlow_answer rfl hf
    trivial

/-! ## A step of a running command -/

theorem callStep_linesOk {a : CallArgs} {i : Instr} {p : Pos} (h : LinesFit site p (s.bus a.bus))
    (ht : callStep a (flowOf i) site p s = some t) : linesOk a.bus t := by
  have hinside : ∀ u : State, (phaseInside site u).bus a.bus = u.bus a.bus := fun u =>
    bus_congr (phaseInside_goesOn site u).buses _
  unfold callStep at ht
  split at ht
  · rename_i hu
    cases ht
    rw [linesOk_call_iff, hinside]
    exact h.primStep hu
  · rename_i u hu
    refine flowOf_linesOk ?_ ht
    have hack : (phaseInside site u).ackOk = u.ackOk := by cases site <;> rfl
    rw [hinside, hack]
    exact h.returned hu

theorem csEnterStep_linesOk (hc : s.ctrl = .csEnter) : linesOk b (csEnterStep b s) := by
  unfold csEnterStep
  split
  · rename_i u hu
    obtain ⟨n, ws, -, rfl⟩ := collaboratorWait_some hu
    unfold linesOk
    rw [hc]
    trivial
  · exact linesOk_call b _ rfl (by decide)

theorem bufRdStep_linesOk (h : bufRdStep n s = some t) : linesOk b t := by
  unfold bufRdStep at h
  split at h <;> cases h
  exact linesOk_call b _ rfl (by decide)

theorem bufWrStep_linesOk (h : bufWrStep n s = some t) : linesOk b t := by
  unfold bufWrStep at h
  split at h <;> cases h
  exact linesOk_readNext ..

/-- What an event of a running command does to the lines of its bus (R147, R239). -/
theorem exec_running_linesOk {i : Instr} (hi : sites i ≠ []) (hr : Running s) (h : linesOk i.bus s)
    (ht : exec i s = .next t) : t.busy = false ∨ linesOk i.bus t := by
  rw [exec_running hi hr] at ht
  rw [← argsOf_bus i s.byteIdx] at h ⊢
  rcases runBusy_next ht with ⟨hc, rfl⟩ | ⟨site, p, hc, ht⟩ | ⟨-, ht⟩ | ⟨-, ht⟩ | ⟨st, -, rfl⟩ | ⟨st, rd, -, rfl⟩
  · exact .inr (csEnterStep_linesOk hc)
  · unfold linesOk at h
    rw [hc] at h
    obtain ⟨hstraight, hfits, hinput, hstops⟩ := h
    exact .inr (callStep_linesOk ⟨hstraight, hfits, hinput, hstops⟩ ht)
  · exact .inr (bufRdStep_linesOk ht)
  · exact .inr (bufWrStep_linesOk ht)
  · exact .inr trivial
  · exact .inl rfl

/-! ## A step of any kind -/

/-- What a command reaches in its accept step sets no condition on the lines. -/
theorem firstOf_linesOk (b : BusIx) (i : Instr) (s : State) : linesOk b (firstOf i s) := by
  cases i with
  | init => trivial
  | setDelay => trivial
  | probe => trivial
  | write => trivial
  | read => trivial
  | readSeq => trivial
  | _ => exact linesOk_call b _ rfl (by decide)

theorem LineInv.of_notBusy (h : t.busy = false) : LineInv t := fun hr => absurd (hr.2.symm.trans h) nofun

theorem LineInv.after_accept (i : Instr) (s : State) : LineInv (accept i (firstOf i) s) := by
  intro hr j _
  rcases accept_cases i (firstOf i) s with ⟨-, heq⟩ | ⟨-, -, heq⟩ | ⟨-, -, heq⟩ <;> rw [heq] at hr ⊢
  · trivial
  · exact absurd hr.1 nofun
  · exact firstOf_linesOk ..

theorem LineInv.after_exec {i : Instr} (h : LineInv s) (hr : s.refused = false)
    (hd : s.busy = true → decode s.cmd = .ok i) (he : exec i s = .next t) : LineInv t := by
  cases hb : s.busy with
  | false =>
    rw [exec_ready i ⟨hr, hb⟩] at he
    cases he
    exact .after_accept i s
  | true =>
    by_cases hi : sites i = []
    · obtain ⟨st, rd, v, -, rfl⟩ := exec_configure_respond hi ⟨hr, hb⟩ he
      exact .of_notBusy rfl
    · have hcmd := (exec_running_host ⟨hr, hb⟩ he).2
      rcases exec_running_linesOk hi ⟨hr, hb⟩ (h ⟨hr, hb⟩ i (hd hb)) he with hnot | hok
      · exact .of_notBusy hnot
      · intro _ j hj
        rw [hcmd, hd hb] at hj
        cases hj
        exact hok

theorem LineInv.after_runIllegal {w : Word} (ht : runIllegal w s = .next t) : LineInv t := by
  obtain ⟨-, ⟨-, rfl⟩ | ⟨-, st, rd, -, rfl⟩⟩ := runIllegal_next ht
  · exact fun _ _ _ => trivial
  · exact .of_notBusy rfl

end

/-- Settles O41, by the kinds of step: RST, nothing, a step of the current command, of a word that is no command. -/
theorem stepKeepsTheLineInvariant : Obligations.StepKeepsTheLineInvariant := by
  intro s t h hstep
  obtain ⟨hr, ⟨-, rfl⟩ | ⟨-, -, rfl⟩ | ⟨-, w, i, hw, hi, he⟩ | ⟨-, w, e, -, -, ht⟩⟩ := stepWith_next hstep
  · exact .of_notBusy (rst_clears s).1
  · exact h
  · exact LineInv.after_exec (s := s.hostWaits) h hr (fun hb => (currentWord_of_busy hw hb).symm ▸ hi) he
  · exact .after_runIllegal ht

end Sys2Proof.Machine
end

section
/-! PROOFS. One step of a running command inside a primitive: the frame of a primitive command (O47), and one poll of any
wait_ack (O26). -/

namespace Sys2Proof.Machine

section
variable {i : Instr} {s t : State}

/-! ## A primitive command -/

theorem sites_ne_nil_of_primitive (hi : sites i = [.command]) : sites i ≠ [] := by simp [hi]

theorem isTransaction_of_primitive (hi : sites i = [.command]) : Instr.isTransaction i = false := by
  cases i <;> simp_all [sites, Instr.isTransaction, Instr.address]

/-- A primitive command stands in its one call or at its respond (R22). -/
theorem ctrl_of_primitive (hi : sites i = [.command]) {nBus : Nat} {k : BitVec 16} {c : Ctrl}
    (hc : ctrlOk nBus i k c = true) : (∃ p, c = .call .command p) ∨ ∃ st rd, c = .respond st rd := by
  have htr := isTransaction_of_primitive hi
  cases c with
  | call site p =>
    obtain ⟨hsite, -⟩ := ctrlOk_call.mp hc
    rw [hi, List.mem_singleton] at hsite
    exact .inl ⟨p, by rw [hsite]⟩
  | respond st rd => exact .inr ⟨st, rd, rfl⟩
  | idle => cases hc
  | csEnter => simp [ctrlOk, htr] at hc
  | csExit st => simp [ctrlOk, htr] at hc
  | bufRd =>
    have hw : readsBuffer i = true := by simp_all [ctrlOk]
    exact absurd (sendData_mem_sites hw) (by simp [hi])
  | bufWr =>
    have hw : writesBuffer i = true := by simp_all [ctrlOk]
    exact absurd (readData_mem_sites hw) (by simp [hi])

/-- An event of a primitive command touches what its primitive does, and the control point (R100, R111). -/
theorem callStep_callFrame {a : CallArgs} {p : Pos} (hi : Instr.isTransaction i = false)
    (h : callStep a (flowOf i) .command p s = some t) : CallFrame a.bus s t := by
  have hu := primStep_untouched a p s
  unfold callStep at h
  split at h <;> rename_i hp <;> rw [hp] at hu
  · cases h
    exact hu.callFrame _
  · obtain ⟨-, st, rd, rfl, -⟩ := primitiveFlow_answer hi h
    exact hu.callFrame _

/-- Settles O47: an event keeps what `CallFrame` says; the respond step writes RESP, BUSY, the control point and the record of
the run. -/
theorem primitiveStepFrame : Obligations.PrimitiveStepFrame := by
  intro i s t hi hr hok h
  have hne := sites_ne_nil_of_primitive hi
  rcases ctrl_of_primitive hi hok with ⟨p, hc⟩ | ⟨st, rd, hc⟩
  · rw [exec_call hne hr hc] at h
    have hf := callStep_callFrame (isTransaction_of_primitive hi) (orFault_next h)
    rw [argsOf_bus] at hf
    exact ⟨hf.phase, hf.csHeld, hf.buf, hf.byteIdx, hf.cmd, hf.cfg, hf.refused, hf.host, hf.otherBuses,
      fun hresp => absurd hf.resp hresp⟩
  · rw [exec_respond hne hr hc] at h
    cases h
    exact ⟨rfl, rfl, rfl, rfl, rfl, rfl, rfl, rfl, fun _ _ => rfl, fun _ => ⟨st, rd, hc⟩⟩

/-! ## One poll -/

/-- A step that stays inside a primitive: its event, and the next position (R37). -/
theorem exec_primStep {site : Site} {p q : Pos} {u : State} (hi : sites i ≠ []) (hr : Running s)
    (hc : s.ctrl = .call site p) (hp : primStep (argsOf i s.byteIdx) p s = (u, some q)) :
    exec i s = .next (call site q (phaseInside site u)) := by
  rw [exec_call hi hr hc, callStep, hp, orFault]

/-- wait_ack's SAMPLE (R105). -/
theorem primStep_poll (a : CallArgs) (s : State) :
    primStep a .poll s = ((sampleEvent a.bus s).2,
      some (if acknowledged (nextSample s.env).1 then .seg (.scl false) [] .acked else .check)) := rfl

/-- wait_ack's time check: its TICK answers the low bits of a counter `u` (R105, R209). -/
theorem primStep_check (a : CallArgs) (s : State) :
    ∃ u, primStep a .check s =
      (State.emit { s with env := { (nextTickStep s.env).2 with tickNow := u } } (.tick (u % 2 ^ s.cfg.tickW)),
        some (if timeoutReached s.cfg.tickW (u % 2 ^ s.cfg.tickW) s.t0 a.timeout then stopPos .timedOut else .poll)) := by
  obtain ⟨u, hval, hstate, -⟩ := tickEvent_eq (some (maxTickStep s.cfg.tickW a.timeout)) s
  exact ⟨u, by simp only [primStep, hval, hstate]⟩

/-- Settles O26: at its SAMPLE a wait_ack goes on as the sample says, at its time check as the time says. -/
theorem pollSamplesBeforeItChecksTheTime : Obligations.PollSamplesBeforeItChecksTheTime := by
  intro i site s hr hsite
  have hi : sites i ≠ [] := List.ne_nil_of_mem hsite
  constructor
  · intro hc
    have hg := phaseInside_goesOn site (sampleEvent i.bus s).2
    have hstep := exec_primStep hi hr hc (primStep_poll ..)
    rw [argsOf_bus] at hstep
    refine ⟨_, hstep, phaseInside_trace .., ?_, hg.buses, hg.t0⟩
    rw [call_ctrl]
    cases (nextSample s.env).1 <;> rfl
  · intro hc
    obtain ⟨u, hcheck⟩ := primStep_check (argsOf i s.byteIdx) s
    have hstep := exec_primStep hi hr hc hcheck
    have hg := phaseInside_goesOn site
      (State.emit { s with env := { (nextTickStep s.env).2 with tickNow := u } } (.tick (u % 2 ^ s.cfg.tickW)))
    refine ⟨_, u % 2 ^ s.cfg.tickW, hstep, phaseInside_trace .., ?_, ?_, hg.buses, hg.t0⟩
    · cases site <;> rfl
    · simp only [call_ctrl, argsOf_timeout, timeoutReached, elapsed, decide_eq_true_eq]
      rfl

end
end Sys2Proof.Machine
end

section
/-! PROOFS. START, STOP, SEND_BYTE, ACK and NACK from their accept to their respond: the whole state they end in (O19, O20, O21,
O23). -/

namespace Sys2Proof.Machine

/-! ## The state after some events -/

/-- The state after the events `evs` of bus `b`, with its latches then `x`, SHIFT `sh` and the collaborators `e`; all else as in
`s`. -/
def afterEvents (b : BusIx) (x : Bus) (sh : Byte) (e : Env) (evs : List Event) (s : State) : State :=
  { s.setBus b x with shift := sh, env := e, trace := evs.reverse ++ s.trace }

@[simp] theorem bus_afterEvents (b : BusIx) (x : Bus) (sh : Byte) (e : Env) (evs : List Event) (s : State) :
    (afterEvents b x sh e evs s).bus b = x := bus_setBus_same s b x

@[simp] theorem shift_afterEvents (b : BusIx) (x : Bus) (sh : Byte) (e : Env) (evs : List Event) (s : State) :
    (afterEvents b x sh e evs s).shift = sh := rfl

@[simp] theorem env_afterEvents (b : BusIx) (x : Bus) (sh : Byte) (e : Env) (evs : List Event) (s : State) :
    (afterEvents b x sh e evs s).env = e := rfl

theorem afterEvents_afterEvents (b : BusIx) (x y : Bus) (sh sh' : Byte) (e e' : Env) (evs evs' : List Event) (s : State) :
    afterEvents b y sh' e' evs' (afterEvents b x sh e evs s) = afterEvents b y sh' e' (evs ++ evs') s := by
  simp [afterEvents, State.setBus]

/-- The collaborators once `n` waits are over. -/
def Env.afterWaits (n : Nat) (e : Env) : Env := { e with waits := e.waits.drop n }

@[simp] theorem Env.afterWaits_afterWaits (m n : Nat) (e : Env) : (e.afterWaits m).afterWaits n = e.afterWaits (m + n) := by
  simp [Env.afterWaits]

section
variable (b : BusIx) (op : LineOp) (ops : List LineOp) (s : State)

/-- One line event, after the wait of a HOLD. -/
theorem lineEvents_singleton :
    lineEvents b [op] s =
      afterEvents b (latchAfter op (s.bus b)) s.shift (s.env.afterWaits ([op].count .hold)) [lineOpEvent b op s] s := by
  cases op
  case hold =>
    have hwaits : s.env.afterWaits 1 = { s.env with waits := s.env.waits.tail } := by simp [Env.afterWaits]
    have hone : [LineOp.hold].count .hold = 1 := rfl
    rw [latchAfter, afterEvents, setBus_bus, hone, hwaits]
    rfl
  all_goals rfl

/-- The state after a straight piece: its latches, its events, and the waits of its HOLDs taken off. -/
theorem lineEvents_eq :
    lineEvents b ops s =
      afterEvents b (latchesAfter ops (s.bus b)) s.shift (s.env.afterWaits (ops.count .hold))
        (ops.map fun op => lineOpEvent b op s) s := by
  induction ops generalizing s with
  | nil => exact congrArg (fun t : State => { t with trace := s.trace }) (setBus_bus s b).symm
  | cons op ops ih =>
    have hev : (fun op' => lineOpEvent b op' (lineEvents b [op] s)) = fun op' => lineOpEvent b op' s :=
      funext (lineOpEvent_congr ((lineEvents_untouched b [op] s).delay b))
    rw [← List.singleton_append, lineEvents_append, ih, hev, lineEvents_singleton, afterEvents_afterEvents,
      bus_afterEvents, List.count_append, shift_afterEvents,
      env_afterEvents, Env.afterWaits_afterWaits]
    rfl

end

/-! ## From the accept to the respond -/

/-- Command `i`, accepted in state `s`, completes in state `t`. -/
def Completes (i : Instr) (s t : State) : Prop :=
  ∃ s1, exec i s = .next s1 ∧ ∃ k, execFor i k s1 = .next t

section
variable {i : Instr} {s : State}

/-- A primitive command whose primitive returns in state `u` responds with its flow's answer. -/
theorem Completes.of_return {u : State} {st : Status} {rd : Byte} {k : Nat} (hi : sites i = [.command]) (hr : Ready s)
    (hb : i.busExists s.cfg = true)
    (hk : execFor i k (acceptedState i s) = orFault .noControlPoint (flowOf i .command u)) (hu : Running u)
    (hflow : flowOf i .command u = some (u.goto (.respond st rd))) : Completes i s (respond 0 st rd u) := by
  have hdir : i.directionClear = true := by cases i <;> simp_all [sites, Instr.directionClear, Instr.address]
  have hlen : bufferLen i = 0 := by cases i <;> simp_all [sites, bufferLen]
  rw [hflow] at hk
  have hstep := exec_respond (s := u.goto (.respond st rd)) (sites_ne_nil_of_primitive hi) hu rfl
  rw [argsOf_len, hlen] at hstep
  exact ⟨_, exec_admitted hr hb hdir, k + 1, (execFor_add hk 1).trans (execFor_one hstep)⟩

/-- A primitive command's accept takes no buffer (R51). -/
theorem acceptedState_of_primitive (hi : sites i = [.command]) (s : State) :
    acceptedState i s = firstOf i (latchCommand (encode i) s) := by
  have hbuf : hasBuffer i = false := by cases i <;> simp_all [sites, hasBuffer]
  simp [acceptedState, takeBuffer, hbuf]

/-- A command that is one straight piece completes with the piece's events and latches. -/
theorem piece_completes {op : LineOp} {rest : List LineOp} (hi : sites i = [.command]) (hr : Ready s)
    (hb : i.busExists s.cfg = true) (hfirst : ∀ u, firstOf i u = call .command (.seg op rest .ret) u)
    (hflow : ∀ u, flowOf i .command u = some (u.goto (.respond .ok 0))) :
    Completes i s (completed i .ok 0 ((op :: rest).map fun op => lineOpEvent i.bus op s)
      ((afterWaits ((op :: rest).count .hold) s).setBus i.bus (latchesAfter (op :: rest) (s.bus i.bus)))) := by
  have haccepted : acceptedState i s = call .command (.seg op rest .ret) (latchCommand (encode i) s) :=
    (acceptedState_of_primitive hi s).trans (hfirst _)
  have hrun : Running (acceptedState i s) := (acceptedState_inProgress hr).running
  obtain ⟨k, c, hk⟩ := piece_returns (sites_ne_nil_of_primitive hi) hrun (congrArg State.ctrl haccepted) nofun
  rw [lineEvents_eq] at hk
  have hdone := Completes.of_return hi hr hb hk hrun (hflow _)
  rw [haccepted] at hdone
  exact hdone

end

/-- Settles O19: START is one straight piece. -/
theorem startCompletes : Obligations.StartCompletes := fun b _ hr hb =>
  piece_completes (i := .start b) rfl hr (decide_eq_true hb) (fun _ => rfl) fun _ => rfl

/-- Settles O20: STOP is one straight piece. -/
theorem stopCompletes : Obligations.StopCompletes := fun b _ hr hb =>
  piece_completes (i := .stop b) rfl hr (decide_eq_true hb) (fun _ => rfl) fun _ => rfl

/-- Settles O23: ACK and NACK are one straight piece each. -/
theorem ackAndNackComplete : Obligations.AckAndNackComplete := fun b _ hr hb =>
  ⟨piece_completes (i := .ack b) rfl hr (decide_eq_true hb) (fun _ => rfl) fun _ => rfl,
   piece_completes (i := .nack b) rfl hr (decide_eq_true hb) (fun _ => rfl) fun _ => rfl⟩

/-- send_byte has two HOLDs for each bit (R103). -/
theorem count_hold_sendBitsFrom (v : Byte) (n : Nat) : (sendBitsFrom v n).count .hold = 2 * (n + 1) := by
  induction n with
  | zero => rfl
  | succ n ih =>
    have hbit : (sendBitOps (v.getLsbD (n + 1))).count .hold = 2 := rfl
    rw [sendBitsFrom, List.count_append, ih, hbit]
    omega

theorem count_hold_sendOps (v : Byte) : (sendOps v).count .hold = 16 := by
  rw [sendOps, List.count_cons_of_ne (show LineOp.dir .out ≠ .hold from nofun), count_hold_sendBitsFrom]

theorem latchesAfter_append (ops ops' : List LineOp) (x : Bus) :
    latchesAfter (ops ++ ops') x = latchesAfter ops' (latchesAfter ops x) := List.foldl_append

theorem latchesAfter_sendBitsFrom (v : Byte) (n : Nat) (x : Bus) :
    latchesAfter (sendBitsFrom v n) x = { x with sclOut := some false, sdaOut := some (v.getLsbD 0) } := by
  induction n generalizing x with
  | zero => rfl
  | succ n ih => rw [sendBitsFrom, latchesAfter_append, ih]; rfl

/-- send_byte ends with the clock low and the data line driven at bit 0 (R103). -/
theorem latchesAfter_sendOps (v : Byte) (x : Bus) :
    latchesAfter (sendOps v) x =
      { x with sclOut := some false, sdaDir := some .out, sdaOut := some (v.getLsbD 0) } :=
  latchesAfter_sendBitsFrom v 7 { x with sdaDir := some .out }

theorem map_sendOps (b : BusIx) (v : Byte) (s : State) :
    (sendOps v).map (fun op => lineOpEvent b op s) = sendEvents b (s.bus b).bitDelayUs v := by
  simp [sendOps, sendBitsFrom, sendBitOps, sendEvents, bitsOfByte, lineOpEvent]

/-- Settles O21: SEND_BYTE sends SHIFT bit by bit, from bit 7 down to bit 0. -/
theorem sendByteCompletes : Obligations.SendByteCompletes := by
  intro b v s hr hb
  have hrun := (acceptedState_inProgress (i := .sendByte b v) hr).running
  obtain ⟨k, c, hk⟩ := send_runs (i := .sendByte b v) nofun hrun rfl nofun
  have hshift : (acceptedState (.sendByte b v) s).shift = v := rfl
  have hbus : (Instr.sendByte b v).bus = b := rfl
  rw [hshift, hbus, lineEvents_eq, count_hold_sendOps, latchesAfter_sendOps, map_sendOps] at hk
  have hdone := Completes.of_return (i := .sendByte b v) rfl hr (decide_eq_true hb) hk hrun rfl
  exact hdone

end Sys2Proof.Machine
end

section
/-! PROOFS. READ_BYTE from its accept to its respond: the whole state it ends in (O22). -/

namespace Sys2Proof.Machine

/-! ## The bits of a byte that is received -/

/-- `{acc[6:0], v}`, one bit of read_byte (R104). -/
def shiftIn (acc : Byte) (v : Level) : Byte := acc.extractLsb' 0 7 ++ BitVec.ofBool v

theorem getLsbD_shiftIn (acc : Byte) (v : Level) (j : Nat) :
    (shiftIn acc v).getLsbD j = if j = 0 then v else decide (j - 1 < 7) && acc.getLsbD (j - 1) := by
  have happend := BitVec.getLsbD_append (x := acc.extractLsb' 0 7) (y := BitVec.ofBool v) (i := j)
  refine happend.trans ?_
  cases j with
  | zero => simp
  | succ j => simp

/-- Of the bits shifted into a byte the last one is at the bottom; what was in the byte moves up (R104). -/
theorem getLsbD_foldl_shiftIn (acc : Byte) (bits : List Level) {j : Nat} (hj : j < 8) :
    (bits.foldl shiftIn acc).getLsbD j =
      if j < bits.length then bits.reverse.getD j false else acc.getLsbD (j - bits.length) := by
  induction bits using List.reverseRecOn generalizing j with
  | nil => rfl
  | append_singleton bits v ih =>
    rw [List.foldl_append, List.reverse_append, List.length_append]
    rw [List.foldl_cons, List.foldl_nil, getLsbD_shiftIn]
    cases j with
    | zero => simp
    | succ j => simp [Nat.lt_of_succ_lt_succ hj, ih (Nat.lt_of_succ_lt hj)]

/-- Eight bits are the whole byte, most significant first (R55). -/
theorem getLsbD_foldl_shiftIn_eight (acc : Byte) {bits : List Level} (hl : bits.length = 8) {k : Nat} (hk : k < 8) :
    (bits.foldl shiftIn acc).getLsbD (7 - k) = bits.getD k false := by
  have hback : 8 - 1 - (7 - k) = k := by omega
  rw [getLsbD_foldl_shiftIn acc bits (by omega), if_pos (by omega), List.getD_eq_getElem?_getD,
    List.getElem?_reverse (by omega), hl, hback, List.getD_eq_getElem?_getD]

theorem foldl_shiftIn_eight (acc : Byte) {bits : List Level} (hl : bits.length = 8) :
    bits.foldl shiftIn acc = byteOfBits bits := by
  refine BitVec.eq_of_getLsbD_eq fun j hj => ?_
  have hj' : j = 7 - (7 - j) := by omega
  rw [hj', getLsbD_foldl_shiftIn_eight acc hl (by omega)]
  exact (getLsbD_foldl_shiftIn_eight 0 hl (by omega)).symm

/-! ## The samples of read_byte's loop -/

theorem length_drawSamples (n : Nat) (e : Env) : (drawSamples n e).1.length = n := by
  induction n generalizing e with
  | zero => rfl
  | succ n ih => exact congrArg (· + 1) (ih _)

/-- A SAMPLE's answer does not depend on the waits, and taking it leaves them alone. -/
@[simp] theorem nextSample_afterWaits (n : Nat) (e : Env) :
    nextSample (e.afterWaits n) = ((nextSample e).1, (nextSample e).2.afterWaits n) := by
  cases hs : e.samples <;> simp [nextSample, Env.afterWaits, hs]

@[simp] theorem drawSamples_afterWaits (m n : Nat) (e : Env) :
    drawSamples m (e.afterWaits n) = ((drawSamples m e).1, (drawSamples m e).2.afterWaits n) := by
  induction m generalizing e with
  | zero => rfl
  | succ m ih => simp only [drawSamples, nextSample_afterWaits, ih]

theorem drawSamples_keepsWaits (n : Nat) (e : Env) : (drawSamples n e).2.waits = e.waits := by
  induction n generalizing e with
  | zero => rfl
  | succ n ih =>
    obtain ⟨-, -, -, -, hwaits⟩ := nextSample_rest e
    exact (ih _).trans hwaits

/-! ## The state after read_byte's loop -/

/-- The events of one bit of read_byte, with its sample (R104). -/
def readBitEvents (b : BusIx) (d : BitVec 32) (x : Level) : List Event :=
  [.scl b false, .hold b d, .scl b true, .sample b x, .hold b d]

theorem shiftSample_eq (b : BusIx) (s : State) :
    shiftSample b s = afterEvents b (s.bus b) (shiftIn s.shift (nextSample s.env).1) (nextSample s.env).2
      [.sample b (nextSample s.env).1] s := by
  rw [afterEvents, setBus_bus]
  rfl

/-- The state after one bit of read_byte: of the lines only the clock has moved (R104). -/
theorem readBit_eq (b : BusIx) (s : State) :
    readBit b s = afterEvents b (latchAfter (.scl true) (s.bus b)) (shiftIn s.shift (nextSample s.env).1)
      ((nextSample s.env).2.afterWaits 2) (readBitEvents b (s.bus b).bitDelayUs (nextSample s.env).1) s := by
  have hhead : lineEvents b [.scl false, .hold, .scl true] s =
      afterEvents b (latchAfter (.scl true) (s.bus b)) s.shift (s.env.afterWaits 1)
        [.scl b false, .hold b (s.bus b).bitDelayUs, .scl b true] s := lineEvents_eq ..
  have hlast : ∀ t : State, lineEvents b [.hold] t =
      afterEvents b (t.bus b) t.shift (t.env.afterWaits 1) [.hold b (t.bus b).bitDelayUs] t := fun t => lineEvents_eq ..
  rw [readBit, hhead, shiftSample_eq, hlast, afterEvents_afterEvents, afterEvents_afterEvents]
  simp only [bus_afterEvents, shift_afterEvents, env_afterEvents, nextSample_afterWaits, Env.afterWaits_afterWaits]
  rfl

/-- The state after `n` bits of read_byte (R104). -/
theorem readBits_eq (b : BusIx) (n : Nat) (s : State) :
    readBits b n s = afterEvents b (latchesAfter (List.replicate n (.scl true)) (s.bus b))
      ((drawSamples n s.env).1.foldl shiftIn s.shift) ((drawSamples n s.env).2.afterWaits (2 * n))
      ((drawSamples n s.env).1.flatMap (readBitEvents b (s.bus b).bitDelayUs)) s := by
  induction n generalizing s with
  | zero => exact congrArg (fun t : State => { t with trace := s.trace }) (setBus_bus s b).symm
  | succ n ih =>
    have hdelay : (latchAfter (.scl true) (s.bus b)).bitDelayUs = (s.bus b).bitDelayUs := rfl
    rw [readBits, ih, readBit_eq, afterEvents_afterEvents]
    simp only [bus_afterEvents, shift_afterEvents, env_afterEvents, drawSamples_afterWaits, Env.afterWaits_afterWaits, hdelay]
    rw [Nat.mul_succ, Nat.add_comm (2 * n)]
    rfl

/-- The line events of the acknowledge pulse (R106, R107). -/
def pulseOps (v : Level) : List LineOp := [.scl false, .dir .out, .sda v, .hold, .scl true, .hold, .scl false]

/-- The state after all of read_byte's events (R104). -/
theorem readEvents_eq (b : BusIx) (sendAck : Bool) (s : State) :
    lineEvents b (pulseOps (!sendAck)) (readBits b 8 (lineEvents b [.sda true, .dir .inp] s)) =
      afterEvents b { s.bus b with sclOut := some false, sdaDir := some .out, sdaOut := some (!sendAck) }
        ((drawSamples 8 s.env).1.foldl shiftIn s.shift) ((drawSamples 8 s.env).2.afterWaits 18)
        (readEvents b (s.bus b).bitDelayUs (drawSamples 8 s.env).1 sendAck) s := by
  have hopen : lineEvents b [.sda true, .dir .inp] s =
      afterEvents b { s.bus b with sdaOut := some true, sdaDir := some .inp } s.shift s.env
        [.sda b true, .dir b .inp] s := lineEvents_eq ..
  have hpulse : ∀ t : State, lineEvents b (pulseOps (!sendAck)) t =
      afterEvents b { t.bus b with sclOut := some false, sdaDir := some .out, sdaOut := some (!sendAck) } t.shift
        (t.env.afterWaits 2) (pulseEvents b (t.bus b).bitDelayUs (!sendAck)) t := fun t => lineEvents_eq ..
  rw [hpulse, readBits_eq, hopen, afterEvents_afterEvents, afterEvents_afterEvents]
  simp only [bus_afterEvents, shift_afterEvents, env_afterEvents, Env.afterWaits_afterWaits]
  rw [← List.append_assoc]
  rfl

/-- read_byte, called by a primitive command, runs to its return (R104). -/
theorem read_runs {i : Instr} {s : State} (hi : sites i ≠ []) (h : Running s) (hc : s.ctrl = .call .command readPos) :
    ∃ k c, execFor i k s = orFault .noControlPoint (flowOf i .command (State.goto c (State.setBitCnt 0
      (lineEvents i.bus (pulseOps (!(argsOf i s.byteIdx).sendAck))
        (readBits i.bus 8 (lineEvents i.bus [.sda true, .dir .inp] s)))))) := by
  obtain ⟨k1, c1, h1⟩ := piece_runs hi h hc nofun
  have hr1 := lineEvents_running i.bus [.sda true, .dir .inp] h
  have hidx := (lineEvents_untouched i.bus [.sda true, .dir .inp] s).byteIdx
  generalize lineEvents i.bus [.sda true, .dir .inp] s = u at h1 hr1 hidx ⊢
  rw [pieceEnd_readLoop, phaseInside_eq (site := .command) nofun] at h1
  obtain ⟨k2, h2⟩ := readBits_run (n := 7) (s := call .command readBitPos (State.setBitCnt 7 (u.goto c1))) hi hr1
    (by decide) rfl rfl nofun
  have hu2 := readBits_untouched i.bus 8 u
  have hr2 : Running (readBits i.bus 8 u) := ⟨hu2.refused.trans hr1.1, hu2.busy.trans hr1.2⟩
  have hidx2 : (call .command readBitPos (State.setBitCnt 7 (u.goto c1))).byteIdx = s.byteIdx := hidx
  rw [hidx2] at h2
  simp only [call, readBits_goto, readBits_setBitCnt] at h2
  generalize readBits i.bus 8 u = v at h2 hr2 ⊢
  obtain ⟨k3, c3, h3⟩ := piece_returns
    (s := call .command (pulsePos (!(argsOf i s.byteIdx).sendAck)) (State.setBitCnt 0 v)) hi hr2 rfl nofun
  rw [call, lineEvents_goto, lineEvents_setBitCnt] at h3
  exact ⟨k1 + (k2 + k3), c3, (execFor_add h1 _).trans ((execFor_add h2 _).trans h3)⟩

/-- Settles O22: READ_BYTE responds with the byte in SHIFT, which the eight samples have filled. -/
theorem readByteCompletes : Obligations.ReadByteCompletes := by
  intro b sendAck s hr hb bits
  have hl : bits.length = 8 := length_drawSamples 8 s.env
  refine ⟨fun k hk => getLsbD_foldl_shiftIn_eight 0 hl hk, ?_⟩
  have hrun := (acceptedState_inProgress (i := .readByte b sendAck) hr).running
  obtain ⟨k, c, hk⟩ := read_runs (i := .readByte b sendAck) nofun hrun rfl
  rw [readEvents_eq] at hk
  have henv : (drawSamples 8 s.env).2.afterWaits 18 = { (drawSamples 8 s.env).2 with waits := s.env.waits.drop 18 } := by
    rw [Env.afterWaits, drawSamples_keepsWaits]
  have hdone := Completes.of_return (i := .readByte b sendAck) (st := .ok) rfl hr (decide_eq_true hb) hk hrun rfl
  rw [← foldl_shiftIn_eight s.shift hl, ← henv]
  exact hdone

end Sys2Proof.Machine
end

section
/-! PROOFS. WAIT_ACK acknowledged at its first SAMPLE, and timed out at its first time check (O24, O25). -/

namespace Sys2Proof.Machine

/-! ## A TICK -/

/-- The collaborators after a TICK that no limit cuts (R209). -/
def Env.ticked (e : Env) : Env := { (nextTickStep e).2 with tickNow := e.tickNow + (nextTickStep e).1 }

theorem tickEvent_none (s : State) :
    tickEvent none s = (s.env.ticked.tickNow % 2 ^ s.cfg.tickW,
      State.emit { s with env := s.env.ticked } (.tick (s.env.ticked.tickNow % 2 ^ s.cfg.tickW))) := by
  obtain ⟨-, -, -, hnow⟩ := nextTickStep_rest s.env
  simp only [tickEvent, Env.ticked, hnow]

/-- A limit that the increase keeps within does not cut it (R209 law 2). -/
theorem tickEvent_within {m : Nat} {s : State} (h : (nextTickStep s.env).1 ≤ m) :
    tickEvent (some m) s = tickEvent none s := by
  simp only [tickEvent, Nat.min_eq_left h]

theorem ticked_waits (e : Env) : e.ticked.waits = e.waits := by
  obtain ⟨-, -, hwaits, -⟩ := nextTickStep_rest e
  exact hwaits

theorem nextSample_ticked (e : Env) : (nextSample e.ticked).1 = (nextSample e).1 := by
  obtain ⟨hsamples, hno, -, -⟩ := nextTickStep_rest e
  exact (nextSample_congr (e' := e.ticked) hsamples hno).1

/-! ## wait_ack's registers -/

/-- Write T0. -/
def State.setT0 (n : Nat) (s : State) : State := { s with t0 := n }

/-- Write ACKOK. -/
def State.setAckOk (v : Bool) (s : State) : State := { s with ackOk := v }

theorem afterEvents_setT0 (b : BusIx) (x : Bus) (sh : Byte) (e : Env) (evs : List Event) (n : Nat) (s : State) :
    afterEvents b x sh e evs (s.setT0 n) = (afterEvents b x sh e evs s).setT0 n := rfl

section
variable {b : BusIx} {s : State}

theorem afterEvents_untouched {x : Bus} (hx : x.bitDelayUs = (s.bus b).bitDelayUs) (sh : Byte) (e : Env)
    (evs : List Event) : Untouched b s (afterEvents b x sh e evs s) :=
  (Untouched.latches b s hx).trans (.datapath b _ _ _ _ _ _ _)

theorem Untouched.setT0 (b : BusIx) (n : Nat) (s : State) : Untouched b s (s.setT0 n) := .datapath b s _ _ _ _ _ _

theorem Untouched.setAckOk (b : BusIx) (v : Bool) (s : State) : Untouched b s (s.setAckOk v) := .datapath b s _ _ _ _ _ _

end

/-! ## wait_ack up to its first SAMPLE -/

/-- A bus in state `x` with its data line released to a slave, and the clock at `scl` (R105). -/
def Bus.listening (x : Bus) (scl : Level) : Bus :=
  { x with sclOut := some scl, sdaDir := some .inp, sdaOut := some true }

/-- What T0's TICK answers in state `s` (R105, R209). -/
def tickAnswer (s : State) : Nat := s.env.ticked.tickNow % 2 ^ s.cfg.tickW

/-- The state after wait_ack's first SAMPLE (R105). -/
def firstPoll (b : BusIx) (s : State) : State :=
  State.setT0 (tickAnswer s) (afterEvents b ((s.bus b).listening true) s.shift (nextSample s.env.ticked).2
    (waitHead b (tickAnswer s) ++ [.sample b (nextSample s.env).1]) s)

theorem firstPoll_bus (b : BusIx) (s : State) : (firstPoll b s).bus b = (s.bus b).listening true :=
  bus_setBus_same s b _

theorem firstPoll_untouched (b : BusIx) (s : State) : Untouched b s (firstPoll b s) :=
  (afterEvents_untouched (x := (s.bus b).listening true) rfl ..).trans (.setT0 ..)

section
variable {i : Instr} {s : State} {site : Site} (hi : sites i ≠ []) (hp : site ≠ .readData) (h : Running s)
include hi hp h

/-- wait_ack runs to its first SAMPLE and goes on as the sample says (R105). -/
theorem firstPoll_runs (hc : s.ctrl = .call site waitPos) :
    ∃ k, execFor i k s = .next (call site
      (if acknowledged (nextSample s.env).1 then .seg (.scl false) [] .acked else .check) (firstPoll i.bus s)) := by
  obtain ⟨k, c, hk⟩ := piece_runs hi h hc (fun e => absurd e hp)
  rw [pieceEnd_waitBegin, phaseInside_eq (fun e => absurd e hp), lineEvents_eq] at hk
  have htick := tickT0_step (s := call site .tickT0 (State.goto c (afterEvents i.bus ((s.bus i.bus).listening true) s.shift
    s.env [.dir i.bus .inp, .sda i.bus true, .scl i.bus true] s))) hi h rfl hp
  rw [tickEvent_none] at htick
  have hpoll := (execFor_succ (k := 1) htick).trans (execFor_one (poll_step hi h rfl hp))
  refine ⟨k + 2, (execFor_add hk 2).trans (hpoll.trans ?_)⟩
  rw [firstPoll, ← nextSample_ticked s.env]
  rfl

/-! ## wait_ack from its outcome to its return -/

theorem acked_runs (hc : s.ctrl = .call site (.seg (.scl false) [] .acked)) :
    ∃ k c, execFor i k s = orFault .noControlPoint (flowOf i site (State.goto c (State.setAckOk true
      (afterEvents i.bus { s.bus i.bus with sclOut := some false } s.shift s.env [.scl i.bus false] s)))) := by
  obtain ⟨k, c, hk⟩ := piece_runs hi h hc (fun e => absurd e hp)
  rw [pieceEnd_acked, phaseInside_eq (fun e => absurd e hp), lineEvents_eq] at hk
  exact ⟨k, c, hk⟩

theorem timedOut_runs (hc : s.ctrl = .call site (stopPos .timedOut)) :
    ∃ k c, execFor i k s = orFault .noControlPoint (flowOf i site (State.goto c (State.setAckOk false
      (afterEvents i.bus (latchesAfter stopOps (s.bus i.bus)) s.shift (s.env.afterWaits 4)
        (stopEvents i.bus (s.bus i.bus).bitDelayUs) s)))) := by
  obtain ⟨k, c, hk⟩ := piece_runs hi h hc (fun e => absurd e hp)
  rw [pieceEnd_timedOut, phaseInside_eq (fun e => absurd e hp), lineEvents_eq] at hk
  exact ⟨k, c, hk⟩

/-- The state in which wait_ack returns, acknowledged at its first SAMPLE (R105). -/
def ackedAtOnce (b : BusIx) (s : State) : State :=
  State.setAckOk true (State.setT0 (tickAnswer s) (afterEvents b ((s.bus b).listening false) s.shift
    (nextSample s.env.ticked).2 (waitOkEvents b (tickAnswer s)) s))

omit hi hp h in
theorem ackedAtOnce_eq (b : BusIx) (hs : (nextSample s.env).1 = false) :
    State.setAckOk true (afterEvents b { (firstPoll b s).bus b with sclOut := some false } (firstPoll b s).shift
      (firstPoll b s).env [.scl b false] (firstPoll b s)) = ackedAtOnce b s := by
  rw [firstPoll_bus, firstPoll, afterEvents_setT0, afterEvents_afterEvents, hs]
  rfl

omit hi hp h in
theorem ackedAtOnce_untouched (b : BusIx) (s : State) : Untouched b s (ackedAtOnce b s) :=
  ((afterEvents_untouched (x := (s.bus b).listening false) rfl ..).trans (.setT0 ..)).trans (.setAckOk ..)

theorem wait_acked_at_once (hc : s.ctrl = .call site waitPos)
    (hs : (nextSample s.env).1 = false) :
    ∃ k c, execFor i k s = orFault .noControlPoint (flowOf i site (State.goto c (ackedAtOnce i.bus s))) := by
  obtain ⟨k1, h1⟩ := firstPoll_runs hi hp h hc
  rw [hs] at h1
  have hu := firstPoll_untouched i.bus s
  obtain ⟨k2, c, h2⟩ := acked_runs (s := call site (.seg (.scl false) [] .acked) (firstPoll i.bus s)) hi hp
    ⟨hu.refused.trans h.1, hu.busy.trans h.2⟩ rfl
  rw [← ackedAtOnce_eq i.bus hs]
  exact ⟨k1 + k2, c, (execFor_add h1 k2).trans h2⟩

end

/-! ## Counting the events -/

theorem eventCount_append (xs ys : List Event) : eventCount (xs ++ ys) = eventCount xs + eventCount ys := by
  simp [eventCount]

/-- A response is no event (R16). -/
theorem eventCount_responded (w : BitVec 16) (evs tr : List Event) :
    eventCount (.resp w :: (evs.reverse ++ tr)) = eventCount tr + eventCount evs := by
  have hresp : eventCount (.resp w :: (evs.reverse ++ tr)) = eventCount (evs.reverse ++ tr) := rfl
  have hrev : eventCount evs.reverse = eventCount evs := by simp [eventCount]
  rw [hresp, eventCount_append, hrev, Nat.add_comm]

/-! ## WAIT_ACK from the return to its respond -/

/-- WAIT_ACK, accepted in state `s`, has completed in state `t`: wait_ack emitted `evs` and returned in state `u`, and all that
no wait_ack writes is as in `s` (R100, R105). -/
structure WaitAckDone (b : BusIx) (timeout : BitVec 16) (st : Status) (evs : List Event) (s u t : State) : Prop where
  done : CommandDone (.waitAck b timeout) st 0 s t
  ackOk : t.ackOk = u.ackOk
  t0 : t.t0 = u.t0
  bus : t.bus b = u.bus b
  trace : t.trace = .resp (respWord st 0) :: (evs.reverse ++ s.trace)
  count : eventCount t.trace = eventCount s.trace + eventCount evs
  env : t.env = u.env
  phase : t.phase = s.phase
  csHeld : t.csHeld = s.csHeld
  shift : t.shift = s.shift
  bitCnt : t.bitCnt = s.bitCnt
  byteIdx : t.byteIdx = s.byteIdx
  buf : t.buf = s.buf

theorem waitAck_completes {b : BusIx} {timeout : BitVec 16} {s u : State} {k : Nat} {c : Ctrl} {st : Status}
    {evs : List Event} (hr : Ready s) (hb : b.toNat < s.cfg.nBus)
    (hk : execFor (.waitAck b timeout) k (acceptedState (.waitAck b timeout) s) =
      orFault .noControlPoint (flowOf (.waitAck b timeout) .command (State.goto c u)))
    (hst : waitStatus u.ackOk = st) (hu : Untouched b (acceptedState (.waitAck b timeout) s) u)
    (htrace : u.trace = evs.reverse ++ s.trace) (hshift : u.shift = s.shift) (hbitCnt : u.bitCnt = s.bitCnt) :
    ∃ s1, exec (.waitAck b timeout) s = .next s1 ∧ ∃ k t, execFor (.waitAck b timeout) k s1 = .next t ∧
      WaitAckDone b timeout st evs s u t := by
  subst hst
  have hin := acceptedState_inProgress (i := .waitAck b timeout) hr
  have hreturned := hin.of_frame (hu.callFrame c)
  have hresponds := (hreturned.goto (.respond (waitStatus u.ackOk) 0)).commandDone (st := waitStatus u.ackOk) (rd := 0)
    (by cases u.ackOk <;> decide)
  have htrace' : Event.resp (respWord (waitStatus u.ackOk) 0) :: u.trace =
      .resp (respWord (waitStatus u.ackOk) 0) :: (evs.reverse ++ s.trace) := congrArg _ htrace
  refine ⟨_, exec_admitted hr (decide_eq_true hb) rfl, k + 1, _, waitAck_responds hreturned hk, ?_⟩
  exact {
    done := hresponds
    ackOk := rfl
    t0 := rfl
    bus := rfl
    trace := htrace'
    count := (congrArg eventCount htrace').trans (eventCount_responded ..)
    env := rfl
    phase := hu.phase
    csHeld := hu.csHeld
    shift := hshift
    bitCnt := hbitCnt
    byteIdx := hu.byteIdx
    buf := hu.buf }

/-- Settles O24: the first SAMPLE of 0 leads to the acknowledge, which returns success. -/
theorem waitAckAcknowledgedAtOnce : Obligations.WaitAckAcknowledgedAtOnce := by
  intro b timeout s hr hb hs
  have hrun := (acceptedState_inProgress (i := .waitAck b timeout) hr).running
  obtain ⟨k, c, hk⟩ := wait_acked_at_once (i := .waitAck b timeout) (site := .command) nofun nofun hrun rfl hs
  obtain ⟨s1, haccept, k', t, hk', h⟩ := waitAck_completes (evs := waitOkEvents b (tickAnswer s)) (st := .ok) hr hb
    hk rfl (ackedAtOnce_untouched b _) rfl rfl rfl
  have hbus : t.bus b = (s.bus b).listening false := h.bus.trans (bus_setBus_same ..)
  have hwaits : t.env.waits = s.env.waits := by
    obtain ⟨-, -, -, -, hwaits⟩ := nextSample_rest s.env.ticked
    exact (congrArg Env.waits h.env).trans (hwaits.trans (ticked_waits s.env))
  exact ⟨s1, haccept, k', t, tickAnswer s, hk', h.done, h.ackOk, h.t0, congrArg Bus.sclOut hbus, congrArg Bus.sdaDir hbus,
    congrArg Bus.sdaOut hbus, h.trace, h.count, h.phase, h.csHeld, h.shift, h.bitCnt, h.byteIdx, h.buf, hwaits⟩

/-! ## The first time check -/

/-- An increase within law 2 that reaches the timeout is seen to reach it (R205, R209). -/
theorem timeoutReached_of_within {w u0 d : Nat} {timeout : BitVec 16} (h : timeout.toNat ≤ d)
    (hlaw : d ≤ 2 ^ w - timeout.toNat) : timeoutReached w ((u0 + d) % 2 ^ w) (u0 % 2 ^ w) timeout = true := by
  rw [timeoutReached, decide_eq_true_eq, elapsed_counter (Nat.le_add_right u0 d), Nat.add_sub_cancel_left]
  rcases Nat.eq_zero_or_pos timeout.toNat with h0 | hpos
  · exact h0 ▸ Nat.zero_le _
  · rwa [Nat.mod_eq_of_lt (by omega)]

/-- A TICK touches no line. -/
theorem tickEvent_eq_afterEvents (b : BusIx) (s : State) :
    (tickEvent none s).2 = afterEvents b (s.bus b) s.shift s.env.ticked [.tick (tickAnswer s)] s := by
  rw [tickEvent_none, afterEvents, setBus_bus]
  rfl

/-- The collaborators at wait_ack's first time check (R105). -/
def atFirstCheck (e : Env) : Env := (nextSample e.ticked).2

theorem atFirstCheck_tickNow (e : Env) : (atFirstCheck e).tickNow = e.ticked.tickNow := by
  obtain ⟨hnow, -⟩ := nextSample_rest e.ticked
  exact hnow

/-- The state in which wait_ack returns, timed out at its first time check (R105). -/
def timedOutAtOnce (b : BusIx) (s : State) : State :=
  State.setAckOk false (State.setT0 (tickAnswer s) (afterEvents b (latchesAfter stopOps (s.bus b)) s.shift
    ((atFirstCheck s.env).ticked.afterWaits 4)
    (waitFailEvents b (s.bus b).bitDelayUs (tickAnswer s) [(atFirstCheck s.env).ticked.tickNow % 2 ^ s.cfg.tickW]) s))

theorem timedOutAtOnce_untouched (b : BusIx) (s : State) : Untouched b s (timedOutAtOnce b s) :=
  ((afterEvents_untouched (x := latchesAfter stopOps (s.bus b)) rfl ..).trans (.setT0 ..)).trans (.setAckOk ..)

/-- After the stop, called at the first time check. -/
theorem timedOutAtOnce_eq (b : BusIx) {s u : State} (hs : (nextSample s.env).1 = true)
    (hu : u = (tickEvent none (firstPoll b s)).2) :
    State.setAckOk false (afterEvents b (latchesAfter stopOps (u.bus b)) u.shift (u.env.afterWaits 4)
      (stopEvents b (u.bus b).bitDelayUs) u) = timedOutAtOnce b s := by
  subst hu
  rw [tickEvent_eq_afterEvents b, bus_afterEvents, afterEvents_afterEvents, firstPoll_bus, firstPoll, afterEvents_setT0,
    afterEvents_afterEvents, hs]
  rfl

section
variable {i : Instr} {s : State} {site : Site} (hi : sites i ≠ []) (hp : site ≠ .readData) (h : Running s)
include hi hp h

/-- A first time check that finds the timeout reached leads to the stop (R105, R209). -/
theorem firstCheck_step (hc : s.ctrl = .call site .check) (ht0 : s.t0 = s.env.tickNow % 2 ^ s.cfg.tickW)
    (hle : i.timeout.toNat ≤ (nextTickStep s.env).1)
    (hlaw : (nextTickStep s.env).1 ≤ 2 ^ s.cfg.tickW - i.timeout.toNat) :
    exec i s = .next (call site (stopPos .timedOut) (tickEvent none s).2) := by
  have hval : (tickEvent none s).1 = (s.env.tickNow + (nextTickStep s.env).1) % 2 ^ s.cfg.tickW := by
    rw [tickEvent_none]
    rfl
  have hstep := check_step hi h hc hp
  rwa [argsOf_timeout, tickEvent_within (m := maxTickStep s.cfg.tickW i.timeout) hlaw, hval, ht0,
    if_pos (timeoutReached_of_within hle hlaw)] at hstep

theorem wait_timed_out_at_once (hc : s.ctrl = .call site waitPos) (hs : (nextSample s.env).1 = true)
    (hle : i.timeout.toNat ≤ (nextTickStep (atFirstCheck s.env)).1)
    (hlaw : (nextTickStep (atFirstCheck s.env)).1 ≤ 2 ^ s.cfg.tickW - i.timeout.toNat) :
    ∃ k c, execFor i k s = orFault .noControlPoint (flowOf i site (State.goto c (timedOutAtOnce i.bus s))) := by
  obtain ⟨k1, h1⟩ := firstPoll_runs hi hp h hc
  rw [hs] at h1
  have hu := firstPoll_untouched i.bus s
  have hr : Running (firstPoll i.bus s) := ⟨hu.refused.trans h.1, hu.busy.trans h.2⟩
  have ht0 : (firstPoll i.bus s).t0 = (firstPoll i.bus s).env.tickNow % 2 ^ s.cfg.tickW :=
    congrArg (· % 2 ^ s.cfg.tickW) (atFirstCheck_tickNow s.env).symm
  have hcheck : exec i (call site .check (firstPoll i.bus s)) =
      .next (call site (stopPos .timedOut) (tickEvent none (firstPoll i.bus s)).2) :=
    firstCheck_step hi hp hr rfl ht0 hle hlaw
  have hv := tickEvent_untouched i.bus none (firstPoll i.bus s)
  generalize hu' : (tickEvent none (firstPoll i.bus s)).2 = u at hcheck hv
  obtain ⟨k2, c, h2⟩ := timedOut_runs (s := call site (stopPos .timedOut) u) hi hp
    ⟨hv.refused.trans hr.1, hv.busy.trans hr.2⟩ rfl
  rw [← timedOutAtOnce_eq i.bus hs hu'.symm]
  exact ⟨k1 + (1 + k2), c, (execFor_add h1 _).trans ((execFor_add (execFor_one hcheck) _).trans h2)⟩

end

/-- Settles O25: the first SAMPLE of 1 leads to a time check that finds the timeout reached, and its stop returns failure. -/
theorem waitAckTimesOutAtTheFirstCheck : Obligations.WaitAckTimesOutAtTheFirstCheck := by
  intro b timeout s d0 d1 ds hr hb hs hsteps hle hlaw τ0 τ1
  have hticked : s.env.ticked = { s.env with tickSteps := d1 :: ds, tickNow := s.env.tickNow + d0 } := by
    simp [Env.ticked, nextTickStep, hsteps]
  have hcheck : (nextTickStep (atFirstCheck s.env)).1 = d1 := by
    obtain ⟨-, hrest, -⟩ := nextSample_rest s.env.ticked
    rw [hticked] at hrest
    simp [nextTickStep, atFirstCheck, hticked, hrest]
  have hrun := (acceptedState_inProgress (i := .waitAck b timeout) hr).running
  obtain ⟨k, c, hk⟩ := wait_timed_out_at_once (i := .waitAck b timeout) (site := .command) nofun nofun hrun rfl hs
    (hle.trans_eq hcheck.symm) (hcheck.trans_le hlaw)
  obtain ⟨s1, haccept, k', t, hk', h⟩ := waitAck_completes (st := .fail)
    (evs := waitFailEvents b (s.bus b).bitDelayUs (tickAnswer s) [(atFirstCheck s.env).ticked.tickNow % 2 ^ s.cfg.tickW])
    hr hb hk rfl (timedOutAtOnce_untouched b _) rfl rfl rfl
  have hτ0 : tickAnswer s = τ0 := by rw [tickAnswer, hticked]
  have hτ1 : (atFirstCheck s.env).ticked.tickNow % 2 ^ s.cfg.tickW = τ1 := by
    rw [Env.ticked, hcheck, atFirstCheck_tickNow, hticked]
  have hbus : t.bus b = latchesAfter stopOps (s.bus b) := h.bus.trans (bus_setBus_same ..)
  rw [hτ0, hτ1] at h
  exact ⟨s1, haccept, k', t, hk', h.done, h.ackOk, h.t0.trans hτ0, hbus ▸ latchesAfter_stopOps (s.bus b), h.trace,
    h.count, h.phase, h.csHeld, h.shift, h.bitCnt, h.byteIdx, h.buf⟩

end Sys2Proof.Machine
end

section
/-! PROOFS. A transaction leaves its critical section at its CS_EXIT only, with its bus idle-high (O43); which bytes are
acknowledged (O51). -/

namespace Sys2Proof.Machine

/-- Settles O51: `moreBytes` compares without the subtraction. -/
theorem allBytesButTheLastAreAcknowledged : Obligations.AllBytesButTheLastAreAcknowledged := by
  intro k n hk
  rw [moreBytes, decide_eq_true_eq]
  omega

section
variable {i : Instr} {s t : State} {b : BusIx}

theorem not_emits_of_trace_eq {e : Event} (h : t.trace = s.trace) : t.trace ≠ e :: s.trace :=
  h ▸ (List.cons_ne_self e s.trace).symm

theorem accept_trace (i : Instr) (s : State) : (accept i (firstOf i) s).trace = s.trace := by
  rcases accept_cases i (firstOf i) s with ⟨-, heq⟩ | ⟨-, -, heq⟩ | ⟨-, -, heq⟩ <;> rw [heq]
  · rfl
  · rfl
  · exact (firstOf_trace ..).trans (takeBuffer_trace ..)

theorem csEnterStep_not_csExit (c : BusIx) : (csEnterStep c s).trace ≠ .csExit b :: s.trace := by
  unfold csEnterStep
  split
  · rename_i u hu
    obtain ⟨n, ws, -, rfl⟩ := collaboratorWait_some hu
    exact not_emits_of_trace_eq (s := s) rfl
  · exact fun h => Event.noConfusion (List.cons.inj h).1

theorem primStep_not_csExit (a : CallArgs) (p : Pos) (s : State) : (primStep a p s).1.trace ≠ .csExit b :: s.trace := by
  rcases primStep_trace a p s with ⟨u, hw, hp⟩ | ⟨e, he, htr⟩
  · obtain ⟨n, ws, -, rfl⟩ := collaboratorWait_some (holdWait_some hw).2
    rw [hp]
    exact not_emits_of_trace_eq (s := s) rfl
  · rw [htr]
    rintro h
    cases (List.cons.inj h).1
    cases he

theorem callStep_not_csExit {a : CallArgs} {site : Site} {p : Pos} (h : callStep a (flowOf i) site p s = some t) :
    t.trace ≠ .csExit b :: s.trace := by
  have hne := primStep_not_csExit (b := b) a p s
  unfold callStep at h
  split at h <;> rename_i hp <;> rw [hp] at hne
  · cases h
    exact fun htr => hne ((phaseInside_trace ..).symm.trans htr)
  · exact fun htr => hne ((phaseInside_trace ..).symm.trans ((flowOf_trace h).symm.trans htr))

theorem bufRdStep_not_csExit {n : BitVec 16} (h : bufRdStep n s = some t) : t.trace ≠ .csExit b :: s.trace := by
  unfold bufRdStep at h
  split at h <;> cases h
  exact fun htr => Event.noConfusion (List.cons.inj htr).1

theorem bufWrStep_not_csExit {n : BitVec 16} (h : bufWrStep n s = some t) : t.trace ≠ .csExit b :: s.trace := by
  unfold bufWrStep at h
  split at h <;> cases h
  exact fun htr => Event.noConfusion (List.cons.inj ((readNext_trace ..).symm.trans htr)).1

theorem respond_not_csExit (n : Nat) (st : Status) (rd : Byte) : (respond n st rd s).trace ≠ .csExit b :: s.trace :=
  fun htr => Event.noConfusion (List.cons.inj htr).1

/-- A running command emits CS_EXIT in its CS_EXIT step only, for its own bus (R12, R140). -/
theorem csExit_of_exec (hr : Running s) (h : exec i s = .next t) (htr : t.trace = .csExit b :: s.trace) :
    i.bus = b ∧ ∃ st, s.ctrl = .csExit st ∧ t = csExitStep b st s := by
  by_cases hi : sites i = []
  · obtain ⟨st, rd, v, -, rfl⟩ := exec_configure_respond hi hr h
    exact absurd htr (respond_not_csExit (s := { s with buses := v }) 0 st rd)
  rw [exec_running hi hr] at h
  rcases runBusy_next h with ⟨-, rfl⟩ | ⟨_, _, -, h⟩ | ⟨-, h⟩ | ⟨-, h⟩ | ⟨st, hc, rfl⟩ | ⟨st, rd, -, rfl⟩
  · exact absurd htr (csEnterStep_not_csExit _)
  · exact absurd htr (callStep_not_csExit h)
  · exact absurd htr (bufRdStep_not_csExit h)
  · exact absurd htr (bufWrStep_not_csExit h)
  · rw [argsOf_bus] at htr ⊢
    obtain rfl : i.bus = b := Event.csExit.inj (List.cons.inj htr).1
    exact ⟨rfl, st, hc, rfl⟩
  · exact absurd htr (respond_not_csExit _ st rd)

/-- A step of the machine that emits CS_EXIT is a running command's (R37). -/
theorem csExit_of_step (h : step s = .next t) (htr : t.trace = .csExit b :: s.trace) :
    Running s ∧ ∃ i, decode s.cmd = .ok i ∧ exec i s.hostWaits = .next t := by
  obtain ⟨hr, ⟨-, rfl⟩ | ⟨-, -, rfl⟩ | ⟨-, w, i, hw, hi, he⟩ | ⟨-, w, e, -, -, he⟩⟩ := stepWith_next h
  · obtain ⟨-, -, -, -, htrace, -⟩ := rst_keeps s
    exact absurd htr (not_emits_of_trace_eq htrace)
  · exact absurd htr (not_emits_of_trace_eq (s := s) rfl)
  · cases hb : s.busy with
    | false =>
      rw [exec_ready (s := s.hostWaits) i ⟨hr, hb⟩] at he
      cases he
      exact absurd htr (not_emits_of_trace_eq (accept_trace ..))
    | true => exact ⟨⟨hr, hb⟩, i, (currentWord_of_busy hw hb).symm ▸ hi, he⟩
  · obtain ⟨-, ⟨-, rfl⟩ | ⟨-, st, rd, -, rfl⟩⟩ := runIllegal_next he
    · exact absurd htr (not_emits_of_trace_eq (s := s) rfl)
    · exact absurd htr (respond_not_csExit (s := s.hostWaits) 0 st rd)

end

/-- Settles O43: the step is a running command's CS_EXIT, before which the line invariant has its bus idle-high. -/
theorem transactionEndsIdleHigh : Obligations.TransactionEndsIdleHigh := by
  intro s t b hinv hstep htr
  obtain ⟨hr, i, hi, he⟩ := csExit_of_step hstep htr
  obtain ⟨rfl, st, hc, rfl⟩ := csExit_of_exec (s := s.hostWaits) hr he htr
  have hlines := hinv hr i hi
  unfold linesOk at hlines
  rw [show s.ctrl = .csExit st from hc] at hlines
  exact ⟨hlines, rfl, rfl⟩

end Sys2Proof.Machine
end

section
/-! PROOFS. The answers of the SAMPLEs and TICKs that a transaction's waits take, and a wait_ack that times out at its j-th time
check (R105, R209). -/

namespace Sys2Proof.Machine

/-! ## The collaborators' answers along the waits of a transaction -/

/-- The collaborators without the waits of HOLDs and CS_ENTERs: what their coming answers are. -/
def Env.answers (e : Env) : Env := { e with waits := [] }

theorem ticked_answers (e : Env) : e.answers.ticked = e.ticked.answers := by
  cases hd : e.tickSteps <;> cases hk : e.tickStall <;> simp [Env.ticked, Env.answers, nextTickStep, hd, hk]

theorem nextSample_answers (e : Env) : nextSample e.answers = ((nextSample e).1, (nextSample e).2.answers) := by
  cases hs : e.samples <;> simp [nextSample, Env.answers, hs]

theorem drawSamples_answers (n : Nat) (e : Env) :
    drawSamples n e.answers = ((drawSamples n e).1, (drawSamples n e).2.answers) := by
  induction n generalizing e with
  | zero => rfl
  | succ n ih => simp only [drawSamples, nextSample_answers, ih]

theorem drawSamples_answers_fst (n : Nat) (e : Env) : (drawSamples n e.answers).1 = (drawSamples n e).1 := by
  rw [drawSamples_answers]

theorem atFirstCheck_answers (e : Env) : atFirstCheck e.answers = (atFirstCheck e).answers := by
  simp only [atFirstCheck, ticked_answers, nextSample_answers]

/-- The collaborators after `n` wait_acks with one TICK and one SAMPLE each (R105). -/
def afterAcks (n : Nat) (e : Env) : Env :=
  match n with
  | 0 => e
  | n + 1 => afterAcks n (atFirstCheck e)

/-- What the TICKs of these wait_acks answer (R209). -/
def ackTicks (w n : Nat) (e : Env) : List Nat :=
  match n with
  | 0 => []
  | n + 1 => e.ticked.tickNow % 2 ^ w :: ackTicks w n (atFirstCheck e)

theorem length_ackTicks (w n : Nat) (e : Env) : (ackTicks w n e).length = n := by
  induction n generalizing e with
  | zero => rfl
  | succ n ih => exact congrArg (· + 1) (ih _)

/-- The first SAMPLE of a wait_ack is the next one, and those after it do not depend on its TICK. -/
theorem drawSamples_atFirstCheck (n : Nat) (e : Env) :
    (drawSamples (n + 1) e).1 = (nextSample e).1 :: (drawSamples n (atFirstCheck e)).1 := by
  obtain ⟨hsamples, hno, -⟩ := nextTickStep_rest e
  obtain ⟨-, hs, hn⟩ := nextSample_congr (e := e) (e' := e.ticked) hsamples hno
  rw [drawSamples, drawSamples_congr (e := (nextSample e).2) (e' := atFirstCheck e) n hs hn]

theorem drawSamples_afterAcks (m n : Nat) (e : Env) :
    (drawSamples (m + n) e).1 = (drawSamples m e).1 ++ (drawSamples n (afterAcks m e)).1 := by
  induction m generalizing e with
  | zero => rw [Nat.zero_add]; rfl
  | succ m ih => rw [Nat.add_right_comm, drawSamples_atFirstCheck, drawSamples_atFirstCheck, ih]; rfl

/-- The SAMPLE answers that the run has fixed come in its order. -/
theorem drawSamples_of_samples {e : Env} {n : Nat} {vs rest : List Level} (h : e.samples = vs ++ rest) (hn : vs.length = n) :
    drawSamples n e = (vs, { e with samples := rest }) := by
  subst hn
  induction vs generalizing e with
  | nil => simp only [List.nil_append] at h; rw [← h]; rfl
  | cons v vs ih =>
    have hnext : nextSample e = (v, { e with samples := vs ++ rest }) := by simp [nextSample, h]
    rw [List.length_cons, drawSamples, hnext, ih rfl]

theorem afterAcks_samples {e : Env} {m : Nat} {vs rest : List Level} (h : e.samples = vs ++ rest) (hm : vs.length = m) :
    (afterAcks m e).samples = rest := by
  subst hm
  induction vs generalizing e with
  | nil => exact h
  | cons v vs ih =>
    refine ih ?_
    obtain ⟨hsamples, -⟩ := nextTickStep_rest e
    have hticked : e.ticked.samples = v :: (vs ++ rest) := hsamples.trans h
    simp [atFirstCheck, nextSample, hticked]

theorem ticked_of_steps {e : Env} {d : Nat} {ds : List Nat} (h : e.tickSteps = d :: ds) :
    e.ticked = { e with tickSteps := ds, tickNow := e.tickNow + d } := by
  simp [Env.ticked, nextTickStep, h]

theorem atFirstCheck_of_steps {e : Env} {d : Nat} {ds : List Nat} (h : e.tickSteps = d :: ds) :
    (atFirstCheck e).tickSteps = ds ∧ (atFirstCheck e).tickNow = e.tickNow + d := by
  obtain ⟨hnow, hsteps, -⟩ := nextSample_rest e.ticked
  rw [ticked_of_steps h] at hnow hsteps
  exact ⟨by rw [atFirstCheck, ticked_of_steps h, hsteps], by rw [atFirstCheck, ticked_of_steps h, hnow]⟩

/-- The tick source after acknowledged waits whose increases the run has fixed (R209). -/
theorem afterAcks_of_steps (w : Nat) {e : Env} {m : Nat} {pre ds : List Nat} (h : e.tickSteps = pre ++ ds)
    (hm : pre.length = m) :
    (afterAcks m e).tickSteps = ds ∧ (afterAcks m e).tickNow = e.tickNow + pre.sum ∧
      ackTicks w m e = tickValues w e.tickNow pre := by
  subst hm
  induction pre generalizing e with
  | nil => exact ⟨h, rfl, rfl⟩
  | cons d pre ih =>
    obtain ⟨hsteps, hnow⟩ := atFirstCheck_of_steps (ds := pre ++ ds) h
    obtain ⟨hsteps', hnow', hticks⟩ := ih hsteps
    refine ⟨hsteps', ?_, ?_⟩
    · rw [List.length_cons, afterAcks, hnow', hnow, List.sum_cons, Nat.add_assoc]
    · rw [List.length_cons, ackTicks, hticks, hnow, ticked_of_steps (ds := pre ++ ds) h, tickValues]

/-! ## The time checks of a wait_ack that times out -/

theorem timeoutReached_counter (w u0 e : Nat) (timeout : BitVec 16) :
    timeoutReached w ((u0 + e) % 2 ^ w) (u0 % 2 ^ w) timeout = decide (timeout.toNat ≤ e % 2 ^ w) := by
  rw [timeoutReached, elapsed_counter (Nat.le_add_right u0 e), Nat.add_sub_cancel_left]

/-- Under law 2 the elapsed time has not wrapped when the timeout is first reached (R209). -/
theorem timeout_le_mod {m lim e d : Nat} (he : e = 0 ∨ e < lim) (hlaw : d ≤ m - lim) (h : lim ≤ e + d) :
    lim ≤ (e + d) % m := by
  rcases Nat.eq_zero_or_pos lim with rfl | hpos
  · exact Nat.zero_le _
  · rwa [Nat.mod_eq_of_lt (by omega)]

section
variable {i : Instr} {s : State} {site : Site} (hi : sites i ≠ []) (hp : site ≠ .readData)
include hi hp

/-- A time check whose increase the run has fixed, within law 2 (R105, R209). -/
theorem check_of_steps {u0 e d : Nat} {ds : List Nat} (h : Running s) (hc : s.ctrl = .call site .check)
    (ht0 : s.t0 = u0 % 2 ^ s.cfg.tickW) (hnow : s.env.tickNow = u0 + e) (hsteps : s.env.tickSteps = d :: ds)
    (hlaw : d ≤ 2 ^ s.cfg.tickW - i.timeout.toNat) :
    exec i s = .next (call site (if i.timeout.toNat ≤ (e + d) % 2 ^ s.cfg.tickW then stopPos .timedOut else .poll)
      (State.emit { s with env := s.env.ticked } (.tick ((u0 + e + d) % 2 ^ s.cfg.tickW)))) := by
  have hd : (nextTickStep s.env).1 = d := by simp [nextTickStep, hsteps]
  have hticked : s.env.ticked.tickNow = u0 + (e + d) := by rw [ticked_of_steps hsteps, hnow, Nat.add_assoc]
  have hreached : timeoutReached s.cfg.tickW ((u0 + (e + d)) % 2 ^ s.cfg.tickW) s.t0 i.timeout =
      decide (i.timeout.toNat ≤ (e + d) % 2 ^ s.cfg.tickW) := by rw [ht0, timeoutReached_counter]
  have hstep := check_step hi h hc hp
  rw [argsOf_timeout, tickEvent_within (m := maxTickStep s.cfg.tickW i.timeout) (hd.trans_le hlaw), tickEvent_none,
    hticked, hreached] at hstep
  simpa only [decide_eq_true_eq, Nat.add_assoc] using hstep

/-- A time check that is short of the timeout, and the next SAMPLE, which sees no acknowledge (R105). -/
theorem shortCheck_runs {u0 e d : Nat} {ds : List Nat} (h : Running s) (hc : s.ctrl = .call site .check)
    (ht0 : s.t0 = u0 % 2 ^ s.cfg.tickW) (hnow : s.env.tickNow = u0 + e) (hsteps : s.env.tickSteps = d :: ds)
    (hlaw : d ≤ 2 ^ s.cfg.tickW - i.timeout.toNat) (hshort : e + d < i.timeout.toNat) (hs : (nextSample s.env).1 = true) :
    ∃ v, execFor i 2 s = .next (call site .check v) ∧ CallFrame i.bus s v ∧ v.t0 = s.t0 ∧ v.env = atFirstCheck s.env ∧
      v.trace = .sample i.bus true :: .tick ((u0 + e + d) % 2 ^ s.cfg.tickW) :: s.trace := by
  have hcheck := check_of_steps hi hp h hc ht0 hnow hsteps hlaw
  rw [if_neg (not_le.mpr ((Nat.mod_le ..).trans_lt hshort))] at hcheck
  have hpoll := poll_step (i := i) (s := call site .poll
    (State.emit { s with env := s.env.ticked } (.tick ((u0 + e + d) % 2 ^ s.cfg.tickW)))) hi h rfl hp
  have hsample : (nextSample s.env.ticked).1 = true := (nextSample_ticked s.env).trans hs
  rw [call_env, emit_env, hsample, sampleEvent_eq, call_env, emit_env, hsample] at hpoll
  exact ⟨_, (execFor_succ hcheck).trans (execFor_one hpoll), .datapath i.bus (s.goto _) s.shift s.bitCnt s.t0 s.ackOk _ _,
    rfl, rfl, rfl⟩

/-- From a time check on, the checks time out at the last of the increases `d :: ds` (R105, R209). -/
theorem checks_time_out {u0 e d : Nat} {ds ds' : List Nat} (h : Running s) (hc : s.ctrl = .call site .check)
    (ht0 : s.t0 = u0 % 2 ^ s.cfg.tickW) (hnow : s.env.tickNow = u0 + e) (he : e = 0 ∨ e < i.timeout.toNat)
    (hsteps : s.env.tickSteps = d :: ds ++ ds') (hs : (drawSamples ds.length s.env).1 = List.replicate ds.length true)
    (hto : timesOut s.cfg.tickW i.timeout.toNat e (d :: ds) = true) :
    ∃ k v, execFor i k s = .next (call site (stopPos .timedOut) v) ∧ CallFrame i.bus s v ∧
      v.trace = (.tick ((u0 + e + d) % 2 ^ s.cfg.tickW) ::
        pollEvents i.bus (tickValues s.cfg.tickW (u0 + e + d) ds)).reverse ++ s.trace := by
  induction ds generalizing s e d with
  | nil =>
    simp only [timesOut, Bool.and_eq_true, decide_eq_true_eq] at hto
    obtain ⟨hlaw, hreached⟩ := hto
    have hstep := check_of_steps hi hp h hc ht0 hnow hsteps hlaw
    rw [if_pos (timeout_le_mod he hlaw hreached)] at hstep
    exact ⟨1, _, execFor_one hstep, .datapath i.bus (s.goto _) s.shift s.bitCnt s.t0 s.ackOk _ _, rfl⟩
  | cons d' ds ih =>
    simp only [timesOut, Bool.and_eq_true, decide_eq_true_eq] at hto
    obtain ⟨⟨hlaw, hshort⟩, hto⟩ := hto
    rw [List.length_cons, drawSamples_atFirstCheck, List.replicate_succ, List.cons.injEq] at hs
    obtain ⟨hsample, hs⟩ := hs
    obtain ⟨v, hround, hv, hvt0, hvenv, hvtrace⟩ := shortCheck_runs hi hp h hc ht0 hnow hsteps hlaw hshort hsample
    obtain ⟨hsteps', hnow'⟩ := atFirstCheck_of_steps (ds := d' :: ds ++ ds') hsteps
    rw [← hvenv] at hs hsteps' hnow'
    have hcfg : v.cfg = s.cfg := hv.cfg
    obtain ⟨k, x, hk, hx, htrace⟩ := ih (s := call site .check v) (e := e + d) (d := d') (hv.running h) rfl
      (hvt0.trans (hcfg ▸ ht0)) (by rw [call_env, hnow', hnow, Nat.add_assoc]) (.inr hshort) hsteps' hs (hcfg ▸ hto)
    refine ⟨2 + k, x, (execFor_add hround k).trans hk, hv.trans hx, ?_⟩
    rw [htrace, call_trace, hvtrace, call_cfg, hcfg]
    simp [tickValues, pollEvents, Nat.add_assoc]

/-- wait_ack whose SAMPLEs see no acknowledge times out at the last of the increases `ds` before its time checks, with its bus
idle-high (R105, R190, R209). -/
theorem wait_times_out {d0 : Nat} {ds ds' : List Nat} (h : Running s) (hc : s.ctrl = .call site waitPos)
    (hsteps : s.env.tickSteps = d0 :: ds ++ ds') (hs : (drawSamples ds.length s.env).1 = List.replicate ds.length true)
    (hto : timesOut s.cfg.tickW i.timeout.toNat 0 ds = true) :
    ∃ k u, execFor i k s = orFault .noControlPoint (flowOf i site u) ∧ CallFrame i.bus s u ∧ u.ackOk = false ∧
      (u.bus i.bus).idleHigh ∧
      u.trace = (waitFailEvents i.bus (s.bus i.bus).bitDelayUs ((s.env.tickNow + d0) % 2 ^ s.cfg.tickW)
        (tickValues s.cfg.tickW (s.env.tickNow + d0) ds)).reverse ++ s.trace := by
  cases ds with
  | nil => cases hto
  | cons d ds =>
    rw [List.length_cons, drawSamples_atFirstCheck, List.replicate_succ, List.cons.injEq] at hs
    obtain ⟨hsample, hs⟩ := hs
    obtain ⟨hsteps', hnow⟩ := atFirstCheck_of_steps (ds := d :: ds ++ ds') hsteps
    have hanswer : tickAnswer s = (s.env.tickNow + d0) % 2 ^ s.cfg.tickW := by
      rw [tickAnswer, ticked_of_steps (ds := d :: ds ++ ds') hsteps]
    obtain ⟨k1, h1⟩ := firstPoll_runs hi hp h hc
    rw [hsample] at h1
    have hu := (firstPoll_untouched i.bus s).callFrame (.call site .check)
    obtain ⟨k2, v, h2, hv, hvtrace⟩ := checks_time_out (i := i) (s := call site .check (firstPoll i.bus s)) (e := 0) hi hp
      (hu.running h) rfl hanswer hnow (.inl rfl) hsteps' hs hto
    have hf : CallFrame i.bus s (call site (stopPos .timedOut) v) := (hu.trans hv).call ..
    obtain ⟨k3, u, h3, hu3, hack, -, hidle, htrace⟩ := timedOut_returns (i := i) (s := call site (stopPos .timedOut) v) hi hp
      (hf.running h) rfl
    refine ⟨k1 + (k2 + k3), u, (execFor_add h1 _).trans ((execFor_add h2 _).trans h3), hf.trans hu3, hack, hidle, ?_⟩
    have hfirst : (firstPoll i.bus s).trace = (waitHead i.bus (tickAnswer s) ++ [Event.sample i.bus true]).reverse ++ s.trace := by
      rw [← hsample]; rfl
    rw [htrace, hf.delay, call_trace, hvtrace, call_trace, call_cfg, (firstPoll_untouched i.bus s).cfg, hfirst, hanswer]
    simp [waitFailEvents, pollEvents, tickValues]

end
end Sys2Proof.Machine
end

section
/-! PROOFS. What a transaction has emitted so far: from its accept through its calls to its respond. -/

namespace Sys2Proof.Machine

/-- Command `i`, accepted in state `s`, is in progress in state `t` and has emitted `evs`; the collaborators' coming answers are
`e`, and the buffer is `m`. -/
structure Emitted (i : Instr) (s : State) (evs : List Event) (e : Env) (m : Memory) (t : State) : Prop where
  inProgress : InProgress i s t
  trace : t.trace = evs.reverse ++ s.trace
  answers : t.env.answers = e
  buf : t.buf = m

/-- Command `i` runs from its accept in state `s` to state `t`. -/
structure Reaches (i : Instr) (s : State) (evs : List Event) (e : Env) (m : Memory) (t : State) : Prop
    extends Emitted i s evs e m t where
  run : ∃ k, execFor i k (acceptedState i s) = .next t

/-- Command `i` runs from its accept in state `s` until the primitive called from `site` returns in state `u`. -/
structure Returns (i : Instr) (s : State) (evs : List Event) (e : Env) (m : Memory) (site : Site) (u : State) : Prop
    extends Emitted i s evs e m u where
  run : ∃ k, execFor i k (acceptedState i s) = orFault .noControlPoint (flowOf i site u)

section
variable {i : Instr} {s t u v : State} {evs evs' : List Event} {e e' : Env} {m m' : Memory} {site : Site} {k : Nat}

theorem Emitted.delay (h : Emitted i s evs e m t) : (t.bus i.bus).bitDelayUs = (s.bus i.bus).bitDelayUs :=
  h.inProgress.delay

theorem Emitted.of_call (h : Emitted i s evs e m t) (hf : CallFrame i.bus t u) (htr : u.trace = evs'.reverse ++ t.trace)
    (he : u.env.answers = e') : Emitted i s (evs ++ evs') e' m u where
  inProgress := h.inProgress.of_frame hf
  trace := by rw [htr, h.trace, List.reverse_append, List.append_assoc]
  answers := he
  buf := hf.buf.trans h.buf

theorem Emitted.of_goesOn {cs : Option BusIx} (h : Emitted i s evs e m t) (hg : GoesOn { t with csHeld := cs } u)
    (htr : u.trace = evs'.reverse ++ t.trace) (he : u.env.answers = t.env.answers) : Emitted i s (evs ++ evs') e m u where
  inProgress := h.inProgress.of_goesOn (m := t.buf) hg fun _ => rfl
  trace := by rw [htr, h.trace, List.reverse_append, List.append_assoc]
  answers := he.trans h.answers
  buf := hg.buf.trans h.buf

theorem Emitted.goto (h : Emitted i s evs e m t) (c : Ctrl) : Emitted i s evs e m (t.goto c) :=
  ⟨h.inProgress.goto c, h.trace, h.answers, h.buf⟩

theorem Reaches.of_run (h : Reaches i s evs e m t) (hk : execFor i k t = .next u)
    (hu : Emitted i s evs' e' m' u) : Reaches i s evs' e' m' u :=
  ⟨hu, execFor_trans h.run ⟨k, hk⟩⟩

theorem Reaches.of_return (h : Reaches i s evs e m t) (hk : execFor i k t = orFault .noControlPoint (flowOf i site u))
    (hu : Emitted i s evs' e' m u) : Returns i s evs' e' m site u := by
  obtain ⟨j, hj⟩ := h.run
  exact ⟨hu, j + k, (execFor_add hj k).trans hk⟩

/-- After a primitive has returned the command's flow goes on, without an event (R37). -/
theorem Returns.reaches (h : Returns i s evs e m site u) (hv : flowOf i site u = some v) (henv : v.env = u.env) :
    Reaches i s evs e m v where
  toEmitted := by
    have hgoes := h.toEmitted.of_goesOn (evs' := []) (flowOf_goesOn hv) (flowOf_trace hv) (congrArg Env.answers henv)
    rwa [List.append_nil] at hgoes
  run := by
    have hrun := h.run
    rwa [hv] at hrun

theorem lineEvents_answers (b : BusIx) (ops : List LineOp) (s : State) :
    (lineEvents b ops s).env.answers = s.env.answers := by
  rw [lineEvents_eq]
  rfl

section
variable (hi : Instr.isTransaction i = true)
include hi

/-! ## The calls of a transaction, with their events -/

/-- A straight piece that returns: start, stop. -/
theorem Reaches.piece {op : LineOp} {rest : List LineOp} (h : Reaches i s evs e m t)
    (hc : t.ctrl = .call site (.seg op rest .ret)) (hp : site ≠ .readData) :
    ∃ u, Returns i s (evs ++ (op :: rest).map fun op => lineOpEvent i.bus op s) e m site u ∧
      u.byteIdx = t.byteIdx ∧ u.bus i.bus = latchesAfter (op :: rest) (t.bus i.bus) := by
  obtain ⟨k, c, hk⟩ := piece_returns (sites_ne_nil_of_isTransaction hi) h.inProgress.running hc fun he => absurd he hp
  have hu := lineEvents_untouched i.bus (op :: rest) t
  have hev : (fun op => lineOpEvent i.bus op t) = fun op => lineOpEvent i.bus op s :=
    funext (lineOpEvent_congr h.delay)
  refine ⟨_, h.of_return hk (h.toEmitted.of_call (hu.callFrame c) ?_ ?_), hu.byteIdx, lineEvents_bus i.bus (op :: rest) t⟩
  · rw [← hev]
    exact lineEvents_trace i.bus (op :: rest) t
  · exact (lineEvents_answers i.bus (op :: rest) t).trans h.answers

theorem Reaches.start (h : Reaches i s evs e m t) (hc : t.ctrl = .call site startPos) (hp : site ≠ .readData) :
    ∃ u, Returns i s (evs ++ startEvents i.bus (s.bus i.bus).bitDelayUs) e m site u ∧ u.byteIdx = t.byteIdx := by
  obtain ⟨u, hu, hidx, -⟩ := h.piece hi hc hp
  exact ⟨u, hu, hidx⟩

/-- A stop leaves the bus idle-high (R102). -/
theorem Reaches.stop (h : Reaches i s evs e m t) (hc : t.ctrl = .call site (stopPos .ret)) (hp : site ≠ .readData) :
    ∃ u, Returns i s (evs ++ stopEvents i.bus (s.bus i.bus).bitDelayUs) e m site u ∧ (u.bus i.bus).idleHigh := by
  obtain ⟨u, hu, -, hbus⟩ := h.piece hi hc hp
  exact ⟨u, hu, hbus ▸ latchesAfter_stopOps (t.bus i.bus)⟩

/-- send_byte sends SHIFT (R103). -/
theorem Reaches.send (h : Reaches i s evs e m t) (hc : t.ctrl = .call site sendPos) (hp : site ≠ .readData) :
    ∃ u, Returns i s (evs ++ sendEvents i.bus (s.bus i.bus).bitDelayUs t.shift) e m site u ∧ u.byteIdx = t.byteIdx := by
  obtain ⟨k, c, hk⟩ := send_runs (sites_ne_nil_of_isTransaction hi) h.inProgress.running hc hp
  have hu : Untouched i.bus t ((lineEvents i.bus (sendOps t.shift) t).setBitCnt 0) :=
    (lineEvents_untouched ..).trans (.setBitCnt ..)
  have htrace := lineEvents_trace i.bus (sendOps t.shift) t
  rw [map_sendOps, h.delay] at htrace
  have hanswers := (lineEvents_answers i.bus (sendOps t.shift) t).trans h.answers
  generalize lineEvents i.bus (sendOps t.shift) t = u at hk hu htrace hanswers
  exact ⟨_, h.of_return hk (h.toEmitted.of_call (hu.callFrame c) htrace hanswers), hu.byteIdx⟩

/-- wait_ack acknowledged at its first SAMPLE (R105). -/
theorem Reaches.wait_acked (h : Reaches i s evs e m t) (hc : t.ctrl = .call site waitPos) (hp : site ≠ .readData)
    (hs : (nextSample e).1 = false) :
    ∃ u, Returns i s (evs ++ waitOkEvents i.bus (e.ticked.tickNow % 2 ^ s.cfg.tickW)) (atFirstCheck e) m site u ∧
      u.ackOk = true ∧ u.byteIdx = t.byteIdx := by
  have hsample : (nextSample t.env).1 = false := by
    rw [← h.answers, nextSample_answers] at hs
    exact hs
  have hanswer : tickAnswer t = e.ticked.tickNow % 2 ^ s.cfg.tickW := by
    rw [tickAnswer, h.inProgress.cfg, ← h.answers, ticked_answers]
    rfl
  obtain ⟨k, c, hk⟩ := wait_acked_at_once (sites_ne_nil_of_isTransaction hi) hp h.inProgress.running hc hsample
  have hu := ackedAtOnce_untouched i.bus t
  have htrace : (ackedAtOnce i.bus t).trace = (waitOkEvents i.bus (tickAnswer t)).reverse ++ t.trace := rfl
  have henv : (ackedAtOnce i.bus t).env = atFirstCheck t.env := rfl
  have hack : (ackedAtOnce i.bus t).ackOk = true := rfl
  generalize ackedAtOnce i.bus t = u at hk hu htrace henv hack
  rw [hanswer] at htrace
  have hanswers : u.env.answers = atFirstCheck e := by rw [henv, ← atFirstCheck_answers, h.answers]
  exact ⟨_, h.of_return hk (h.toEmitted.of_call (hu.callFrame c) htrace hanswers), hack, hu.byteIdx⟩

/-- wait_ack that times out at its last time check (R105, R190, R209). -/
theorem Reaches.wait_timed_out {d0 : Nat} {ds ds' : List Nat} (h : Reaches i s evs e m t) (hc : t.ctrl = .call site waitPos)
    (hp : site ≠ .readData) (hsteps : e.tickSteps = d0 :: ds ++ ds')
    (hs : (drawSamples ds.length e).1 = List.replicate ds.length true)
    (hto : timesOut s.cfg.tickW i.timeout.toNat 0 ds = true) :
    ∃ e' u, Returns i s (evs ++ waitFailEvents i.bus (s.bus i.bus).bitDelayUs ((e.tickNow + d0) % 2 ^ s.cfg.tickW)
        (tickValues s.cfg.tickW (e.tickNow + d0) ds)) e' m site u ∧
      u.ackOk = false ∧ (u.bus i.bus).idleHigh := by
  rw [← h.answers, drawSamples_answers] at hs
  have hsteps' : t.env.tickSteps = d0 :: ds ++ ds' := by rw [← hsteps, ← h.answers]; rfl
  have hnow : t.env.tickNow = e.tickNow := by rw [← h.answers]; rfl
  rw [← h.inProgress.cfg] at hto
  obtain ⟨k, u, hk, hu, hack, hidle, htrace⟩ :=
    Machine.wait_times_out (sites_ne_nil_of_isTransaction hi) hp h.inProgress.running hc hsteps' hs hto
  rw [h.delay, h.inProgress.cfg, hnow] at htrace
  exact ⟨_, u, h.of_return hk (h.toEmitted.of_call hu htrace rfl), hack, hidle⟩

/-! ## The beginning of a transaction -/

/-- From the accept to the first address byte (R140). -/
theorem reaches_firstSend {v : Byte} (hr : Ready s)
    (hflow : ∀ u, flowOf i .openStart u = some (sendAddress site v u)) :
    ∃ t, Reaches i s ([.csEnter i.bus] ++ startEvents i.bus (s.bus i.bus).bitDelayUs) s.env.answers (acceptedState i s).buf t ∧
      t.ctrl = .call site sendPos ∧ t.shift = v := by
  have hin := acceptedState_inProgress (i := i) hr
  have hc : (acceptedState i s).ctrl = .csEnter := by rw [acceptedState, firstOf_transaction hi, goto_ctrl]
  have henv : (acceptedState i s).env = s.env := by rw [acceptedState, firstOf_transaction hi, goto_env, takeBuffer_env]; rfl
  have htrace : (acceptedState i s).trace = s.trace := by
    rw [acceptedState, firstOf_trace, takeBuffer_trace]; rfl
  have haccepted : Reaches i s [] s.env.answers (acceptedState i s).buf (acceptedState i s) :=
    ⟨⟨hin, htrace, congrArg Env.answers henv, rfl⟩, 0, rfl⟩
  obtain ⟨k, hk⟩ := enter_runs (sites_ne_nil_of_isTransaction hi) hin.running hc
  have hentered := haccepted.of_run hk (haccepted.toEmitted.of_goesOn (evs' := [.csEnter i.bus]) (.of_writes ..) rfl rfl)
  obtain ⟨u, hu, -⟩ := hentered.start hi rfl nofun
  exact ⟨_, hu.reaches (hflow u) rfl, rfl, rfl⟩

end
end

/-! ## The end of a transaction -/

/-- Command `i`, accepted in state `s`, has completed in state `t` with response `(st, 0)`, having emitted `evs`: its bus is
idle-high, PHASE IDLE, no section is held, and the buffer is `m` (R140, R147). -/
structure Ended (i : Instr) (st : Status) (evs : List Event) (m : Memory) (s t : State) : Prop where
  run : ∃ k, execFor i k (acceptedState i s) = .next t
  done : CommandDone i st 0 s t
  idleHigh : (t.bus i.bus).idleHigh
  phase : t.phase = .idle
  csHeld : t.csHeld = none
  buf : t.buf = m
  trace : t.trace = .resp (respWord st 0) :: (evs.reverse ++ s.trace)

theorem Ended.count {i : Instr} {st : Status} {evs : List Event} {m : Memory} {s t : State} (h : Ended i st evs m s t) :
    eventCount t.trace = eventCount s.trace + eventCount evs := by
  rw [h.trace, eventCount_responded]

section
variable {i : Instr} {s t u : State} {evs : List Event} {e : Env} {m : Memory} {site : Site} {st : Status}
variable (hi : Instr.isTransaction i = true)
include hi

/-- CS_EXIT, then the respond (R140). -/
theorem Reaches.leaves (h : Reaches i s evs e m t) (hc : t.ctrl = .csExit st) (hidle : (t.bus i.bus).idleHigh)
    (hst : st ≠ .illegal) : ∃ u, Ended i st (evs ++ [.csExit i.bus]) m s u := by
  have hne := sites_ne_nil_of_isTransaction hi
  have hexit : exec i t = .next (csExitStep i.bus st t) := by
    rw [exec_running hne h.inProgress.running, runBusy, hc, argsOf_bus]
  have hout := h.of_run (execFor_one hexit)
    (h.toEmitted.of_goesOn (cs := none) (evs' := [.csExit i.bus]) (.of_writes ..) rfl rfl)
  obtain ⟨k, hk⟩ := hout.run
  exact ⟨_, {
    run := ⟨k + 1, (execFor_add hk 1).trans (execFor_one (hout.inProgress.exec_respond hne rfl))⟩
    done := hout.inProgress.commandDone hst
    idleHigh := hidle
    phase := rfl
    csHeld := rfl
    buf := hout.buf
    trace := congrArg (_ :: ·) hout.trace }⟩

/-- The closing stop, then OK (R140). -/
theorem Reaches.closes (h : Reaches i s evs e m t) (hc : t.ctrl = .call .closeStop (stopPos .ret)) :
    ∃ u, Ended i .ok (evs ++ stopEvents i.bus (s.bus i.bus).bitDelayUs ++ [.csExit i.bus]) m s u := by
  obtain ⟨u, hu, hidle⟩ := h.stop hi hc nofun
  exact (hu.reaches (flowOf_closeStop hi u) rfl).leaves hi rfl hidle nofun

/-- The stop after a failed wait_ack, then FAIL (R141, R145). -/
theorem Reaches.abortStops (h : Reaches i s evs e m t) (hc : t.ctrl = .call .abortStop (stopPos .ret)) :
    ∃ u, Ended i .fail (evs ++ stopEvents i.bus (s.bus i.bus).bitDelayUs ++ [.csExit i.bus]) m s u := by
  obtain ⟨u, hu, hidle⟩ := h.stop hi hc nofun
  exact (hu.reaches (flowOf_abortStop hi u) rfl).leaves hi rfl hidle nofun

/-- After a failed wait_ack, which has stopped the bus itself: the engine's own stop under ENGINE_ABORT_STOP (R145). -/
theorem Returns.aborts (h : Returns i s evs e m site u) (hflow : flowOf i site u = some (abort u))
    (hidle : (u.bus i.bus).idleHigh) :
    ∃ t, Ended i .fail (evs ++ abortEvents s.cfg i.bus (s.bus i.bus).bitDelayUs ++ [.csExit i.bus]) m s t := by
  unfold abortEvents
  rw [← h.inProgress.cfg]
  cases hstop : u.cfg.engineAbortStop with
  | true =>
    rw [abort, if_pos hstop] at hflow
    exact (h.reaches hflow rfl).abortStops hi rfl
  | false =>
    rw [abort, if_neg (by simp [hstop])] at hflow
    rw [if_neg nofun, List.append_nil]
    exact (h.reaches hflow rfl).leaves hi rfl hidle nofun

end
end Sys2Proof.Machine
end

section
/-! PROOFS. The parts of a transaction that end each in a wait_ack: acknowledged one after another, or up to one that times out
(R141 to R145). -/

namespace Sys2Proof.Machine

/-- From state `t` on command `i` sends `part`, with its buffer at `m`, and awaits the acknowledge at `waitSite`; once it has that,
it goes on in a state of which `next` holds. -/
def SendsPart (i : Instr) (s : State) (m : Memory) (part : List Event) (waitSite : Site) (next : State → Prop) (t : State) :
    Prop :=
  ∀ evs e, Reaches i s evs e m t → ∃ w, Reaches i s (evs ++ part) e m w ∧ w.ctrl = .call waitSite waitPos ∧
    ∀ u, u.byteIdx = w.byteIdx → u.ackOk = true → ∃ v, flowOf i waitSite u = some v ∧ v.env = u.env ∧ next v

/-- Transaction `i`, ready to be accepted in state `s`, sends `parts` in turn after its opening start, awaiting the acknowledge of
the `j`-th at `waitSite j`. It is about to send the `j`-th where `stage j` holds, and has sent all where `stage parts.length` does. -/
structure Script (i : Instr) (s : State) (parts : List (List Event)) (waitSite : Nat → Site) (stage : Nat → State → Prop) :
    Prop where
  ready : Ready s
  transaction : Instr.isTransaction i = true
  opens : ∃ site v, (∀ u, flowOf i .openStart u = some (sendAddress site v u)) ∧
    ∀ t, t.ctrl = .call site sendPos → t.shift = v → stage 0 t
  sends : ∀ j (hj : j < parts.length) t, stage j t →
    SendsPart i s (acceptedState i s).buf parts[j] (waitSite j) (stage (j + 1)) t
  waits : ∀ j, waitSite j ≠ .readData

section
variable {i : Instr} {s t : State} {evs : List Event} {e : Env} {m : Memory} {site waitSite : Site} {next : State → Prop}

/-- What comes before a part's last send_byte belongs to the part. -/
theorem SendsPart.prepend {pre part : List Event}
    (h : ∀ evs e, Reaches i s evs e m t →
      ∃ u, Reaches i s (evs ++ pre) e m u ∧ SendsPart i s m part waitSite next u) :
    SendsPart i s m (pre ++ part) waitSite next t := by
  intro evs e ht
  obtain ⟨u, hu, hsends⟩ := h evs e ht
  rw [← List.append_assoc]
  exact hsends _ e hu

/-- A part that is one send_byte. -/
theorem sendsPart_of_send {v : Byte} (hi : Instr.isTransaction i = true) (hc : t.ctrl = .call site sendPos) (hv : t.shift = v)
    (hp : site ≠ .readData) (hflow : ∀ u, flowOf i site u = some (call waitSite waitPos u))
    (hnext : ∀ u, u.byteIdx = t.byteIdx → u.ackOk = true → ∃ v, flowOf i waitSite u = some v ∧ v.env = u.env ∧ next v) :
    SendsPart i s m (sendEvents i.bus (s.bus i.bus).bitDelayUs v) waitSite next t := by
  subst hv
  intro evs e ht
  obtain ⟨u, hu, hidx⟩ := ht.send hi hc hp
  exact ⟨_, hu.reaches (hflow u) rfl, rfl, fun u' hidx' => hnext u' (hidx'.trans hidx)⟩

end

section
variable {i : Instr} {s t : State} {evs : List Event} {e : Env}
variable {parts : List (List Event)} {waitSite : Nat → Site} {stage : Nat → State → Prop}

/-- Parts acknowledged each at its first SAMPLE, from the `j`-th on. -/
theorem Script.acked_from (hS : Script i s parts waitSite stage) {j n : Nat}
    (h : Reaches i s evs e (acceptedState i s).buf t) (hj : stage j t) (hn : j + n ≤ parts.length)
    (hs : (drawSamples n e).1 = List.replicate n false) :
    ∃ u, Reaches i s (evs ++ ackedEvents i.bus ((parts.drop j).take n) (ackTicks s.cfg.tickW n e)) (afterAcks n e)
      (acceptedState i s).buf u ∧ stage (j + n) u := by
  induction n generalizing j t evs e with
  | zero => exact ⟨t, by simpa [ackedEvents, afterAcks] using h, hj⟩
  | succ n ih =>
    rw [drawSamples_atFirstCheck, List.replicate_succ, List.cons.injEq] at hs
    obtain ⟨hsample, hs⟩ := hs
    obtain ⟨w, hw, hc, hnext⟩ := hS.sends j (by omega) t hj evs e h
    obtain ⟨u, hu, hack, hidx⟩ := hw.wait_acked hS.transaction hc (hS.waits j) hsample
    obtain ⟨v, hv, henv, hstage⟩ := hnext u hidx hack
    obtain ⟨x, hx, hend⟩ := ih (hu.reaches hv henv) hstage (by omega) hs
    refine ⟨x, ?_, by rwa [← Nat.add_assoc, Nat.add_right_comm]⟩
    rw [List.drop_eq_getElem_cons (by omega), List.take_succ_cons, ackTicks, ackedEvents, afterAcks]
    simpa only [List.append_assoc] using hx

/-- The first `n` parts acknowledged each at its first SAMPLE. -/
theorem Script.acked (h : Script i s parts waitSite stage) {n : Nat} (hn : n ≤ parts.length)
    (hs : (drawSamples n s.env).1 = List.replicate n false) :
    ∃ u, Reaches i s ([.csEnter i.bus] ++ startEvents i.bus (s.bus i.bus).bitDelayUs ++
        ackedEvents i.bus (parts.take n) (ackTicks s.cfg.tickW n s.env.answers)) (afterAcks n s.env.answers)
        (acceptedState i s).buf u ∧ stage n u := by
  obtain ⟨site, v, hflow, hstage⟩ := h.opens
  obtain ⟨t, ht, hc, hv⟩ := reaches_firstSend h.transaction h.ready hflow
  have hacked := h.acked_from ht (hstage t hc hv) (n := n) (by omega) ((drawSamples_answers_fst ..).trans hs)
  rwa [List.drop_zero, Nat.zero_add] at hacked

/-- The first `n` parts acknowledged each at its first SAMPLE, and the next one's wait_ack timed out (R145). -/
theorem Script.timed_out (h : Script i s parts waitSite stage) {n d0 : Nat} {pre ds ds' : List Nat}
    (hn : n < parts.length)
    (hs : (drawSamples (n + ds.length) s.env).1 = List.replicate n false ++ List.replicate ds.length true)
    (hsteps : s.env.tickSteps = pre ++ d0 :: ds ++ ds') (hpre : pre.length = n)
    (hto : timesOut s.cfg.tickW i.timeout.toNat 0 ds = true) :
    ∃ e u, Returns i s ([.csEnter i.bus] ++ startEvents i.bus (s.bus i.bus).bitDelayUs ++
        ackedEvents i.bus (parts.take n) (tickValues s.cfg.tickW s.env.tickNow pre) ++ parts.getD n [] ++
        waitFailEvents i.bus (s.bus i.bus).bitDelayUs ((s.env.tickNow + pre.sum + d0) % 2 ^ s.cfg.tickW)
          (tickValues s.cfg.tickW (s.env.tickNow + pre.sum + d0) ds)) e (acceptedState i s).buf (waitSite n) u ∧
      u.ackOk = false ∧ (u.bus i.bus).idleHigh := by
  rw [← drawSamples_answers_fst, drawSamples_afterAcks] at hs
  obtain ⟨hacks, hfails⟩ := List.append_inj hs (by rw [length_drawSamples, List.length_replicate])
  rw [List.append_assoc] at hsteps
  obtain ⟨hsteps', hnow, hticks⟩ := afterAcks_of_steps s.cfg.tickW (e := s.env.answers) hsteps hpre
  obtain ⟨t, ht, hstage⟩ := h.acked hn.le ((drawSamples_answers_fst ..).symm.trans hacks)
  obtain ⟨w, hw, hc, -⟩ := h.sends n hn t hstage _ _ ht
  have hfailed := hw.wait_timed_out h.transaction hc (h.waits n) hsteps' hfails hto
  rw [hnow, hticks] at hfailed
  rwa [List.getD_eq_getElem _ _ hn]

end
end Sys2Proof.Machine
end

section
/-! PROOFS. What each of the four transactions sends, part by part (R141 to R144). -/

namespace Sys2Proof.Machine

theorem unlessAborted_acked {next : State → State} {u : State} (h : u.ackOk = true) : unlessAborted next u = next u := if_pos h

theorem unlessAborted_failed {next : State → State} {u : State} (h : u.ackOk = false) : unlessAborted next u = abort u :=
  if_neg (by simp [h])

/-- The control point of `writeNext`. -/
def writeLoopCtrl (n k : BitVec 16) : Ctrl := if k = n then .call .closeStop (stopPos .ret) else .bufRd

/-- The control point of `readNext`. -/
def readLoopCtrl (n k : BitVec 16) : Ctrl := if k = n then .call .closeStop (stopPos .ret) else .call .readData readPos

theorem writeNext_eq_goto (n : BitVec 16) (s : State) : writeNext n s = s.goto (writeLoopCtrl n s.byteIdx) := by
  unfold writeNext writeLoopCtrl
  split <;> rfl

theorem readNext_eq_goto (n : BitVec 16) (s : State) : readNext n s = s.goto (readLoopCtrl n s.byteIdx) := by
  unfold readNext readLoopCtrl
  split <;> rfl

/-! ## Where each transaction stands before each of its parts -/

/-- About to send byte `v`, at `site`. -/
def AtSend (site : Site) (v : Byte) (t : State) : Prop := t.ctrl = .call site sendPos ∧ t.shift = v

/-- At the head of the loop over BYTEIDX of READ and READ_SEQ, with no byte received yet. -/
def AtReadLoop (n : BitVec 16) (t : State) : Prop := t.byteIdx = 0 ∧ t.ctrl = readLoopCtrl n 0

/-- PROBE (R141). -/
def probeStage (a8 : Byte) (j : Nat) : State → Prop :=
  match j with
  | 0 => AtSend .sendAddrW a8
  | _ + 1 => fun t => t.ctrl = .call .closeStop (stopPos .ret)

/-- WRITE (R142). -/
def writeStage (a8 reg : Byte) (n : BitVec 16) (j : Nat) : State → Prop :=
  match j with
  | 0 => AtSend .sendAddrW a8
  | 1 => AtSend .sendReg reg
  | j + 2 => fun t => t.byteIdx.toNat = j ∧ t.ctrl = writeLoopCtrl n t.byteIdx

/-- READ (R143). -/
def readStage (a8 reg : Byte) (n : BitVec 16) (j : Nat) : State → Prop :=
  match j with
  | 0 => AtSend .sendAddrW a8
  | 1 => AtSend .sendReg reg
  | 2 => fun t => t.ctrl = .call .repeatStart startPos
  | _ + 3 => AtReadLoop n

/-- READ_SEQ (R144). -/
def readSeqStage (a8 : Byte) (n : BitVec 16) (j : Nat) : State → Prop :=
  match j with
  | 0 => AtSend .sendAddrR (a8 ||| 1)
  | _ + 1 => AtReadLoop n

/-- Where WRITE awaits the acknowledge of its `j`-th part. -/
def writeWait (j : Nat) : Site :=
  match j with
  | 0 => .waitAddrW
  | 1 => .waitReg
  | _ + 2 => .waitData

/-- Where READ awaits the acknowledge of its `j`-th part. -/
def readWait (j : Nat) : Site :=
  match j with
  | 0 => .waitAddrW
  | 1 => .waitReg
  | _ + 2 => .waitAddrR

/-! ## WRITE's data -/

theorem length_dataParts (b : BusIx) (d : BitVec 32) (k : Nat) (bytes : List Byte) :
    (dataParts b d k bytes).length = bytes.length := by
  induction bytes generalizing k with
  | nil => rfl
  | cons v bytes ih => exact congrArg (· + 1) (ih _)

theorem getElem_dataParts (b : BusIx) (d : BitVec 32) (k : Nat) (bytes : List Byte) (j : Nat)
    (hj : j < (dataParts b d k bytes).length) (hj' : j < bytes.length) :
    (dataParts b d k bytes)[j] = .bufRd (BitVec.ofNat 16 (k + j)) bytes[j] :: sendEvents b d bytes[j] := by
  induction bytes generalizing k j with
  | nil => cases hj'
  | cons v bytes ih =>
    cases j with
    | zero => rfl
    | succ j =>
      have hnext := ih (k + 1) j (Nat.lt_of_succ_lt_succ hj) (Nat.lt_of_succ_lt_succ hj')
      rw [Nat.add_right_comm] at hnext
      exact hnext

theorem length_writeParts (b : BusIx) (d : BitVec 32) (a8 reg : Byte) (bytes : List Byte) :
    (writeParts b d a8 reg bytes).length = bytes.length + 2 := by
  simp [writeParts, length_dataParts]

theorem length_presentedBytes (s : State) (n : Nat) : (presentedBytes s n).length = n := by simp [presentedBytes]

section
variable {s : State} {b : BusIx} {a8 reg : Byte} {n timeout : BitVec 16} {m : Memory}

/-- The buffer with which a WRITE, READ or READ_SEQ begins. -/
theorem acceptedState_buf (i : Instr) (s : State) :
    (acceptedState i s).buf = if hasBuffer i then Memory.ofBytes 0 (s.presentedData.take (bufferLen i)) else s.buf := by
  rw [acceptedState, (firstOf_goesOn ..).buf, takeBuffer_buf]
  rfl

/-- It reads as the host gave it (R50). -/
theorem read_acceptedState_buf {i : Instr} (hb : hasBuffer i = true) {j : Nat} (hj : j < bufferLen i) :
    Memory.read (acceptedState i s).buf j = s.presentedData.getD j Memory.unlisted := by
  have hread := read_ofBytes 0 (s.presentedData.take (bufferLen i)) j
  rw [Nat.zero_add] at hread
  rw [acceptedState_buf, if_pos hb, hread, List.getD_eq_getElem?_getD, List.getElem?_take_of_lt hj,
    List.getD_eq_getElem?_getD]

theorem read_write_buf {j : Nat} (hj : j < (presentedBytes s n.toNat).length) :
    Memory.read (acceptedState (.write b a8 reg n timeout) s).buf j = (presentedBytes s n.toNat)[j] := by
  rw [read_acceptedState_buf rfl (by simpa [bufferLen, length_presentedBytes] using hj)]
  simp [presentedBytes]

/-! ## The scripts -/

theorem probe_script (hr : Ready s) (hd : a8.getLsbD 0 = false) :
    Script (.probe b a8 timeout) s [sendEvents b (s.bus b).bitDelayUs a8] (fun _ => .waitAddrW) (probeStage a8) where
  ready := hr
  transaction := rfl
  opens := ⟨.sendAddrW, addrW a8, fun _ => rfl, fun t hc hv => ⟨hc, hv.trans (addrW_of_directionClear hd)⟩⟩
  sends := by
    intro j hj t hstage
    obtain rfl : j = 0 := Nat.lt_one_iff.mp hj
    exact sendsPart_of_send rfl hstage.1 hstage.2 nofun (fun _ => rfl) fun u _ hack =>
      ⟨_, if_pos hack, rfl, rfl⟩
  waits _ := nofun

/-- The byte that WRITE's loop reads, and its BUF_RD, whose index is BYTEIDX (R142). -/
theorem getElem_writeParts {k : BitVec 16} (hk : k.toNat < n.toNat)
    (hlt : k.toNat + 2 < (writeParts b (s.bus b).bitDelayUs a8 reg (presentedBytes s n.toNat)).length) :
    (writeParts b (s.bus b).bitDelayUs a8 reg (presentedBytes s n.toNat))[k.toNat + 2] =
      [.bufRd k (Memory.read (acceptedState (.write b a8 reg n timeout) s).buf k.toNat)] ++
        sendEvents b (s.bus b).bitDelayUs (Memory.read (acceptedState (.write b a8 reg n timeout) s).buf k.toNat) := by
  have hk' : k.toNat < (presentedBytes s n.toNat).length := by rwa [length_presentedBytes]
  have hpart := getElem_dataParts b (s.bus b).bitDelayUs 0 (presentedBytes s n.toNat) k.toNat
    (by rwa [length_dataParts]) hk'
  rw [Nat.zero_add, BitVec.ofNat_toNat, BitVec.setWidth_eq] at hpart
  rw [read_write_buf hk']
  exact hpart

/-- WRITE reads a byte of its buffer and sends it (R142). -/
theorem write_sendsData {t : State} (hlt : t.byteIdx.toNat < n.toNat) (hc : t.ctrl = writeLoopCtrl n t.byteIdx) :
    SendsPart (.write b a8 reg n timeout) s m
      ([.bufRd t.byteIdx (Memory.read m t.byteIdx.toNat)] ++
        sendEvents b (s.bus b).bitDelayUs (Memory.read m t.byteIdx.toNat))
      .waitData (writeStage a8 reg n (t.byteIdx.toNat + 3)) t := by
  have hbufRd : t.ctrl = .bufRd := by
    rw [hc, writeLoopCtrl, if_neg]
    rintro he
    exact absurd (he ▸ hlt) (lt_irrefl _)
  refine SendsPart.prepend fun evs e ht => ?_
  have hstep := execFor_one (exec_bufRd (i := .write b a8 reg n timeout) rfl ht.inProgress.running hbufRd hlt)
  rw [ht.buf] at hstep
  refine ⟨_, ht.of_run hstep (ht.toEmitted.of_goesOn (.of_writes ..) rfl rfl), ?_⟩
  refine sendsPart_of_send rfl rfl rfl nofun (fun _ => rfl) fun u hidx hack =>
    ⟨_, congrArg some ((unlessAborted_acked hack).trans (writeNext_eq_goto ..)), rfl, ?_, rfl⟩
  have hidx' : u.byteIdx = t.byteIdx := hidx
  show (u.byteIdx + 1).toNat = _
  rw [hidx', toNat_succ hlt]

theorem write_script (hr : Ready s) (hd : a8.getLsbD 0 = false) :
    Script (.write b a8 reg n timeout) s (writeParts b (s.bus b).bitDelayUs a8 reg (presentedBytes s n.toNat)) writeWait
      (writeStage a8 reg n) where
  ready := hr
  transaction := rfl
  opens := ⟨.sendAddrW, addrW a8, fun _ => rfl, fun t hc hv => ⟨hc, hv.trans (addrW_of_directionClear hd)⟩⟩
  sends := by
    intro j hj t hstage
    rw [length_writeParts] at hj
    match j, hstage with
    | 0, ⟨hc, hv⟩ =>
      exact sendsPart_of_send rfl hc hv nofun (fun _ => rfl) fun u _ hack =>
        ⟨_, congrArg some (unlessAborted_acked hack), rfl, rfl, rfl⟩
    | 1, ⟨hc, hv⟩ =>
      refine sendsPart_of_send rfl hc hv nofun (fun _ => rfl) fun u _ hack =>
        ⟨_, congrArg some ((unlessAborted_acked hack).trans (writeNext_eq_goto ..)), rfl, rfl, rfl⟩
    | j + 2, ⟨hidx, hc⟩ =>
      subst hidx
      have hlt : t.byteIdx.toNat < n.toNat := by rw [length_presentedBytes] at hj; omega
      rw [getElem_writeParts (timeout := timeout) hlt]
      exact write_sendsData hlt hc
  waits j := by match j with | 0 => nofun | 1 => nofun | _ + 2 => nofun

theorem read_script (hr : Ready s) (hd : a8.getLsbD 0 = false) :
    Script (.read b a8 reg n timeout) s (readParts b (s.bus b).bitDelayUs a8 reg) readWait (readStage a8 reg n) where
  ready := hr
  transaction := rfl
  opens := ⟨.sendAddrW, addrW a8, fun _ => rfl, fun t hc hv => ⟨hc, hv.trans (addrW_of_directionClear hd)⟩⟩
  sends := by
    intro j hj t hstage
    match j, hstage with
    | 0, ⟨hc, hv⟩ =>
      exact sendsPart_of_send rfl hc hv nofun (fun _ => rfl) fun u _ hack =>
        ⟨_, congrArg some (unlessAborted_acked hack), rfl, rfl, rfl⟩
    | 1, ⟨hc, hv⟩ =>
      exact sendsPart_of_send rfl hc hv nofun (fun _ => rfl) fun u _ hack =>
        ⟨_, congrArg some (unlessAborted_acked hack), rfl, rfl⟩
    | 2, hc =>
      refine SendsPart.prepend fun evs e ht => ?_
      obtain ⟨u, hu, -⟩ := ht.start rfl hc nofun
      refine ⟨_, hu.reaches rfl rfl, sendsPart_of_send rfl rfl (addrR_eq_or a8) nofun (fun _ => rfl) fun u _ hack => ?_⟩
      exact ⟨_, congrArg some ((unlessAborted_acked hack).trans (readNext_eq_goto ..)), rfl, rfl, rfl⟩
  waits j := by match j with | 0 => nofun | 1 => nofun | _ + 2 => nofun

theorem readSeq_script (hr : Ready s) :
    Script (.readSeq b a8 n timeout) s [sendEvents b (s.bus b).bitDelayUs (a8 ||| 1)] (fun _ => .waitAddrR)
      (readSeqStage a8 n) where
  ready := hr
  transaction := rfl
  opens := ⟨.sendAddrR, addrR a8, fun _ => rfl, fun t hc hv => ⟨hc, hv.trans (addrR_eq_or a8)⟩⟩
  sends := by
    intro j hj t hstage
    obtain rfl : j = 0 := Nat.lt_one_iff.mp hj
    exact sendsPart_of_send rfl hstage.1 hstage.2 nofun (fun _ => rfl) fun u _ hack =>
      ⟨_, congrArg some ((unlessAborted_acked hack).trans (readNext_eq_goto ..)), rfl, rfl, rfl⟩
  waits _ := nofun

end
end Sys2Proof.Machine
end

section
/-! PROOFS. The four transactions from their accept to their respond, but for the bytes that READ and READ_SEQ receive (O30, O31,
O32, O35, O36, O55). -/

namespace Sys2Proof.Machine

/-! ## Counting a transaction's events -/

section
variable (b : BusIx) (d : BitVec 32)

@[simp] theorem eventCount_startEvents : eventCount (startEvents b d) = 9 := rfl
@[simp] theorem eventCount_stopEvents : eventCount (stopEvents b d) = 9 := rfl
@[simp] theorem eventCount_sendEvents (v : Byte) : eventCount (sendEvents b d v) = 41 := rfl
@[simp] theorem eventCount_waitOkEvents (t0 : Nat) : eventCount (waitOkEvents b t0) = 6 := rfl
@[simp] theorem eventCount_csEnter : eventCount [.csEnter b] = 1 := rfl
@[simp] theorem eventCount_csExit : eventCount [.csExit b] = 1 := rfl

theorem eventCount_pollEvents (ts : List Nat) : eventCount (pollEvents b ts) = 2 * ts.length := by
  induction ts with
  | nil => rfl
  | cons t ts ih =>
    have hcons : pollEvents b (t :: ts) = [.sample b true, .tick t] ++ pollEvents b ts := rfl
    have htwo : eventCount [.sample b true, .tick t] = 2 := rfl
    rw [hcons, eventCount_append, ih, htwo, List.length_cons]
    omega

theorem length_tickValues (w u : Nat) (ds : List Nat) : (tickValues w u ds).length = ds.length := by
  induction ds generalizing u with
  | nil => rfl
  | cons d ds ih => exact congrArg (· + 1) (ih _)

@[simp] theorem eventCount_waitFailEvents (t0 w u : Nat) (ds : List Nat) :
    eventCount (waitFailEvents b d t0 (tickValues w u ds)) = 2 * ds.length + 13 := by
  have hhead : eventCount (waitHead b t0) = 4 := rfl
  rw [waitFailEvents, eventCount_append, eventCount_append, hhead, eventCount_pollEvents, length_tickValues,
    eventCount_stopEvents]
  omega

/-- Each part and the six events of its wait_ack. -/
theorem eventCount_ackedEvents {parts : List (List Event)} {ticks : List Nat} (h : ticks.length = parts.length) :
    eventCount (ackedEvents b parts ticks) = (parts.map eventCount).sum + 6 * parts.length := by
  induction parts generalizing ticks with
  | nil => rfl
  | cons p ps ih =>
    cases ticks with
    | nil => cases h
    | cons t ts =>
      have hps := ih (Nat.succ.inj h)
      rw [ackedEvents, eventCount_append, eventCount_append, hps, eventCount_waitOkEvents, List.map_cons, List.sum_cons,
        List.length_cons]
      omega

theorem sum_eventCount_dataParts (k : Nat) (bytes : List Byte) :
    ((dataParts b d k bytes).map eventCount).sum = 42 * bytes.length := by
  induction bytes generalizing k with
  | nil => rfl
  | cons v bytes ih =>
    have hpart : eventCount (.bufRd (BitVec.ofNat 16 k) v :: sendEvents b d v) = 42 := rfl
    rw [dataParts, List.map_cons, List.sum_cons, ih, hpart, List.length_cons]
    omega

theorem take_dataParts (k j : Nat) (bytes : List Byte) : (dataParts b d k bytes).take j = dataParts b d k (bytes.take j) := by
  induction bytes generalizing k j with
  | nil => simp [dataParts]
  | cons v bytes ih =>
    cases j with
    | zero => rfl
    | succ j => exact congrArg (_ :: ·) (ih (k + 1) j)

theorem eventCount_getD_dataParts {k j : Nat} {bytes : List Byte} (hj : j < bytes.length) :
    eventCount ((dataParts b d k bytes).getD j []) = 42 := by
  have hj' : j < (dataParts b d k bytes).length := by rwa [length_dataParts]
  rw [List.getD_eq_getElem _ _ hj', getElem_dataParts b d k bytes j hj' hj]
  rfl

theorem eventCount_abortEvents (c : Config) : eventCount (abortEvents c b d) = if c.engineAbortStop then 9 else 0 := by
  unfold abortEvents
  split <;> rfl

/-- The events of a transaction that fails at a part, the engine's own stop set aside. -/
theorem eventCount_failed (c : Config) (t0 w u : Nat) (ds : List Nat) {acked part : List Event} {n : Nat}
    (hn : 33 + eventCount acked + eventCount part = n) :
    eventCount ([.csEnter b] ++ startEvents b d ++ acked ++ part ++ waitFailEvents b d t0 (tickValues w u ds) ++
        abortEvents c b d ++ [.csExit b]) + (if c.engineAbortStop then 0 else 9) =
      2 * ds.length + n := by
  subst hn
  simp only [eventCount_append, eventCount_csEnter, eventCount_csExit, eventCount_startEvents, eventCount_waitFailEvents,
    eventCount_abortEvents]
  split <;> omega

/-- WRITE's first `m` parts with their wait_acks, and the part after them (R155). -/
theorem eventCount_writeParts {a8 reg : Byte} {bytes : List Byte} {ticks : List Nat} {m : Nat} (hm : m < bytes.length + 2)
    (ht : ticks.length = m) :
    33 + eventCount (ackedEvents b ((writeParts b d a8 reg bytes).take m) ticks) +
        eventCount ((writeParts b d a8 reg bytes).getD m []) =
      if m = 0 then 74 else if m = 1 then 121 else 169 + 48 * (m - 2) := by
  have hlen : ((writeParts b d a8 reg bytes).take m).length = m := by
    rw [List.length_take, length_writeParts, Nat.min_eq_left hm.le]
  rw [eventCount_ackedEvents b (ht.trans hlen.symm), hlen]
  match m with
  | 0 => rfl
  | 1 => rfl
  | m + 2 =>
    have hdata : eventCount ((writeParts b d a8 reg bytes).getD (m + 2) []) = 42 :=
      eventCount_getD_dataParts b d (Nat.lt_of_add_lt_add_right hm)
    have htake : (writeParts b d a8 reg bytes).take (m + 2) =
        sendEvents b d a8 :: sendEvents b d reg :: dataParts b d 0 (bytes.take m) :=
      congrArg (_ :: _ :: ·) (take_dataParts ..)
    have hbytes : (bytes.take m).length = m := by rw [List.length_take]; omega
    rw [hdata, htake, List.map_cons, List.map_cons, List.sum_cons, List.sum_cons, sum_eventCount_dataParts, hbytes,
      eventCount_sendEvents, eventCount_sendEvents, if_neg (by omega), if_neg (by omega)]
    omega

/-- READ's first `m` parts with their wait_acks, and the part after them (R155). -/
theorem eventCount_readParts {a8 reg : Byte} {ticks : List Nat} {m : Nat} (hm : m < 3) (ht : ticks.length = m) :
    33 + eventCount (ackedEvents b ((readParts b d a8 reg).take m) ticks) + eventCount ((readParts b d a8 reg).getD m []) =
      if m = 0 then 74 else if m = 1 then 121 else 177 := by
  have hlen : ((readParts b d a8 reg).take m).length = m := by
    rw [List.length_take]
    exact Nat.min_eq_left hm.le
  rw [eventCount_ackedEvents b (ht.trans hlen.symm), hlen]
  interval_cases m <;> rfl

end

/-! ## A transaction that fails -/

theorem directionClear_of_address {i : Instr} {a8 : Byte} (ha : i.address = some a8) (hd : a8.getLsbD 0 = false) :
    i.directionClear = true := by
  simp only [Instr.directionClear, ha, hd]
  rfl

/-- An admitted transaction that ends completes (R37). -/
theorem Ended.completes {i : Instr} {s t : State} {a8 : Byte} {st : Status} {evs : List Event} {m : Memory}
    (h : Ended i st evs m s t) (hr : Ready s) (hb : i.busExists s.cfg = true) (ha : i.address = some a8)
    (hd : a8.getLsbD 0 = false) : Completes i s t :=
  ⟨_, exec_admitted hr hb (directionClear_of_address ha hd), h.run⟩

section
variable {i : Instr} {s : State} {parts : List (List Event)} {waitSite : Nat → Site} {stage : Nat → State → Prop}

/-- The first part's wait_ack times out. -/
theorem Script.first_timed_out {part : List Event} (h : Script i s (part :: parts) waitSite stage) {d0 : Nat}
    {ds ds' : List Nat} (hs : (drawSamples ds.length s.env).1 = List.replicate ds.length true)
    (hsteps : s.env.tickSteps = d0 :: ds ++ ds') (hto : timesOut s.cfg.tickW i.timeout.toNat 0 ds = true) :
    ∃ e u, Returns i s ([.csEnter i.bus] ++ startEvents i.bus (s.bus i.bus).bitDelayUs ++ part ++
        waitFailEvents i.bus (s.bus i.bus).bitDelayUs ((s.env.tickNow + d0) % 2 ^ s.cfg.tickW)
          (tickValues s.cfg.tickW (s.env.tickNow + d0) ds)) e (acceptedState i s).buf (waitSite 0) u ∧
      u.ackOk = false ∧ (u.bus i.bus).idleHigh := by
  have hfailed := h.timed_out (n := 0) (pre := []) (Nat.succ_pos _) (by simpa using hs) hsteps rfl hto
  simpa only [List.take_zero, ackedEvents, List.append_nil, List.sum_nil, Nat.add_zero, List.getD_cons_zero] using hfailed

/-- The first part's wait_ack times out, and the engine aborts (R145). -/
theorem Script.first_aborts {part : List Event} (h : Script i s (part :: parts) waitSite stage) {d0 : Nat}
    {ds ds' : List Nat} (hflow : ∀ u, u.ackOk = false → flowOf i (waitSite 0) u = some (abort u))
    (hs : (drawSamples ds.length s.env).1 = List.replicate ds.length true)
    (hsteps : s.env.tickSteps = d0 :: ds ++ ds') (hto : timesOut s.cfg.tickW i.timeout.toNat 0 ds = true) :
    ∃ t, Ended i .fail ([.csEnter i.bus] ++ startEvents i.bus (s.bus i.bus).bitDelayUs ++ part ++
        waitFailEvents i.bus (s.bus i.bus).bitDelayUs ((s.env.tickNow + d0) % 2 ^ s.cfg.tickW)
          (tickValues s.cfg.tickW (s.env.tickNow + d0) ds) ++ abortEvents s.cfg i.bus (s.bus i.bus).bitDelayUs ++
        [.csExit i.bus]) (acceptedState i s).buf s t := by
  obtain ⟨e, u, hu, hack, hidle⟩ := h.first_timed_out hs hsteps hto
  exact hu.aborts h.transaction (hflow u hack) hidle

theorem writeWait_aborts (b : BusIx) (a8 reg : Byte) (n timeout : BitVec 16) (j : Nat) {u : State} (hack : u.ackOk = false) :
    flowOf (.write b a8 reg n timeout) (writeWait j) u = some (abort u) := by
  match j with
  | 0 => exact congrArg some (unlessAborted_failed hack)
  | 1 => exact congrArg some (unlessAborted_failed hack)
  | _ + 2 => exact congrArg some (unlessAborted_failed hack)

theorem readWait_aborts (b : BusIx) (a8 reg : Byte) (n timeout : BitVec 16) (j : Nat) {u : State} (hack : u.ackOk = false) :
    flowOf (.read b a8 reg n timeout) (readWait j) u = some (abort u) := by
  match j with
  | 0 => exact congrArg some (unlessAborted_failed hack)
  | 1 => exact congrArg some (unlessAborted_failed hack)
  | _ + 2 => exact congrArg some (unlessAborted_failed hack)

/-- The samples of `m` acknowledged waits and of one that times out. -/
theorem drawSamples_of_acks {e : Env} {m j : Nat} {rest : List Level}
    (h : e.samples = List.replicate m false ++ List.replicate j true ++ rest) :
    (drawSamples (m + j) e).1 = List.replicate m false ++ List.replicate j true := by
  rw [drawSamples_of_samples h (by simp)]

end

theorem Ended.count_add {i : Instr} {s t : State} {st : Status} {evs : List Event} {m : Memory} {x j n : Nat}
    (h : Ended i st evs m s t) (hx : eventCount evs + x = j + n) : eventCount t.trace + x = eventCount s.trace + j + n := by
  rw [h.count]
  omega

/-! ## The statements -/

/-- Settles O30: PROBE's one part is acknowledged, then its closing stop. -/
theorem probeAcknowledgedRespondsOk : Obligations.ProbeAcknowledgedRespondsOk := by
  intro b a8 timeout s i d hr hb hd hs
  obtain ⟨u, hu, hc⟩ := (probe_script (b := b) (timeout := timeout) hr hd).acked (n := 1) le_rfl (congrArg ([·]) hs)
  obtain ⟨t, ht⟩ := hu.closes rfl hc
  obtain ⟨s1, haccept, k, hk⟩ := ht.completes hr (decide_eq_true hb) rfl hd
  exact ⟨s1, haccept, k, t, _, hk, ht.done, ht.idleHigh, ht.phase, ht.csHeld, ht.buf, ht.trace, ht.count⟩

/-- Settles O31: PROBE's one wait_ack times out, then PROBE's own stop. -/
theorem probeNotAcknowledgedRespondsFail : Obligations.ProbeNotAcknowledgedRespondsFail := by
  intro b a8 timeout s d0 ds ds' i d u0 hr hb hd hs hsteps hto
  obtain ⟨e, u, hu, hack, -⟩ := (probe_script (b := b) (timeout := timeout) hr hd).first_timed_out hs hsteps hto
  have hflow : flowOf i .waitAddrW u = some (call .abortStop (stopPos .ret) (u.setPhase .aborted)) :=
    if_neg (by simp [hack])
  obtain ⟨t, ht⟩ := (hu.reaches hflow rfl).abortStops rfl rfl
  obtain ⟨s1, haccept, k, hk⟩ := ht.completes hr (decide_eq_true hb) rfl hd
  refine ⟨s1, haccept, k, t, hk, ht.done, ht.idleHigh, ht.phase, ht.csHeld, ht.buf, ht.trace, ht.count.trans ?_⟩
  simp only [eventCount_append, eventCount_csEnter, eventCount_csExit, eventCount_startEvents, eventCount_stopEvents,
    eventCount_sendEvents, eventCount_waitFailEvents]
  omega

/-- Settles O32: all parts of WRITE are acknowledged, then its closing stop. -/
theorem writeSendsTheBuffer : Obligations.WriteSendsTheBuffer := by
  intro b a8 reg n timeout s rest i d hr hb hd hs
  have hlen : (writeParts b d a8 reg (presentedBytes s n.toNat)).length = n.toNat + 2 := by
    rw [length_writeParts, length_presentedBytes]
  have hdraw := congrArg Prod.fst (drawSamples_of_samples hs List.length_replicate)
  obtain ⟨u, hu, hidx, hc⟩ := (write_script (b := b) (reg := reg) (timeout := timeout) hr hd).acked hlen.ge hdraw
  rw [List.take_of_length_le hlen.le] at hu
  rw [writeLoopCtrl, if_pos (BitVec.eq_of_toNat_eq hidx)] at hc
  obtain ⟨t, ht⟩ := hu.closes rfl hc
  obtain ⟨s1, haccept, k, hk⟩ := ht.completes hr (decide_eq_true hb) rfl hd
  have hticks := length_ackTicks s.cfg.tickW (n.toNat + 2) s.env.answers
  refine ⟨s1, haccept, k, t, _, hk, ht.done, ht.idleHigh, ht.phase, ht.csHeld,
    fun j hj => by rw [ht.buf]; exact read_acceptedState_buf rfl hj, hticks, ht.trace, ht.count.trans ?_⟩
  have hparts : ((writeParts b d a8 reg (presentedBytes s n.toNat)).map eventCount).sum = 41 + (41 + 42 * n.toNat) := by
    rw [← length_presentedBytes s n.toNat, ← sum_eventCount_dataParts b d 0, length_presentedBytes]
    rfl
  have hacked := eventCount_ackedEvents b (hticks.trans hlen.symm)
  simp only [eventCount_append, eventCount_csEnter, eventCount_csExit, eventCount_startEvents, eventCount_stopEvents]
  change eventCount s.trace + (1 + 9 + eventCount (ackedEvents b _ _) + 9 + 1) = _
  omega

/-- Settles O35: the first part's wait_ack times out, then the abort. -/
theorem addressTimeoutAborts : Obligations.AddressTimeoutAborts := by
  intro b a8 reg n timeout i first s d0 ds ds' d u0 hi hr hb hd hs hsteps hto
  have key : i.bus = b ∧ bufferLen i = n.toNat ∧ hasBuffer i = true ∧ i.address = some a8 ∧ i.busExists s.cfg = true ∧
      ∃ t, Ended i .fail ([.csEnter b] ++ startEvents b d ++ sendEvents b d first ++
        waitFailEvents b d (u0 % 2 ^ s.cfg.tickW) (tickValues s.cfg.tickW u0 ds) ++ abortEvents s.cfg b d ++
        [.csExit b]) (acceptedState i s).buf s t := by
    rcases hi with ⟨rfl, rfl⟩ | ⟨rfl, rfl⟩ | ⟨rfl, rfl⟩
    · exact ⟨rfl, rfl, rfl, rfl, decide_eq_true hb,
        (write_script hr hd).first_aborts (fun u => writeWait_aborts b first reg n timeout 0) hs hsteps hto⟩
    · exact ⟨rfl, rfl, rfl, rfl, decide_eq_true hb,
        (read_script hr hd).first_aborts (fun u => readWait_aborts b first reg n timeout 0) hs hsteps hto⟩
    · exact ⟨rfl, rfl, rfl, rfl, decide_eq_true hb,
        (readSeq_script hr).first_aborts (fun u hack => congrArg some (unlessAborted_failed hack)) hs hsteps hto⟩
  obtain ⟨hbus, hlen, hbuf, ha, hexists, t, ht⟩ := key
  obtain ⟨s1, haccept, k, hk⟩ := ht.completes hr hexists ha hd
  refine ⟨s1, haccept, k, t, hk, ht.done, hbus ▸ ht.idleHigh, ht.phase, ht.csHeld,
    fun j hj => by rw [ht.buf, read_acceptedState_buf hbuf (hj.trans_eq hlen.symm)], ht.trace, ht.count.trans ?_⟩
  simp only [eventCount_append, eventCount_csEnter, eventCount_csExit, eventCount_startEvents, eventCount_sendEvents,
    eventCount_waitFailEvents, eventCount_abortEvents]
  split <;> omega

/-- Settles O36: the parts before the failing one are acknowledged, its wait_ack times out, then the abort. -/
theorem writeStopsAtTheFailingByte : Obligations.WriteStopsAtTheFailingByte := by
  intro b a8 reg n timeout s m rest pre d0 ds ds' i d w u0 parts hr hb hd hm hs hsteps hpre hto
  have hlen : parts.length = n.toNat + 2 := by rw [length_writeParts, length_presentedBytes]
  obtain ⟨e, u, hu, hack, hidle⟩ := (write_script (b := b) (reg := reg) (timeout := timeout) hr hd).timed_out
    (hm.trans_eq hlen.symm) (drawSamples_of_acks hs) hsteps hpre hto
  obtain ⟨t, ht⟩ := hu.aborts rfl (writeWait_aborts b a8 reg n timeout m hack) hidle
  obtain ⟨s1, haccept, k, hk⟩ := ht.completes hr (decide_eq_true hb) rfl hd
  refine ⟨s1, haccept, k, t, hk, ht.done, ht.idleHigh, ht.phase, ht.csHeld,
    fun j hj => by rw [ht.buf]; exact read_acceptedState_buf rfl hj, ht.trace, ?_⟩
  have hcount := eventCount_writeParts b d (a8 := a8) (reg := reg) (bytes := presentedBytes s n.toNat)
    (by rwa [length_presentedBytes]) ((length_tickValues w s.env.tickNow pre).trans hpre)
  exact ht.count_add (eventCount_failed b d s.cfg (u0 % 2 ^ w) w u0 ds hcount)

/-- Settles O55: as O36, with the three parts of READ before its data. -/
theorem readStopsAtTheFailingWait : Obligations.ReadStopsAtTheFailingWait := by
  intro b a8 reg n timeout s m rest pre d0 ds ds' i d w u0 parts hr hb hd hm hs hsteps hpre hto
  obtain ⟨e, u, hu, hack, hidle⟩ := (read_script (b := b) (reg := reg) (n := n) (timeout := timeout) hr hd).timed_out
    hm (drawSamples_of_acks hs) hsteps hpre hto
  obtain ⟨t, ht⟩ := hu.aborts rfl (readWait_aborts b a8 reg n timeout m hack) hidle
  obtain ⟨s1, haccept, k, hk⟩ := ht.completes hr (decide_eq_true hb) rfl hd
  refine ⟨s1, haccept, k, t, hk, ht.done, ht.idleHigh, ht.phase, ht.csHeld,
    fun j hj => by rw [ht.buf]; exact read_acceptedState_buf rfl hj, ht.trace, ?_⟩
  have hcount := eventCount_readParts b d (a8 := a8) (reg := reg) hm ((length_tickValues w s.env.tickNow pre).trans hpre)
  exact ht.count_add (eventCount_failed b d s.cfg (u0 % 2 ^ w) w u0 ds hcount)

end Sys2Proof.Machine
end

section
/-! PROOFS. The bytes that READ and READ_SEQ receive, and the two commands from their accept to their respond (O33, O34). -/

namespace Sys2Proof.Machine

/-! ## The buffer -/

/-- The buffer after the bytes from index `k` on have been written one after another. -/
def Memory.writeBytes (m : Memory) (k : Nat) (bytes : List Byte) : Memory :=
  match bytes with
  | [] => m
  | v :: rest => Memory.writeBytes (Memory.write m k v) (k + 1) rest

theorem read_writeBytes_of_lt {m : Memory} {j k : Nat} {bytes : List Byte} (h : j < k) :
    Memory.read (Memory.writeBytes m k bytes) j = Memory.read m j := by
  induction bytes generalizing m k with
  | nil => rfl
  | cons v bytes ih => rw [Memory.writeBytes, ih (Nat.lt_succ_of_lt h), read_write_other h.ne]

theorem read_writeBytes {m : Memory} (hm : Memory.wf m = true) (k : Nat) {bytes : List Byte} {j : Nat} (hj : j < bytes.length) :
    Memory.read (Memory.writeBytes m k bytes) (k + j) = bytes[j] := by
  induction bytes generalizing m k j with
  | nil => cases hj
  | cons v bytes ih =>
    rw [Memory.writeBytes]
    cases j with
    | zero => exact (read_writeBytes_of_lt (Nat.lt_succ_self k)).trans (read_write_same hm)
    | succ j =>
      have hnext := ih (wf_write (k := k) (v := v) hm) (k + 1) (Nat.lt_of_succ_lt_succ hj)
      rwa [Nat.add_right_comm] at hnext

/-! ## A byte that is received -/

/-- The bits of a byte spell it (R54, R55). -/
theorem byteOfBits_bitsOfByte (v : Byte) : byteOfBits (bitsOfByte v) = v := by
  refine BitVec.eq_of_getLsbD_eq fun j hj => ?_
  have hj' : j = 7 - (7 - j) := by omega
  rw [hj']
  refine (getLsbD_foldl_shiftIn_eight 0 rfl (by omega)).trans ?_
  interval_cases j <;> rfl

/-- read_byte runs to its return, with PHASE at DATA_PHASE in a data loop (R104, R146). -/
theorem read_runs_at {i : Instr} {s : State} {site : Site} (hi : sites i ≠ []) (h : Running s)
    (hc : s.ctrl = .call site readPos) :
    ∃ k c, execFor i k s = orFault .noControlPoint (flowOf i site (State.goto c (State.setBitCnt 0
      (lineEvents i.bus (pulseOps (!(argsOf i s.byteIdx).sendAck))
        (readBits i.bus 8 (lineEvents i.bus [.sda true, .dir .inp] (phaseInside site s))))))) := by
  have hbegin := read_begins hi h hc
  rw [phaseInside_lineEvent] at hbegin
  have hg := phaseInside_goesOn site s
  have hphase : site = .readData → (phaseInside site s).phase = .dataPhase := by rintro rfl; rfl
  have hbyteIdx : (phaseInside site s).byteIdx = s.byteIdx := by cases site <;> rfl
  generalize phaseInside site s = p at hbegin hg hphase hbyteIdx ⊢
  have hp : Running p := ⟨hg.refused.trans h.1, hg.busy.trans h.2⟩
  obtain ⟨k1, c1, h1⟩ := piece_runs
    (s := call site (.seg (.dir .inp) [] .readLoop) (lineEvent i.bus (.sda true) p)) hi hp rfl hphase
  have hu := lineEvents_untouched i.bus [.sda true, .dir .inp] p
  change _ = pieceEnd i site .readLoop (State.goto c1 (lineEvents i.bus [.sda true, .dir .inp] p)) at h1
  generalize lineEvents i.bus [.sda true, .dir .inp] p = u at h1 hu ⊢
  have hr : Running u := ⟨hu.refused.trans hp.1, hu.busy.trans hp.2⟩
  have hup : site = .readData → u.phase = .dataPhase := fun he => hu.phase.trans (hphase he)
  rw [pieceEnd_readLoop, phaseInside_eq (by exact hup)] at h1
  obtain ⟨k2, h2⟩ := readBits_run (n := 7) (s := call site readBitPos (State.setBitCnt 7 (u.goto c1))) hi hr (by decide) rfl
    rfl hup
  have hidx : (call site readBitPos (State.setBitCnt 7 (u.goto c1))).byteIdx = s.byteIdx := hu.byteIdx.trans hbyteIdx
  rw [hidx] at h2
  simp only [call, readBits_goto, readBits_setBitCnt] at h2
  have hv := readBits_untouched i.bus 8 u
  generalize readBits i.bus 8 u = v at h2 hv ⊢
  obtain ⟨k3, c3, h3⟩ := piece_returns
    (s := call site (pulsePos (!(argsOf i s.byteIdx).sendAck)) (State.setBitCnt 0 v)) hi
    ⟨hv.refused.trans hr.1, hv.busy.trans hr.2⟩ rfl (fun he => hv.phase.trans (hup he))
  rw [call, lineEvents_goto, lineEvents_setBitCnt] at h3
  exact ⟨1 + (k1 + (k2 + k3)), c3,
    (execFor_add (execFor_one hbegin) _).trans ((execFor_add h1 _).trans ((execFor_add h2 _).trans h3))⟩

/-- The state after the byte in SHIFT has been written to the buffer and BYTEIDX counted up (R143, R144). -/
def byteWritten (s : State) : State :=
  { State.emit { s with buf := Memory.write s.buf s.byteIdx.toNat s.shift } (.bufWr s.byteIdx s.shift) with
    byteIdx := s.byteIdx + 1 }

theorem Emitted.byteWritten {i : Instr} {s t : State} {evs : List Event} {e : Env} {m : Memory} (h : Emitted i s evs e m t)
    (hl : bufferLen i ≠ 0) :
    Emitted i s (evs ++ [.bufWr t.byteIdx t.shift]) e (Memory.write m t.byteIdx.toNat t.shift) (byteWritten t) where
  inProgress := h.inProgress.of_goesOn (m := Memory.write t.buf t.byteIdx.toNat t.shift) (.of_writes ..) fun hz => absurd hz hl
  trace := by
    rw [List.reverse_append, List.append_assoc, ← h.trace]
    rfl
  answers := h.answers
  buf := congrArg (Memory.write · t.byteIdx.toNat t.shift) h.buf

section
variable {i : Instr} {s t : State} {evs : List Event} {e : Env} {m : Memory} {n : BitVec 16} {v : Byte} {rest : List Level}
variable (hw : writesBuffer i = true)
include hw

theorem isTransaction_of_writesBuffer : Instr.isTransaction i = true :=
  isTransaction_of_mem_sites (readData_mem_sites hw) nofun

/-- Which bytes READ and READ_SEQ acknowledge (R149). -/
theorem argsOf_sendAck (hn : bufferLen i = n.toNat) (k : BitVec 16) : (argsOf i k).sendAck = moreBytes k n := by
  cases i <;> simp_all [writesBuffer, argsOf, bufferLen, moreBytes]

/-- A read_byte of the data loop whose samples spell `v` (R104, R143, R144). -/
theorem Reaches.reads (h : Reaches i s evs e m t) (hc : t.ctrl = .call .readData readPos)
    (hs : e.samples = bitsOfByte v ++ rest) :
    ∃ u, Returns i s (evs ++ readEvents i.bus (s.bus i.bus).bitDelayUs (bitsOfByte v) (argsOf i t.byteIdx).sendAck)
        { e with samples := rest } m .readData u ∧ u.shift = v ∧ u.byteIdx = t.byteIdx := by
  have hne := sites_ne_nil_of_isTransaction (isTransaction_of_writesBuffer hw)
  obtain ⟨k, c, hk⟩ := read_runs_at hne h.inProgress.running hc
  have hp := h.toEmitted.of_goesOn (u := phaseInside .readData t) (evs' := []) (.of_writes ..) rfl rfl
  have hidx : (phaseInside .readData t).byteIdx = t.byteIdx := rfl
  rw [List.append_nil] at hp
  generalize phaseInside .readData t = p at hk hp hidx
  have hdraw := drawSamples_of_samples hs (n := 8) rfl
  rw [← hp.answers, drawSamples_answers] at hdraw
  obtain ⟨hbits, hanswers⟩ := Prod.mk.inj hdraw
  have hread := readEvents_eq i.bus (argsOf i t.byteIdx).sendAck p
  rw [hbits, foldl_shiftIn_eight p.shift rfl, byteOfBits_bitsOfByte, hp.delay] at hread
  have hu : Untouched i.bus p (lineEvents i.bus (pulseOps (!(argsOf i t.byteIdx).sendAck))
      (readBits i.bus 8 (lineEvents i.bus [.sda true, .dir .inp] p))) :=
    ((lineEvents_untouched ..).trans (readBits_untouched ..)).trans (lineEvents_untouched ..)
  generalize lineEvents i.bus (pulseOps (!(argsOf i t.byteIdx).sendAck))
    (readBits i.bus 8 (lineEvents i.bus [.sda true, .dir .inp] p)) = x at hk hread hu
  refine ⟨_, h.of_return hk (hp.of_call ((hu.trans (.setBitCnt i.bus 0 x)).callFrame c) (congrArg State.trace hread) ?_),
    congrArg State.shift hread, hu.byteIdx.trans hidx⟩
  rw [← hp.answers]
  exact (congrArg (fun y : State => y.env.answers) hread).trans hanswers

/-- The loop's round: a byte is received and written to the buffer (R143, R144). -/
theorem Reaches.receives_one (hn : bufferLen i = n.toNat) (h : Reaches i s evs e m t) (hlt : t.byteIdx.toNat < n.toNat)
    (hc : t.ctrl = readLoopCtrl n t.byteIdx) (hs : e.samples = bitsOfByte v ++ rest) :
    ∃ u, Reaches i s (evs ++ readEvents i.bus (s.bus i.bus).bitDelayUs (bitsOfByte v) (moreBytes t.byteIdx n) ++
        [.bufWr t.byteIdx v]) { e with samples := rest } (Memory.write m t.byteIdx.toNat v) u ∧
      u.byteIdx = t.byteIdx + 1 ∧ u.ctrl = readLoopCtrl n u.byteIdx := by
  have hread : t.ctrl = .call .readData readPos := by
    rw [hc, readLoopCtrl, if_neg]
    rintro he
    exact absurd (he ▸ hlt) (lt_irrefl _)
  obtain ⟨u, hu, hshift, hidx⟩ := h.reads hw hread hs
  have hbufWr := hu.reaches (flowOf_readData hw u) rfl
  have hstep : exec i (u.goto .bufWr) = .next ((byteWritten (u.goto .bufWr)).goto (readLoopCtrl n (u.byteIdx + 1))) :=
    (exec_bufWr (isTransaction_of_writesBuffer hw) hbufWr.inProgress.running rfl hn (hidx ▸ hlt)).trans
      (congrArg _ (readNext_eq_goto ..))
  have hnext := hbufWr.of_run (execFor_one hstep) ((hbufWr.toEmitted.byteWritten (by omega)).goto _)
  rw [argsOf_sendAck hw hn, goto_byteIdx, goto_shift, hidx, hshift] at hnext
  have hsucc : (byteWritten (u.goto .bufWr)).byteIdx = t.byteIdx + 1 := congrArg (· + 1) hidx
  exact ⟨_, hnext, hsucc, congrArg (readLoopCtrl n) hsucc.symm⟩

omit hw in
/-- A byte is acknowledged when others follow (R149). -/
theorem moreBytes_eq {k : BitVec 16} {bytes : List Byte} (h : k.toNat + (bytes.length + 1) = n.toNat) :
    moreBytes k n = !bytes.isEmpty := by
  cases bytes with
  | nil => exact decide_eq_false (by rw [List.length_nil] at h; omega)
  | cons v bytes => exact decide_eq_true (by rw [List.length_cons] at h; omega)

/-- The loop over BYTEIDX receives all bytes that are left (R143, R144, R149). -/
theorem Reaches.receives {bytes : List Byte} (hn : bufferLen i = n.toNat) (h : Reaches i s evs e m t)
    (hlen : t.byteIdx.toNat + bytes.length = n.toNat) (hc : t.ctrl = readLoopCtrl n t.byteIdx)
    (hs : e.samples = bytes.flatMap bitsOfByte ++ rest) :
    ∃ e' u, Reaches i s (evs ++ readDataEvents i.bus (s.bus i.bus).bitDelayUs t.byteIdx.toNat bytes) e'
        (Memory.writeBytes m t.byteIdx.toNat bytes) u ∧ u.ctrl = .call .closeStop (stopPos .ret) := by
  induction bytes generalizing t evs e m with
  | nil =>
    rw [readLoopCtrl, if_pos (BitVec.eq_of_toNat_eq hlen)] at hc
    exact ⟨e, t, by simpa [readDataEvents, Memory.writeBytes] using h, hc⟩
  | cons v bytes ih =>
    rw [List.length_cons] at hlen
    rw [List.flatMap_cons, List.append_assoc] at hs
    have hlt : t.byteIdx.toNat < n.toNat := by omega
    obtain ⟨u, hu, hidx, huc⟩ := h.receives_one hw hn hlt hc hs
    have hsucc : u.byteIdx.toNat = t.byteIdx.toNat + 1 := by rw [hidx, toNat_succ hlt]
    obtain ⟨e', x, hx, hxc⟩ := ih hu (by omega) huc rfl
    refine ⟨e', x, ?_, hxc⟩
    rw [hsucc, moreBytes_eq hlen] at hx
    rw [readDataEvents, Memory.writeBytes, BitVec.ofNat_toNat, BitVec.setWidth_eq]
    simpa only [List.append_assoc, List.singleton_append] using hx

/-- A transaction that sends `parts`, each acknowledged, and then receives `bytes` (R143, R144). -/
theorem Script.reads {parts : List (List Event)} {waitSite : Nat → Site} {stage : Nat → State → Prop} {bytes : List Byte}
    (h : Script i s parts waitSite stage) (hn : bufferLen i = n.toNat) (hstage : stage parts.length = AtReadLoop n)
    (hlen : bytes.length = n.toNat)
    (hs : s.env.samples = List.replicate parts.length false ++ bytes.flatMap bitsOfByte ++ rest) :
    ∃ t, Ended i .ok ([.csEnter i.bus] ++ startEvents i.bus (s.bus i.bus).bitDelayUs ++
        ackedEvents i.bus parts (ackTicks s.cfg.tickW parts.length s.env.answers) ++
        readDataEvents i.bus (s.bus i.bus).bitDelayUs 0 bytes ++ stopEvents i.bus (s.bus i.bus).bitDelayUs ++
        [.csExit i.bus]) (Memory.writeBytes (acceptedState i s).buf 0 bytes) s t := by
  rw [List.append_assoc] at hs
  have hdraw := congrArg Prod.fst (drawSamples_of_samples hs List.length_replicate)
  obtain ⟨u, hu, hend⟩ := h.acked le_rfl hdraw
  rw [hstage] at hend
  obtain ⟨hidx, hc⟩ := hend
  rw [List.take_length] at hu
  have hsamples := afterAcks_samples (e := s.env.answers) hs List.length_replicate
  obtain ⟨e', x, hx, hxc⟩ := hu.receives hw hn (by rw [hidx, hlen]; exact Nat.zero_add _) (by rw [hidx]; exact hc) hsamples
  rw [hidx] at hx
  exact hx.closes h.transaction hxc

end

/-! ## The statements -/

theorem eventCount_readDataEvents (b : BusIx) (d : BitVec 32) (k : Nat) (bytes : List Byte) :
    eventCount (readDataEvents b d k bytes) = 50 * bytes.length := by
  induction bytes generalizing k with
  | nil => rfl
  | cons v bytes ih =>
    have hbyte : eventCount (readEvents b d (bitsOfByte v) (!bytes.isEmpty)) = 49 := rfl
    have hcons : ∀ evs, eventCount (.bufWr (BitVec.ofNat 16 k) v :: evs) = eventCount evs + 1 := fun _ => rfl
    rw [readDataEvents, eventCount_append, hbyte, hcons, ih, List.length_cons]
    omega

/-- The buffer of a READ or READ_SEQ that has received all its bytes. -/
theorem read_received {i : Instr} {s : State} {bytes : List Byte} (hb : hasBuffer i = true) {j : Nat} (hj : j < bytes.length) :
    Memory.read (Memory.writeBytes (acceptedState i s).buf 0 bytes) j = bytes[j] := by
  have hwf : Memory.wf (acceptedState i s).buf = true := by rw [acceptedState_buf, if_pos hb]; exact wf_ofBytes ..
  have hread := read_writeBytes hwf 0 hj
  rwa [Nat.zero_add] at hread

/-- Settles O33: READ's three parts are acknowledged, then its data loop. -/
theorem readFillsTheBuffer : Obligations.ReadFillsTheBuffer := by
  intro b a8 reg n timeout s bytes rest i d hr hb hd hlen hs
  obtain ⟨t, ht⟩ := (read_script (b := b) (reg := reg) (n := n) (timeout := timeout) hr hd).reads rfl rfl rfl hlen hs
  obtain ⟨s1, haccept, k, hk⟩ := ht.completes hr (decide_eq_true hb) rfl hd
  refine ⟨s1, haccept, k, t, ackTicks s.cfg.tickW 3 s.env.answers, hk, ht.done, ht.idleHigh, ht.phase, ht.csHeld,
    fun j hj => by rw [ht.buf, read_received rfl hj], length_ackTicks .., ht.trace, ht.count.trans ?_⟩
  simp only [eventCount_append, eventCount_csEnter, eventCount_csExit, eventCount_startEvents, eventCount_stopEvents,
    eventCount_readDataEvents, hlen]
  change eventCount s.trace + (1 + 9 + 150 + 50 * n.toNat + 9 + 1) = _
  omega

/-- Settles O34: READ_SEQ's one part is acknowledged, then its data loop. -/
theorem readSeqFillsTheBuffer : Obligations.ReadSeqFillsTheBuffer := by
  intro b a8 n timeout s bytes rest i d hr hb hd hlen hs
  obtain ⟨t, ht⟩ := (readSeq_script (b := b) (a8 := a8) (n := n) (timeout := timeout) hr).reads rfl rfl rfl hlen hs
  obtain ⟨s1, haccept, k, hk⟩ := ht.completes hr (decide_eq_true hb) rfl hd
  refine ⟨s1, haccept, k, t, _, hk, ht.done, ht.idleHigh, ht.phase, ht.csHeld,
    fun j hj => by rw [ht.buf, read_received rfl hj], ht.trace, ht.count.trans ?_⟩
  simp only [eventCount_append, eventCount_csEnter, eventCount_csExit, eventCount_startEvents, eventCount_stopEvents,
    eventCount_readDataEvents, hlen]
  change eventCount s.trace + (1 + 9 + 47 + 50 * n.toNat + 9 + 1) = _
  omega

end Sys2Proof.Machine
end

section
/-! PROOFS. INIT and SET_DELAY from their accept to their respond (O28, O29), and a HOLD on a bus whose delay is 0 (O57). -/

namespace Sys2Proof.Machine

/-! ## The configuration commands -/

section
variable {i : Instr} {s : State}

theorem runConfigure_responds_ok {effect : State → State} (hr : Running s) {rd : Byte} (hc : s.ctrl = .respond .ok rd) :
    runConfigure i effect s = .next (respond 0 .ok rd (effect s)) := by
  simp [runConfigure, hr, hc]

/-- A configuration command about to respond OK does so, and its assignment is done in that step (log entry 9). -/
theorem exec_configure_responds_ok (hi : sites i = []) (hr : Running s) {rd : Byte} (hc : s.ctrl = .respond .ok rd) :
    exec i s = .next (respond 0 .ok rd { s with buses := busesAfter i s }) := by
  cases i with
  | init => exact runConfigure_responds_ok hr hc
  | setDelay => exact runConfigure_responds_ok hr hc
  | _ => cases hi

/-- A configuration command has no event, no buffer and no critical section: its accept reaches its respond (R180, R181). -/
theorem acceptedState_of_configure (hi : sites i = []) (s : State) :
    acceptedState i s = (latchCommand (encode i) s).goto (.respond .ok 0) := by
  cases i with
  | init => rfl
  | setDelay => rfl
  | _ => cases hi

theorem busesAfter_congr {t : State} (i : Instr) (h : t.buses = s.buses) : busesAfter i t = busesAfter i s := by
  cases i <;> simp [busesAfter, clearDelays, setBitDelay, bus_congr h, h]

/-- A configuration command completes in its accept and its respond, with no event; only the per-bus state is written. -/
theorem configure_completes (hi : sites i = []) (hr : Ready s) (hb : i.busExists s.cfg = true) :
    ∃ s1, exec i s = .next s1 ∧ s1.trace = s.trace ∧
      execFor i 1 s1 = .next (completed i .ok 0 [] { s with buses := busesAfter i s }) := by
  have hdir : i.directionClear = true := by cases i <;> simp_all [sites, Instr.directionClear, Instr.address]
  have haccept := exec_admitted hr hb hdir
  rw [acceptedState_of_configure hi] at haccept
  have hbuses : busesAfter i ((latchCommand (encode i) s).goto (.respond .ok 0)) = busesAfter i s := busesAfter_congr i rfl
  have hrespond := exec_configure_responds_ok (s := (latchCommand (encode i) s).goto (.respond .ok 0)) hi ⟨hr.1, rfl⟩ rfl
  rw [hbuses] at hrespond
  exact ⟨_, haccept, rfl, execFor_one hrespond⟩

end

theorem bus_clearDelays (s : State) (b : BusIx) : (clearDelays s).bus b = { s.bus b with bitDelayUs := 0 } :=
  bus_mapBuses _ s b

/-- Settles O28: INIT's one assignment clears each bus's delay and leaves its latches. -/
theorem initCompletes : Obligations.InitCompletes := by
  intro s hr
  obtain ⟨s1, haccept, htrace, hrespond⟩ := configure_completes (i := .init) rfl hr rfl
  have hbus : ∀ b, (completed .init .ok 0 [] { s with buses := busesAfter .init s }).bus b =
      { s.bus b with bitDelayUs := 0 } := bus_clearDelays s
  refine ⟨s1, haccept, htrace, _, hrespond, rfl, fun b _ => ?_, fun b => ?_⟩ <;> rw [hbus b]
  exact ⟨rfl, rfl, rfl⟩

/-- Settles O29: SET_DELAY's one assignment is the write of its bus's delay. -/
theorem setDelayCompletes : Obligations.SetDelayCompletes := fun b d _ hr hb =>
  configure_completes (i := .setDelay b d) rfl hr (decide_eq_true hb)

/-! ## A HOLD on a bus whose delay is 0 -/

section
variable {i : Instr} {s : State} {site : Site}

/-- A primitive's step goes on, inside the primitive or after its return, and adds what the primitive emits (R37). -/
theorem callStep_trace (hsite : site ∈ sites i) (a : CallArgs) (p : Pos) (s : State) :
    ∃ t, callStep a (flowOf i) site p s = some t ∧ t.trace = (primStep a p s).1.trace := by
  rcases hp : primStep a p s with ⟨u, _ | q⟩
  · obtain ⟨t, ht, htrace⟩ := flowOf_answers hsite (phaseInside site u)
    exact ⟨t, by rw [callStep, hp]; exact ht, htrace.trans (phaseInside_trace ..)⟩
  · exact ⟨call site q (phaseInside site u), by rw [callStep, hp], phaseInside_trace ..⟩

/-- A HOLD on a bus whose delay is 0 is emitted whatever wait is imposed (R183). -/
theorem primStep_hold_of_zero {a : CallArgs} (hd : (s.bus a.bus).bitDelayUs = 0) (rest : List LineOp) (tail : Tail) :
    (primStep a (.seg .hold rest tail) s).1.trace = .hold a.bus 0 :: s.trace := by
  rw [primStep, holdWait_of_zero hd]
  exact (segStep_trace ..).trans (by rw [lineOpEvent, bus_collaboratorDone, hd, collaboratorDone_trace])

end

/-- Settles O57: the HOLD does not wait, so the step emits it and the command goes on. -/
theorem holdOfZeroEndsAtOnce : Obligations.HoldOfZeroEndsAtOnce := by
  intro i s site rest tail hr hsite hc hd
  rw [← argsOf_bus i s.byteIdx] at hd ⊢
  obtain ⟨t, ht, htrace⟩ := callStep_trace hsite (argsOf i s.byteIdx) (.seg .hold rest tail) s
  refine ⟨t, ?_, htrace.trans (primStep_hold_of_zero hd rest tail)⟩
  rw [exec_call (List.ne_nil_of_mem hsite) hr hc, ht, orFault]

end Sys2Proof.Machine
end

section
/-! PROOFS. A command refused for its direction bit stops the machine (O10). -/

namespace Sys2Proof.Machine

theorem directionBitSet_eq (i : Instr) : directionBitSet i = !i.directionClear := by
  cases h : i.address <;> simp [directionBitSet, Instr.directionClear, h]

/-- A legal command whose address byte has its direction bit set is refused in its accept (R197, R198). -/
theorem exec_refuses {i : Instr} {s : State} (hr : Ready s) (hb : i.busExists s.cfg = true) (hd : i.directionClear = false) :
    exec i s = .next { latchCommand (encode i) s with refused := true, ctrl := .idle } := by
  have hbit : directionBitSet i = true := by rw [directionBitSet_eq, hd]; rfl
  rw [exec_ready i hr, accept, if_pos (busInRange_of_busExists hb), if_pos hbit]

/-- From a refused state no agent has a step (R198). -/
theorem step_refused {s : State} (h : s.refused = true) : step s = .refused .addressDirectionBit := if_pos h

/-- Settles O10: the accept writes CMD, BUSY, REFUSED and the control point, and a step looks at REFUSED first. -/
theorem directionBitRefusesAndStopsTheMachine : Obligations.DirectionBitRefusesAndStopsTheMachine :=
  ⟨fun _ _ hr hb hd => ⟨_, exec_refuses hr hb hd, rfl, rfl, rfl, rfl, rfl, rfl, rfl⟩, fun _ => step_refused⟩

end Sys2Proof.Machine
end

section
/-! PROOFS. The waits of a HOLD and of a CS_ENTER end (O37). -/

namespace Sys2Proof.Machine

section
variable {i : Instr} {s : State} {site : Site} {rest : List LineOp} {tail : Tail}

/-- Inside a data read_byte, where a HOLD is never its first event, PHASE is DATA_PHASE (R146). -/
theorem AtPosition.phase_at_hold (h : AtPosition i s) (hc : s.ctrl = .call site (.seg .hold rest tail)) :
    site = .readData → s.phase = .dataPhase := by
  rintro rfl
  obtain ⟨-, hph, -⟩ := h
  rw [hc, phaseOk_call (by simp [readPos])] at hph
  simpa [phaseOk, poll_ne_readPos] using hph

/-- A HOLD that does not wait, or waits no longer, is emitted with its bus's delay (R10). -/
theorem primStep_hold_ended {a : CallArgs} (h : holdWait a.bus s = none) :
    (primStep a (.seg .hold rest tail) s).1.trace = .hold a.bus (s.bus a.bus).bitDelayUs :: s.trace := by
  rw [primStep, h]
  exact segStep_trace ..

/-- The step of a HOLD whose wait is over (R10, R37). -/
theorem exec_hold_ended (hsite : site ∈ sites i) (hr : Running s) (hc : s.ctrl = .call site (.seg .hold rest tail))
    (hw : holdWait i.bus s = none) :
    ∃ t, exec i s = .next t ∧ t.trace = .hold i.bus (s.bus i.bus).bitDelayUs :: s.trace := by
  rw [← argsOf_bus i s.byteIdx] at hw ⊢
  obtain ⟨t, ht, htrace⟩ := callStep_trace hsite (argsOf i s.byteIdx) (.seg .hold rest tail) s
  refine ⟨t, ?_, htrace.trans (primStep_hold_ended hw)⟩
  rw [exec_call (List.ne_nil_of_mem hsite) hr hc, ht, orFault]

theorem AtPosition.isTransaction_of_csEnter (h : AtPosition i s) (hc : s.ctrl = .csEnter) : Instr.isTransaction i = true := by
  obtain ⟨hctrl, -, -⟩ := h
  rw [hc] at hctrl
  exact (Bool.and_eq_true_iff.mp hctrl).1

end

/-- Settles O37: each step of waiting lowers the wait and writes nothing else; once it is over the event happens. -/
theorem everyHoldEndsAndEveryEnterIsGranted : Obligations.EveryHoldEndsAndEveryEnterIsGranted := by
  intro i s hinv hr hdec
  have hpos : AtPosition i s := (runningOk_iff hdec).mp (hinv.running hr.2 hr.1)
  refine ⟨fun site rest tail hc => ?_, fun hc => ?_⟩
  · have hsite : site ∈ sites i := (ctrlOk_call.mp (hc ▸ hpos.1)).1
    obtain ⟨k, ws, hk, -, hw⟩ := hold_ends (List.ne_nil_of_mem hsite) hr hc (hpos.phase_at_hold hc)
    exact ⟨k, ws, hk, exec_hold_ended (s := { s with env := { s.env with waits := ws } }) hsite hr hc hw⟩
  · have hi : sites i ≠ [] := sites_ne_nil_of_isTransaction (hpos.isTransaction_of_csEnter hc)
    obtain ⟨k, ws, hk, -, he⟩ := enter_ends hi hr hc
    exact ⟨k, ws, hk, _, he, rfl, rfl⟩

end Sys2Proof.Machine
end

section
/-! PROOFS. The elapsed time (O52), and the laws of the tick source (O54). -/

namespace Sys2Proof.Machine

/-! ## The elapsed time -/

/-- As integers, the elapsed time is the difference of the two readings modulo `2^TICK_W` (R205). -/
theorem elapsed_eq_emod {w t t0 : Nat} (h : t0 < 2 ^ w) : (elapsed w t t0 : Int) = ((t : Int) - t0) % 2 ^ w := by
  rw [elapsed, Int.natCast_mod, Nat.cast_sub (by omega)]
  push_cast
  rw [add_sub_right_comm, Int.add_emod_right]

/-- Settles O52: the elapsed time is the counter's increase modulo `2^TICK_W`, which is the increase itself within one wrap. -/
theorem elapsedTimeIsRightAcrossAWrap : Obligations.ElapsedTimeIsRightAcrossAWrap := by
  refine ⟨fun w t t0 => elapsed_eq_emod, fun w u0 u timeout hle => ⟨elapsed_counter hle, fun hlt => ?_, ?_⟩⟩
  · rw [elapsed_counter hle, Nat.mod_eq_of_lt hlt]
  · rw [timeoutReached, elapsed_counter hle, decide_eq_true_eq]

/-! ## Law 1: what a step does to the counter -/

/-- Between `s` and `t` no TICK is taken, and U stands still. -/
def NoTick (s t : State) : Prop := t.env.tickNow = s.env.tickNow ∧ ∀ τ, t.trace ≠ .tick τ :: s.trace

/-- Between `s` and `t` one TICK is taken: U does not decrease, and the answer is its low `TICK_W` bits (R209). -/
def TickTaken (s t : State) : Prop :=
  s.env.tickNow ≤ t.env.tickNow ∧ t.trace = .tick (t.env.tickNow % 2 ^ s.cfg.tickW) :: s.trace

section
variable {s t u : State} {i : Instr} {site : Site} {n : BitVec 16} {a8 reg : Byte}

theorem NoTick.of_silent (htr : t.trace = s.trace) (hu : t.env.tickNow = s.env.tickNow) : NoTick s t :=
  ⟨hu, fun _ => not_emits_of_trace_eq htr⟩

theorem NoTick.of_event {e : Event} (he : ∀ τ, e ≠ .tick τ) (htr : t.trace = e :: s.trace)
    (hu : t.env.tickNow = s.env.tickNow) : NoTick s t :=
  ⟨hu, fun τ h => he τ (List.cons.inj (htr.symm.trans h)).1⟩

theorem collaboratorWait_noTick (h : collaboratorWait s = some t) : NoTick s t := by
  obtain ⟨n, ws, -, rfl⟩ := collaboratorWait_some h
  exact .of_silent rfl rfl

theorem tickTaken_tickEvent (limit : Option Nat) (s : State) : TickTaken s (tickEvent limit s).2 := by
  obtain ⟨u, -, hs, hle, -⟩ := tickEvent_eq limit s
  rw [hs]
  exact ⟨hle, rfl⟩

theorem sampleEvent_noTick (b : BusIx) (s : State) : NoTick s (sampleEvent b s).2 :=
  .of_event (e := .sample b (nextSample s.env).1) nofun rfl (nextSample_rest s.env).1

theorem afterSeg_env (a : CallArgs) (tail : Tail) (s : State) : (afterSeg a tail s).1.env = s.env := by
  cases tail <;> simp only [afterSeg] <;> (try split) <;> rfl

theorem lineEvent_env (b : BusIx) (op : LineOp) (s : State) : (lineEvent b op s).env = s.env := by cases op <;> rfl

theorem segStep_noTick (a : CallArgs) (op : LineOp) (rest : List LineOp) (tail : Tail) (s : State) :
    NoTick s (segStep a op rest tail s).1 := by
  refine .of_event (fun τ => ?_) (segStep_trace ..) (congrArg Env.tickNow ?_)
  · cases op <;> exact nofun
  · cases rest with
    | nil => exact (afterSeg_env ..).trans (lineEvent_env ..)
    | cons => exact lineEvent_env ..

/-- Inside a primitive only T0's reading and a time check take a TICK (R105). -/
theorem primStep_tick (a : CallArgs) (p : Pos) (s : State) :
    NoTick s (primStep a p s).1 ∨ TickTaken s (primStep a p s).1 := by
  cases p with
  | seg op rest tail =>
    left
    cases op with
    | hold =>
      simp only [primStep]
      split
      · rename_i u hw
        exact collaboratorWait_noTick (holdWait_some hw).2
      · exact segStep_noTick a .hold rest tail (collaboratorDone s)
    | dir d => exact segStep_noTick ..
    | sda v => exact segStep_noTick ..
    | scl v => exact segStep_noTick ..
  | sample => exact .inl (sampleEvent_noTick a.bus s)
  | poll => exact .inl (sampleEvent_noTick a.bus s)
  | tickT0 => exact .inr (tickTaken_tickEvent none s)
  | check => exact .inr (tickTaken_tickEvent (some (maxTickStep s.cfg.tickW a.timeout)) s)

/-! ### Going on from one event to the next takes no answer of the collaborators -/

theorem phaseInside_env (site : Site) (s : State) : (phaseInside site s).env = s.env := by cases site <;> rfl

theorem unlessAborted_env {next : State → State} (h : (next s).env = s.env) : (unlessAborted next s).env = s.env := by
  unfold unlessAborted abort
  split
  · exact h
  · split <;> rfl

theorem writeNext_env (n : BitVec 16) (s : State) : (writeNext n s).env = s.env := by rw [writeNext_eq_goto, goto_env]

theorem readNext_env (n : BitVec 16) (s : State) : (readNext n s).env = s.env := by rw [readNext_eq_goto, goto_env]

theorem probeFlow_env (h : probeFlow a8 site s = some t) : t.env = s.env := by
  cases site
  case waitAddrW =>
    simp only [probeFlow] at h
    split at h <;> cases h <;> rfl
  all_goals cases h
  all_goals rfl

theorem writeFlow_env (h : writeFlow a8 reg n site s = some t) : t.env = s.env := by
  cases site <;> cases h
  case waitAddrW => exact unlessAborted_env rfl
  case waitReg => exact unlessAborted_env (writeNext_env ..)
  case waitData => exact unlessAborted_env (writeNext_env ..)
  all_goals rfl

theorem readFlow_env (h : readFlow a8 reg n site s = some t) : t.env = s.env := by
  cases site <;> cases h
  case waitAddrW => exact unlessAborted_env rfl
  case waitReg => exact unlessAborted_env rfl
  case waitAddrR => exact unlessAborted_env (readNext_env ..)
  all_goals rfl

theorem readSeqFlow_env (h : readSeqFlow a8 n site s = some t) : t.env = s.env := by
  cases site <;> cases h
  case waitAddrR => exact unlessAborted_env (readNext_env ..)
  all_goals rfl

theorem respondAfter_env {answer : State → Ctrl} (h : respondAfter answer site s = some t) : t.env = s.env := by
  cases site <;> cases h
  rfl

theorem flowOf_env (h : flowOf i site s = some t) : t.env = s.env := by
  cases i with
  | init => cases h
  | setDelay => cases h
  | probe => exact probeFlow_env h
  | write => exact writeFlow_env h
  | read => exact readFlow_env h
  | readSeq => exact readSeqFlow_env h
  | _ => simp only [flowOf] at h; exact respondAfter_env h

/-! ### A step of a command -/

theorem tick_of_same (h : NoTick s u ∨ TickTaken s u) (henv : t.env = u.env) (htr : t.trace = u.trace) :
    NoTick s t ∨ TickTaken s t := by
  rw [NoTick, TickTaken, henv, htr]
  exact h

theorem callStep_tick {a : CallArgs} {p : Pos} (h : callStep a (flowOf i) site p s = some t) :
    NoTick s t ∨ TickTaken s t := by
  have htick := primStep_tick a p s
  unfold callStep at h
  split at h <;> rename_i hp <;> rw [hp] at htick
  · cases h
    exact tick_of_same htick (phaseInside_env ..) (phaseInside_trace ..)
  · exact tick_of_same htick ((flowOf_env h).trans (phaseInside_env ..)) ((flowOf_trace h).trans (phaseInside_trace ..))

theorem csEnterStep_noTick (b : BusIx) (s : State) : NoTick s (csEnterStep b s) := by
  unfold csEnterStep
  split
  · rename_i u hw
    exact collaboratorWait_noTick hw
  · exact .of_event (e := .csEnter b) nofun rfl rfl

theorem bufRdStep_noTick (h : bufRdStep n s = some t) : NoTick s t := by
  unfold bufRdStep at h
  split at h <;> cases h
  exact .of_event (e := .bufRd _ _) nofun rfl rfl

theorem bufWrStep_noTick (h : bufWrStep n s = some t) : NoTick s t := by
  unfold bufWrStep at h
  split at h <;> cases h
  exact .of_event (e := .bufWr _ _) nofun (readNext_trace ..) (congrArg Env.tickNow (readNext_env ..))

theorem respond_noTick (n : Nat) (st : Status) (rd : Byte) (v : Vector Bus 16) (s : State) :
    NoTick s (respond n st rd { s with buses := v }) :=
  .of_event (e := .resp _) nofun rfl rfl

theorem firstOf_env (i : Instr) (s : State) : (firstOf i s).env = s.env := by cases i <;> rfl

theorem accept_env (i : Instr) (s : State) : (accept i (firstOf i) s).env = s.env := by
  rcases accept_cases i (firstOf i) s with ⟨-, heq⟩ | ⟨-, -, heq⟩ | ⟨-, -, heq⟩ <;> rw [heq]
  · rfl
  · rfl
  · exact (firstOf_env ..).trans (takeBuffer_env ..)

/-- A command steps only from a state that is not refused (R198). -/
theorem refused_of_exec (h : exec i s = .next t) : s.refused = false := by
  refine Bool.eq_false_iff.mpr fun hr => ?_
  rw [exec_refused i hr] at h
  cases h

/-- A step of a command moves U only by a TICK, of which it takes at most one (R37, R209). -/
theorem exec_tick (h : exec i s = .next t) : NoTick s t ∨ TickTaken s t := by
  have hr := refused_of_exec h
  cases hb : s.busy with
  | false =>
    rw [exec_ready i ⟨hr, hb⟩] at h
    cases h
    exact .inl (.of_silent (accept_trace ..) (congrArg Env.tickNow (accept_env ..)))
  | true =>
    by_cases hi : sites i = []
    · obtain ⟨st, rd, v, -, rfl⟩ := exec_configure_respond hi ⟨hr, hb⟩ h
      exact .inl (respond_noTick ..)
    rw [exec_running hi ⟨hr, hb⟩] at h
    rcases runBusy_next h with ⟨-, rfl⟩ | ⟨_, _, -, h⟩ | ⟨-, h⟩ | ⟨-, h⟩ | ⟨_, -, rfl⟩ | ⟨st, rd, -, rfl⟩
    · exact .inl (csEnterStep_noTick ..)
    · exact callStep_tick h
    · exact .inl (bufRdStep_noTick h)
    · exact .inl (bufWrStep_noTick h)
    · exact .inl (.of_event (e := .csExit _) nofun rfl rfl)
    · exact .inl (respond_noTick _ st rd s.buses s)

/-! ## Law 2: the increase at a time check -/

/-- At a time check U grows by at most what law 2 allows the command's own timeout (R209). -/
theorem exec_check_increase (hr : Running s) (hc : s.ctrl = .call site .check) (h : exec i s = .next t) :
    t.env.tickNow ≤ s.env.tickNow + (2 ^ s.cfg.tickW - i.timeout.toNat) := by
  by_cases hi : sites i = []
  · obtain ⟨st, rd, v, hresp, -⟩ := exec_configure_respond hi hr h
    rw [hc] at hresp
    cases hresp
  obtain ⟨u, -, hstate, -, hlimit⟩ := tickEvent_eq (some (maxTickStep s.cfg.tickW (argsOf i s.byteIdx).timeout)) s
  rw [exec_primStep (u := (tickEvent (some (maxTickStep s.cfg.tickW (argsOf i s.byteIdx).timeout)) s).2) hi hr hc rfl,
    hstate] at h
  cases h
  rw [call_env, phaseInside_env, ← argsOf_timeout i s.byteIdx]
  exact hlimit _ rfl

/-! ## Law 3: the counter passes every bound -/

/-- A TICK that may move the counter moves it, or brings its next move nearer (R209). -/
theorem tickEvent_moves {limit : Option Nat} (h : limit ≠ some 0) (s : State) :
    s.env.tickNow < (tickEvent limit s).2.env.tickNow ∨ patience (tickEvent limit s).2.env < patience s.env := by
  cases limit with
  | none =>
    rw [tickEvent_none]
    exact (nextTickStep_moves s.env).imp Nat.lt_add_of_pos_right id
  | some m =>
    obtain ⟨u, htick, -, -, hmoves⟩ := tickEvent_limit (Nat.pos_of_ne_zero fun h0 => h (congrArg some h0)) s
    rw [htick]
    exact hmoves

/-- After any number of TICKs some later one finds the counter moved (R209 law 3). -/
theorem ticksTaken_moves {limits : Nat → Option Nat} (hl : ∀ k, limits k ≠ some 0) (s : State) (n : Nat) :
    ∃ m, (ticksTaken limits n s).env.tickNow < (ticksTaken limits m s).env.tickNow := by
  rcases tickEvent_moves (hl n) (ticksTaken limits n s) with hlt | hp
  · exact ⟨n + 1, hlt⟩
  · obtain ⟨m, hm⟩ := ticksTaken_moves hl s (n + 1)
    exact ⟨m, (tickTaken_tickEvent (limits n) _).1.trans_lt hm⟩
termination_by patience (ticksTaken limits n s).env

end

/-- Settles O54: laws 1 and 2 by the one TICK a step can take, law 3 by induction on the bound. -/
theorem tickSourceKeepsItsLaws : Obligations.TickSourceKeepsItsLaws := by
  refine ⟨fun i s t h => ?_, fun limits s bound hl => ?_⟩
  · have hcheck (site : Site) (hr : Running s) (hc : s.ctrl = .call site .check) := exec_check_increase hr hc h
    rcases exec_tick h with ⟨hsame, hnone⟩ | ⟨hle, htr⟩
    · exact ⟨hsame.ge, fun τ hτ => absurd hτ (hnone τ), fun _ => hsame, hcheck⟩
    · refine ⟨hle, fun τ hτ => ?_, fun hnone => absurd htr (hnone _), hcheck⟩
      exact (Event.tick.inj (List.cons.inj (htr.symm.trans hτ)).1).symm
  · induction bound with
    | zero => exact ⟨0, Nat.zero_le _⟩
    | succ bound ih =>
      obtain ⟨n, hn⟩ := ih
      obtain ⟨m, hm⟩ := ticksTaken_moves hl s n
      exact ⟨m, hn.trans_lt hm⟩

end Sys2Proof.Machine
end

section
/-! PROOFS. RST while a command runs (O12); which events a running command emits at each of its control points, and that every
SAMPLE is taken while the data line is input (O42). -/

namespace Sys2Proof.Machine

/-! ## RST while a command runs -/

/-- The bus in use is the bus of a running command that drives one that exists (R232). -/
theorem busInUse_of_running {s : State} {i : Instr} (hr : Running s) (hi : decode s.cmd = .ok i) (hd : drivesBus i = true)
    (hb : i.busExists s.cfg = true) : s.busInUse = some i.bus :=
  busInUse_eq.mpr ⟨hr.2, i, hi, hd, busInRange_of_busExists hb, rfl⟩

/-- INIT, SET_DELAY, and a word that is no command or names no existing bus, use no bus. -/
theorem busInUse_ne_some {s : State}
    (h : ∀ i, decode s.cmd = .ok i → drivesBus i = false ∨ i.busExists s.cfg = false) (b : BusIx) : s.busInUse ≠ some b := by
  intro hb
  obtain ⟨-, i, hi, hd, hrange, -⟩ := busInUse_eq.mp hb
  rcases h i hi with hnot | hnone
  · exact absurd (hd.symm.trans hnot) nofun
  · exact absurd (hrange.symm.trans ((busInRange_eq_busExists ..).trans hnone)) nofun

theorem bus_rst_inUse {s : State} {b : BusIx} (h : s.busInUse = some b) :
    (rst s).bus b = { s.bus b with bitDelayUs := 0 } := by
  rw [bus_rst, if_pos h]

/-- Settles O12: the step is RST's, which keeps the latches of the bus in use and no others. -/
theorem resetDuringCommandKeepsTheLines : Obligations.ResetDuringCommandKeepsTheLines := by
  intro s hr hd
  obtain ⟨-, -, hbuf, hdone, htrace, -⟩ := rst_keeps s
  obtain ⟨hbusy, -, hphase, -, hheld, hresp, -⟩ := rst_clears s
  refine ⟨rst s, step_rst hr.1 hd, hbusy, hresp, hheld, hphase, htrace, hdone, hbuf, fun i hi hdrives hb => ?_,
    fun hnone c => bus_rst_notInUse (busInUse_ne_some hnone c)⟩
  have huse := busInUse_of_running hr hi hdrives hb
  refine ⟨?_, fun c hc => bus_rst_notInUse (huse ▸ fun h => hc (Option.some.inj h).symm)⟩
  rw [bus_rst_inUse huse]
  exact ⟨rfl, rfl, rfl⟩

/-! ## The event of a control point -/

/-- Event `e` is one that a primitive on bus `b` emits at position `p` (R101 to R107). -/
def Pos.emits (b : BusIx) (p : Pos) (e : Event) : Prop :=
  match p with
  | .seg op _ _ => ∃ u, e = lineOpEvent b op u
  | .sample => ∃ v, e = .sample b v
  | .tickT0 => ∃ τ, e = .tick τ
  | .poll => ∃ v, e = .sample b v
  | .check => ∃ τ, e = .tick τ

/-- Event `e` is one that a command on bus `b` emits at control point `c` (R22, R37). -/
def Ctrl.emits (b : BusIx) (c : Ctrl) (e : Event) : Prop :=
  match c with
  | .idle => False
  | .csEnter => e = .csEnter b
  | .call _ p => p.emits b e
  | .bufRd => ∃ k v, e = .bufRd k v
  | .bufWr => ∃ k v, e = .bufWr k v
  | .csExit _ => e = .csExit b
  | .respond _ _ => ∃ w, e = .resp w

section
variable {i : Instr} {s t : State} {b c : BusIx} {e : Event} {v : Level}

theorem event_eq {e' : Event} (htr : t.trace = e' :: s.trace) (h : t.trace = e :: s.trace) : e = e' :=
  (List.cons.inj (h.symm.trans htr)).1

theorem collaboratorWait_not_emits (h : collaboratorWait s = some t) : t.trace ≠ e :: s.trace := by
  obtain ⟨n, ws, -, rfl⟩ := collaboratorWait_some h
  exact not_emits_of_trace_eq (s := s) rfl

theorem primStep_emits {a : CallArgs} {p : Pos} (h : (primStep a p s).1.trace = e :: s.trace) : p.emits a.bus e := by
  cases p with
  | seg op rest tail =>
    cases op with
    | hold =>
      simp only [primStep] at h
      split at h
      · rename_i hw
        exact absurd h (collaboratorWait_not_emits (holdWait_some hw).2)
      · exact ⟨_, event_eq (s := collaboratorDone s) (segStep_trace ..) h⟩
    | dir d => exact ⟨s, event_eq (segStep_trace ..) h⟩
    | sda v => exact ⟨s, event_eq (segStep_trace ..) h⟩
    | scl v => exact ⟨s, event_eq (segStep_trace ..) h⟩
  | sample => exact ⟨_, event_eq (s := s) rfl h⟩
  | tickT0 => exact ⟨_, event_eq (tickTaken_tickEvent none s).2 h⟩
  | poll => exact ⟨_, event_eq (s := s) rfl h⟩
  | check => exact ⟨_, event_eq (tickTaken_tickEvent (some (maxTickStep s.cfg.tickW a.timeout)) s).2 h⟩

theorem callStep_emits {a : CallArgs} {site : Site} {p : Pos} (hs : callStep a (flowOf i) site p s = some t)
    (h : t.trace = e :: s.trace) : p.emits a.bus e := by
  refine primStep_emits (Eq.trans ?_ h)
  unfold callStep at hs
  split at hs <;> rename_i hp <;> rw [hp]
  · cases hs
    exact (phaseInside_trace ..).symm
  · exact ((flowOf_trace hs).trans (phaseInside_trace ..)).symm

theorem csEnterStep_emits (h : (csEnterStep b s).trace = e :: s.trace) : e = .csEnter b := by
  unfold csEnterStep at h
  split at h
  · rename_i hw
    exact absurd h (collaboratorWait_not_emits hw)
  · exact event_eq (s := s) rfl h

theorem bufRdStep_emits {n : BitVec 16} (hs : bufRdStep n s = some t) (h : t.trace = e :: s.trace) :
    ∃ k v, e = .bufRd k v := by
  unfold bufRdStep at hs
  split at hs <;> cases hs
  exact ⟨_, _, event_eq (s := s) rfl h⟩

theorem bufWrStep_emits {n : BitVec 16} (hs : bufWrStep n s = some t) (h : t.trace = e :: s.trace) :
    ∃ k v, e = .bufWr k v := by
  unfold bufWrStep at hs
  split at hs <;> cases hs
  exact ⟨_, _, event_eq (s := s) (readNext_trace ..) h⟩

/-- What a step of a running command emits, by its control point (R37). -/
theorem exec_emits (hr : Running s) (hs : exec i s = .next t) (h : t.trace = e :: s.trace) : s.ctrl.emits i.bus e := by
  by_cases hi : sites i = []
  · obtain ⟨st, rd, v, hc, rfl⟩ := exec_configure_respond hi hr hs
    rw [hc]
    exact ⟨_, event_eq (s := s) rfl h⟩
  rw [exec_running hi hr] at hs
  rw [← argsOf_bus i s.byteIdx]
  rcases runBusy_next hs with
    ⟨hc, rfl⟩ | ⟨_, _, hc, hs⟩ | ⟨hc, hs⟩ | ⟨hc, hs⟩ | ⟨_, hc, rfl⟩ | ⟨_, _, hc, rfl⟩ <;> rw [hc]
  · exact csEnterStep_emits h
  · exact callStep_emits hs h
  · exact bufRdStep_emits hs h
  · exact bufWrStep_emits hs h
  · exact event_eq (s := s) rfl h
  · exact ⟨_, event_eq (s := s) rfl h⟩

/-- A step of the machine that emits an event, not a response, is a running command's (R37). -/
theorem exec_of_event (hs : step s = .next t) (h : t.trace = e :: s.trace) (he : ∀ w, e ≠ .resp w) :
    Running s ∧ ∃ i, decode s.cmd = .ok i ∧ exec i s.hostWaits = .next t := by
  obtain ⟨hr, ⟨-, rfl⟩ | ⟨-, -, rfl⟩ | ⟨-, w, i, hw, hi, hx⟩ | ⟨-, w, _, -, -, hx⟩⟩ := stepWith_next hs
  · obtain ⟨-, -, -, -, htrace, -⟩ := rst_keeps s
    exact absurd h (not_emits_of_trace_eq htrace)
  · exact absurd h (not_emits_of_trace_eq (s := s) rfl)
  · cases hb : s.busy with
    | false =>
      rw [exec_ready (s := s.hostWaits) i ⟨hr, hb⟩] at hx
      cases hx
      exact absurd h (not_emits_of_trace_eq (accept_trace ..))
    | true => exact ⟨⟨hr, hb⟩, i, (currentWord_of_busy hw hb).symm ▸ hi, hx⟩
  · obtain ⟨-, ⟨-, rfl⟩ | ⟨-, st, rd, -, rfl⟩⟩ := runIllegal_next hx
    · exact absurd h (not_emits_of_trace_eq (s := s) rfl)
    · exact absurd (event_eq (s := s) rfl h) (he _)

/-! ## SAMPLE -/

/-- A primitive takes a SAMPLE only at its two sampling positions, where the data line is to be input. -/
theorem Pos.input_of_emits_sample {p : Pos} (h : p.emits b (.sample c v)) : b = c ∧ p.input = true := by
  cases p with
  | seg op rest tail =>
    obtain ⟨u, hu⟩ := h
    cases op <;> cases hu
  | sample =>
    obtain ⟨_, ⟨⟩⟩ := h
    exact ⟨rfl, rfl⟩
  | tickT0 => exact nomatch h
  | poll =>
    obtain ⟨_, ⟨⟩⟩ := h
    exact ⟨rfl, rfl⟩
  | check => exact nomatch h

/-- A command takes a SAMPLE only inside a primitive on its own bus, at a position where the data line is to be input. -/
theorem Ctrl.input_of_emits_sample {k : Ctrl} (h : k.emits b (.sample c v)) :
    b = c ∧ ∃ site p, k = .call site p ∧ p.input = true := by
  cases k with
  | call site p =>
    obtain ⟨hb, hp⟩ := Pos.input_of_emits_sample h
    exact ⟨hb, site, p, rfl, hp⟩
  | _ => exact nomatch h

end

/-- Settles O42: the SAMPLE is a running command's, at a position where the line invariant has the data line input. -/
theorem sampleOnlyWhenInput : Obligations.SampleOnlyWhenInput := by
  intro s t b v hinv hstep htr
  obtain ⟨hr, i, hi, hx⟩ := exec_of_event hstep htr nofun
  obtain ⟨rfl, site, p, hc, hp⟩ := Ctrl.input_of_emits_sample (exec_emits (s := s.hostWaits) hr hx htr)
  have hlines := hinv hr i hi
  unfold linesOk at hlines
  rw [show s.ctrl = .call site p from hc] at hlines
  obtain ⟨-, -, hinput, -⟩ := hlines
  exact hinput hp

end Sys2Proof.Machine
end
